-- ==== Sys2Proof/Word.lean ====
section
/-! DEFINITION. The word types of the SD SPI framer: a host register is 32 bits wide and an exchange or a buffer
access moves one byte (00_scope.md R7, R11). -/

namespace Sys2Proof

/-- A host register value, a buffer-memory address, a time reading (R7). -/
abbrev Word := BitVec 32

/-- One byte of the transport stream or of buffer memory; bit 7 is the most significant (R9). -/
abbrev Byte := BitVec 8

end Sys2Proof
end

