-- ==== Sys2Proof/Syntax.lean ====
section
/-! DEFINITION. The operations of the block (its instructions, spec/opcode_table.json), the response classes, the host
registers and the statements of host programs (30_encoding.md R84, R91, R98 to R100, R104; 10_state.md R22). -/

namespace Sys2Proof

/-- The response classes of R84 (`responseType`). -/
inductive RespType where
  | r1
  | r1b
  | r2
  | r3
  | r7
  deriving DecidableEq, Repr

/-- The operations, one constructor for each row of spec/opcode_table.json (R95). `idx` is the command index
IDX = OP[13:8]; `nochk` is OP[20] (R90). Every other operand is read from a register (R91, R97). -/
inductive Instr where
  | sendCmdR1 (idx : BitVec 6) (nochk : Bool)
  | sendCmdR1b (idx : BitVec 6) (nochk : Bool)
  | sendCmdR2 (idx : BitVec 6) (nochk : Bool)
  | sendCmdR3 (idx : BitVec 6) (nochk : Bool)
  | sendCmdR7 (idx : BitVec 6) (nochk : Bool)
  | crc7 (idx : BitVec 6)
  | waitReady
  | fill
  | readData
  | readBlocks
  | writeBlocks
  deriving DecidableEq, Repr

/-- Why an operation word is illegal, in the words of R94: an unassigned opcode, a nonzero reserved bit, a field
set in an operation that does not use it, RT in 5..7. -/
inductive Illegal where
  | reservedBit
  | unassignedOpcode
  | unusedField
  | respClass
  deriving DecidableEq, Repr

/-- What decoding an operation word gives (R96): an operation, or the word's rejection by name. -/
inductive Decoded where
  | op (i : Instr)
  | illegal (why : Illegal)
  deriving DecidableEq, Repr

/-- The operation of a decoded word, if it has one. -/
def Decoded.toOption : Decoded → Option Instr
  | .op i => some i
  | .illegal _ => none

/-- The sixteen registers of the host window, in the order of their offsets (R22). -/
inductive Reg where
  | op
  | arg
  | count
  | status
  | resp
  | respx
  | crc
  | cfg
  | tmoCmd
  | tmoToken
  | tmoBusy
  | bufaddr
  | blksize
  | blkdone
  | rsv38
  | rsv3c
  deriving DecidableEq, Repr

/-- `<reg>[hi:lo]`, a field of a register (R9, R104). -/
structure Field where
  reg : Reg
  hi : Nat
  lo : Nat
  deriving DecidableEq, Repr

/-- The statements the host agent executes, one a step (R98, R104), with labels resolved to statement numbers.
`w` and `r` are the defined register accesses; `busWrite` and `busRead` are an access of any width at any platform
address, defined or not (R69); the widths are the model's (DESIGN CHOICE, log entry 11). `bufWrite` and `bufRead` are the host's own accesses to buffer memory (R75, R281). -/
inductive HostStmt where
  /-- `W <reg>, <value>`. -/
  | w (reg : Reg) (v : Word)
  /-- `R <reg>`. -/
  | r (reg : Reg)
  /-- `WAITDONE`: reads STATUS repeatedly until BUSY = 0. -/
  | waitDone
  /-- `GOTO <label>`. -/
  | goto (target : Nat)
  /-- `BR <reg>[hi:lo] == <value>, <label>` when `eq`, and with `!=` otherwise. -/
  | br (f : Field) (eq : Bool) (v : Word) (target : Nat)
  /-- `HALT`. -/
  | halt
  | busWrite (addr : Word) (bytes : Nat) (v : Word)
  | busRead (addr : Word) (bytes : Nat)
  | bufWrite (addr : Word) (v : Byte)
  | bufRead (addr : Word)
  deriving DecidableEq, Repr

/-- The statements a host program is written in (R98, R99, R100, R104), before an assembler has expanded them.
An index is a number here; the assembler "refuses an index outside 0-63" (R99). A label is named by a number. -/
inductive AsmStmt where
  | w (reg : Reg) (v : Word)
  | r (reg : Reg)
  | waitDone
  | sendCmd (idx : Nat) (arg : Word) (rt : RespType) (nochk : Bool)
  | acmd (idx : Nat) (arg : Word) (rt : RespType)
  | crc7 (idx : Nat) (arg : Word)
  | waitReady
  | fill (n : Word)
  | readData (len buf : Word)
  | readBlocks (start count buf : Word)
  | writeBlocks (start count buf : Word)
  | label (l : Nat)
  | goto (l : Nat)
  | br (f : Field) (eq : Bool) (v : Word) (l : Nat)
  | halt
  deriving DecidableEq, Repr

end Sys2Proof
end

