-- ==== Sys2Proof/WellFormed.lean ====
section
/-! DEFINITION. Which terms of the syntax are well formed: a command index fits its six bits and a field of a register
is a range of its 32 bits, labels are defined once, and jumps stay inside the program (R9, R90, R99, R104). -/

namespace Sys2Proof

/-- Every operand of an operation fits its field of R90: IDX is `OP[13:8]`, "0-63". The types of `Instr` hold no
wider index, so no term fails the check; the assembler's numbers can (`AsmStmt.wf`). -/
def Instr.wf : Instr → Bool
  | .sendCmdR1 idx _ => decide (idx.toNat ≤ 63)
  | .sendCmdR1b idx _ => decide (idx.toNat ≤ 63)
  | .sendCmdR2 idx _ => decide (idx.toNat ≤ 63)
  | .sendCmdR3 idx _ => decide (idx.toNat ≤ 63)
  | .sendCmdR7 idx _ => decide (idx.toNat ≤ 63)
  | .crc7 idx => decide (idx.toNat ≤ 63)
  | .waitReady => true
  | .fill => true
  | .readData => true
  | .readBlocks => true
  | .writeBlocks => true

/-- `v[hi:lo]` names bits of a 32-bit register (R9, R104). -/
def Field.wf (f : Field) : Bool := decide (f.lo ≤ f.hi) && decide (f.hi ≤ 31)

/-- A host statement of a program of `n` statements is well formed when its field is one, its jump stays inside the
program (one past the end ends it), and its bus access has a byte or more. Every width from one byte up is well formed, and
no access of none: the spec names no widths (R69), so this is a DESIGN CHOICE, log entry 11. -/
def HostStmt.wf (n : Nat) : HostStmt → Bool
  | .w _ _ => true
  | .r _ => true
  | .waitDone => true
  | .goto t => decide (t ≤ n)
  | .br f _ _ t => f.wf && decide (t ≤ n)
  | .halt => true
  | .busWrite _ bytes _ => decide (0 < bytes)
  | .busRead _ bytes => decide (0 < bytes)
  | .bufWrite _ _ => true
  | .bufRead _ => true

/-- The labels a program of `AsmStmt`s defines, in order. -/
def AsmStmt.labels : List AsmStmt → List Nat
  | [] => []
  | .label l :: p => l :: AsmStmt.labels p
  | _ :: p => AsmStmt.labels p

/-- "An assembler refuses an index outside 0-63" (R99); a label that is used is defined; a field is one. -/
def AsmStmt.wf (defined : List Nat) : AsmStmt → Bool
  | .w _ _ => true
  | .r _ => true
  | .waitDone => true
  | .sendCmd idx _ _ _ => decide (idx ≤ 63)
  | .acmd idx _ _ => decide (idx ≤ 63)
  | .crc7 idx _ => decide (idx ≤ 63)
  | .waitReady => true
  | .fill _ => true
  | .readData _ _ => true
  | .readBlocks _ _ _ => true
  | .writeBlocks _ _ _ => true
  | .label _ => true
  | .goto l => defined.contains l
  | .br f _ _ l => f.wf && defined.contains l
  | .halt => true

/-- A host program the assembler accepts: every statement is well formed and no label is defined twice. -/
def AsmStmt.programWf (p : List AsmStmt) : Bool :=
  p.all (AsmStmt.wf (AsmStmt.labels p)) && decide (AsmStmt.labels p).Nodup

end Sys2Proof
end

