-- ==== Sys2Proof/Decode.lean ====
section
/-! DEFINITION. The operation word: its fields, the decoder of R96, the encoder and the match/mask table of R95. -/

namespace Sys2Proof

/-- The class of an RT code: "RT (OP[18:16]) values 0 to 4 are R1, R1b, R2, R3, R7" (R92). -/
def RespType.ofCode : Nat → Option RespType
  | 0 => some .r1
  | 1 => some .r1b
  | 2 => some .r2
  | 3 => some .r3
  | 4 => some .r7
  | _ => none

/-- The RT code of a class (R84, R92). -/
def RespType.code : RespType → BitVec 3
  | .r1 => 0
  | .r1b => 1
  | .r2 => 2
  | .r3 => 3
  | .r7 => 4

/-- `OP[3:0]`, the opcode (R90). -/
def opcOf (w : Word) : BitVec 4 := w.extractLsb' 0 4

/-- `OP[13:8]`, the command index (R90). -/
def idxOf (w : Word) : BitVec 6 := w.extractLsb' 8 6

/-- `OP[18:16]`, the response class code (R90). -/
def rtOf (w : Word) : BitVec 3 := w.extractLsb' 16 3

/-- `OP[20]`, NOCHK (R90). -/
def nochkOf (w : Word) : Bool := w.getLsbD 20

/-- The reserved bits 31:21, 19, 15:14 and 7:4 of an operation word (R90, R96; 90_conflicts.md C9). -/
def reservedMask : Word := 0xFFE8C0F0

/-- The SEND_CMD of a class. -/
def sendInstr (rt : RespType) (idx : BitVec 6) (nochk : Bool) : Instr :=
  match rt with
  | .r1 => .sendCmdR1 idx nochk
  | .r1b => .sendCmdR1b idx nochk
  | .r2 => .sendCmdR2 idx nochk
  | .r3 => .sendCmdR3 idx nochk
  | .r7 => .sendCmdR7 idx nochk

/-- An operation that uses no field of the word: IDX, RT and NOCHK must be 0 (R92, R93, R96). -/
def plainOp (w : Word) (i : Instr) : Decoded :=
  if idxOf w = 0 ∧ rtOf w = 0 ∧ nochkOf w = false then .op i else .illegal .unusedField

/-- R96, total on every 32-bit word; each rejection carries R94's name for it. -/
def decode (w : Word) : Decoded :=
  if w &&& reservedMask ≠ 0 then .illegal .reservedBit
  else
    match (opcOf w).toNat with
    | 1 =>
      match RespType.ofCode (rtOf w).toNat with
      | some rt => .op (sendInstr rt (idxOf w) (nochkOf w))
      | none => .illegal .respClass
    | 2 => if rtOf w = 0 ∧ nochkOf w = false then .op (.crc7 (idxOf w)) else .illegal .unusedField
    | 3 => plainOp w .waitReady
    | 4 => plainOp w .fill
    | 5 => plainOp w .readData
    | 6 => plainOp w .readBlocks
    | 7 => plainOp w .writeBlocks
    | _ => .illegal .unassignedOpcode

/-- IDX placed at bits 13:8 (R90). -/
def idxField (idx : BitVec 6) : Word := idx.setWidth 32 <<< 8

/-- RT placed at bits 18:16 (R90). -/
def rtField (rt : RespType) : Word := rt.code.setWidth 32 <<< 16

/-- NOCHK placed at bit 20 (R90). -/
def nochkField (nochk : Bool) : Word := if nochk then 0x00100000 else 0

/-- The word of a SEND_CMD: `0x1 | idx<<8 | rtcode<<16`, "as above with `| 1<<20`" for NOCHK (R99). -/
def sendWord (rt : RespType) (idx : BitVec 6) (nochk : Bool) : Word :=
  0x1 ||| idxField idx ||| rtField rt ||| nochkField nochk

/-- The operation word of an operation, from the table of R90, R91 and R95. -/
def encode : Instr → Word
  | .sendCmdR1 idx nochk => sendWord .r1 idx nochk
  | .sendCmdR1b idx nochk => sendWord .r1b idx nochk
  | .sendCmdR2 idx nochk => sendWord .r2 idx nochk
  | .sendCmdR3 idx nochk => sendWord .r3 idx nochk
  | .sendCmdR7 idx nochk => sendWord .r7 idx nochk
  | .crc7 idx => 0x2 ||| idxField idx
  | .waitReady => 0x3
  | .fill => 0x4
  | .readData => 0x5
  | .readBlocks => 0x6
  | .writeBlocks => 0x7

/-- One row of R95: a word belongs to it when `word & mask == match`. -/
structure OpRow where
  mnemonic : String
  word : Word
  mask : Word
  deriving DecidableEq, Repr

/-- `word & mask == match` (R95). -/
def OpRow.matchesWord (r : OpRow) (w : Word) : Bool := w &&& r.mask == r.word

/-- The table of R95, row for row. -/
def opTable : List OpRow :=
  [ ⟨"SEND_CMD R1", 0x00000001, 0xFFEFC0FF⟩,
    ⟨"SEND_CMD R1b", 0x00010001, 0xFFEFC0FF⟩,
    ⟨"SEND_CMD R2", 0x00020001, 0xFFEFC0FF⟩,
    ⟨"SEND_CMD R3", 0x00030001, 0xFFEFC0FF⟩,
    ⟨"SEND_CMD R7", 0x00040001, 0xFFEFC0FF⟩,
    ⟨"CRC7", 0x00000002, 0xFFFFC0FF⟩,
    ⟨"WAIT_READY", 0x00000003, 0xFFFFFFFF⟩,
    ⟨"FILL", 0x00000004, 0xFFFFFFFF⟩,
    ⟨"READ_DATA", 0x00000005, 0xFFFFFFFF⟩,
    ⟨"READ_BLOCKS", 0x00000006, 0xFFFFFFFF⟩,
    ⟨"WRITE_BLOCKS", 0x00000007, 0xFFFFFFFF⟩ ]

/-- The row of R95 an operation belongs to. -/
def rowOf : Instr → OpRow
  | .sendCmdR1 _ _ => ⟨"SEND_CMD R1", 0x00000001, 0xFFEFC0FF⟩
  | .sendCmdR1b _ _ => ⟨"SEND_CMD R1b", 0x00010001, 0xFFEFC0FF⟩
  | .sendCmdR2 _ _ => ⟨"SEND_CMD R2", 0x00020001, 0xFFEFC0FF⟩
  | .sendCmdR3 _ _ => ⟨"SEND_CMD R3", 0x00030001, 0xFFEFC0FF⟩
  | .sendCmdR7 _ _ => ⟨"SEND_CMD R7", 0x00040001, 0xFFEFC0FF⟩
  | .crc7 _ => ⟨"CRC7", 0x00000002, 0xFFFFC0FF⟩
  | .waitReady => ⟨"WAIT_READY", 0x00000003, 0xFFFFFFFF⟩
  | .fill => ⟨"FILL", 0x00000004, 0xFFFFFFFF⟩
  | .readData => ⟨"READ_DATA", 0x00000005, 0xFFFFFFFF⟩
  | .readBlocks => ⟨"READ_BLOCKS", 0x00000006, 0xFFFFFFFF⟩
  | .writeBlocks => ⟨"WRITE_BLOCKS", 0x00000007, 0xFFFFFFFF⟩

/-- The operation the decoder reads from an operation word given as a number (R97: always 32 bits; R67: a register
value is the same number whatever the bus's byte order). A number that needs more than 32 bits is no operation word. -/
def decodeTableWord (nbits w : Nat) : Option Instr :=
  if nbits ≤ 32 ∧ w < 2 ^ 32 then (decode (BitVec.ofNat 32 w)).toOption else none

end Sys2Proof
end

