-- ==== Sys2Proof/Config.lean ====
section
/-! DEFINITION. What an implementation or the platform fixes (R8), and the free values the spec leaves open: the
byte the card returns, the value of the time input (R11, R15, R253), a register read the spec calls a free draw (R39),
and a buffer read that races with the running operation (R281). -/

namespace Sys2Proof

/-- `RESP_POLL_MAX`, the number of response-search exchanges: "in {8, 9, 10}, default 8" (R8). -/
inductive PollMax where
  | eight
  | nine
  | ten
  deriving DecidableEq, Repr

/-- The number a `PollMax` stands for (R8). -/
def PollMax.toNat : PollMax → Nat
  | .eight => 8
  | .nine => 9
  | .ten => 10

/-- `BUS_ERR_POLICY` (R8): what answers a register access the spec does not define (R69). The spec gives the
parameter no values. `refuse` is the spec's own reading ("A model refuses any other host access"); under `busError`
the platform bus stops the host with an error. DESIGN CHOICE, log entry 9. -/
inductive BusErrPolicy where
  | refuse
  | busError
  deriving DecidableEq, Repr

/-- `MEM_ERR_POLICY` (R8): what the block does on a buffer access the memory does not admit. `stuck` is R61's
"leaves the block stuck"; `other` stands for every other policy, which the spec does not describe (R243).
DESIGN CHOICE, log entry 8. -/
inductive MemErrPolicy where
  | stuck
  | other
  deriving DecidableEq, Repr

/-- A range of buffer addresses, for the part of buffer space that holds no memory (R61: "Which addresses hold
memory is the platform's"). -/
structure Region where
  base : Nat
  size : Nat
  deriving DecidableEq, Repr

/-- The parameters of R8, "which a model takes as arguments". They stand in `State` as plain data, so that a
statement about every state is a statement about every value of them; no step changes them. -/
structure Params where
  /-- `RESP_POLL_MAX` (R8, R132). -/
  respPollMax : PollMax
  /-- `STOP_STUFF_BYTES` (R8, R208). -/
  stopStuffBytes : Nat
  /-- `STOP_TRAN_SKIP` (R8, R179). -/
  stopTranSkip : Nat
  /-- `REG_BASE`, the platform address of the register window (R8, R22). The spec gives platform addresses no width; 32 bits
  are a DESIGN CHOICE, log entry 10. -/
  regBase : Word
  /-- `BUS_ERR_POLICY` (R8, R69). -/
  busErr : BusErrPolicy
  /-- `MEM_ERR_POLICY` (R8, R243). -/
  memErr : MemErrPolicy
  /-- The buffer addresses that hold no memory (R61). -/
  holes : List Region
  deriving DecidableEq, Repr

/-- The defaults R8 states: 8, 1 and 1. `REG_BASE`, the policies and the holes have no default in the spec:
DESIGN CHOICE, log entries 7 to 10. -/
def Params.default : Params where
  respPollMax := .eight
  stopStuffBytes := 1
  stopTranSkip := 1
  regBase := 0
  busErr := .refuse
  memErr := .stuck
  holes := []

/-- FREE VALUE: the byte the card returns to the `k`-th draw that no scripted byte answers ("a free draw in the
model, the card's answer", R11). Nothing constrains it. DESIGN CHOICE in its form, log entries 3 and 5. -/
opaque Config.cardByte : Nat → Byte

/-- FREE VALUE: the value of the time input at the `k`-th draw that no scripted reading answers ("the model treats
every value read as a free draw", R253). Nothing constrains it. DESIGN CHOICE in its form, log entries 4
and 5. -/
opaque Config.nowMs : Nat → Word

/-- FREE VALUE: the byte a host read of buffer memory returns where it races with the running operation (R281: "A host
access there races with the block"; 93_implementation_defined.md U8: "`any value` for a host read there"). Nothing
constrains it. Log entry 13. -/
opaque Config.racingByte : Nat → Byte

/-- FREE VALUE: what a host read of RESP, RESPX, CRC or BLKDONE returns while BUSY = 1 (R39). Log entry 24. -/
opaque Config.busyRead : Nat → Word

end Sys2Proof
end

