-- ==== Sys2Proof/Machine/State.lean ====
section
/-! DEFINITION. The state of the machine: the host register window, SEQ with the points of every operation's pseudocode,
the event trace, buffer memory, the inputs (card, time), the host agent and the platform's parameters
(10_state.md, 00_scope.md R11, R15, 20_memory.md R60 to R63). -/

namespace Sys2Proof.Machine

/-- STATUS.ERR, the error class (R27). Code 7 is "reserved, never written" and has no constructor. -/
inductive Err where
  | none
  | timeout
  | responseError
  | readFailed
  | writeFailed
  | writeProtected
  | illegalOp
  deriving DecidableEq, Repr

/-- STATUS.CAUSE, the failed check (R28). Codes 12 to 15 are "reserved, never written" and have no constructor. -/
inductive Cause where
  | none
  | respNotFound
  | busyTimeout
  | notReady
  | r1Error
  | tokenTimeout
  | badToken
  | dataRejected
  | addrOverflow
  | wpSet
  | badOpWord
  | badLength
  deriving DecidableEq, Repr

/-- One event of the block's agent (R11): an exchange (byte sent, byte received), a reading of the time input, a
buffer access. -/
inductive Event where
  | xchg (tx rx : Byte)
  | now (t : Word)
  | memRead (addr : Word) (v : Byte)
  | memWrite (addr : Word) (v : Byte)
  deriving DecidableEq, Repr

/-- The points of `wait_ready` (R131): before the reading of `t0`, before an exchange, before the test's reading. -/
inductive WaitPos where
  | start
  | poll (t0 : Word)
  | test (t0 : Word)
  deriving DecidableEq, Repr

/-- The points of `wait_token` (R170). -/
inductive TokenPos where
  | start
  | poll (t0 : Word)
  | test (t0 : Word)
  deriving DecidableEq, Repr

/-- The points of `command` (R134): the probe; a frame byte with those still to follow; a stuff byte with the number
still to follow; search exchange `k`; an extra response byte, with response[0], the bytes gathered so far and the
number still to follow; the R1b busy wait. -/
inductive CmdPos where
  | probe
  | frame (b : Byte) (rest : List Byte)
  | stuff (more : Nat)
  | search (k : Nat)
  | extra (r : Byte) (x : Word) (more : Nat)
  | busy (w : WaitPos)
  deriving DecidableEq, Repr

/-- The points of `read_packet` (R172): the token wait; the exchange of payload byte `j`; its buffer write; the two
CRC exchanges. -/
inductive ReadPos where
  | token (t : TokenPos)
  | recv (j : Nat)
  | store (j : Nat) (b : Byte)
  | crc1
  | crc2
  deriving DecidableEq, Repr

/-- The points of `write_packet` (R177): the wait; the start token; the buffer read of payload byte `j`; its exchange;
the two dummy CRC exchanges; the data-response exchange. -/
inductive WritePos where
  | ready (w : WaitPos)
  | token
  | fetch (j : Nat)
  | send (j : Nat) (b : Byte)
  | crc1
  | crc2
  | resp
  deriving DecidableEq, Repr

/-- The points of `seq_command` (R202): the wait, then the command. -/
inductive SeqCmdPos where
  | ready (w : WaitPos)
  | cmd (c : CmdPos)
  deriving DecidableEq, Repr

/-- The points of `stop_write` (R179); `w1` is the result of its first wait, `more` the skip bytes still to follow. -/
inductive StopPos where
  | ready1 (w : WaitPos)
  | token (w1 : Bool)
  | skip (w1 : Bool) (more : Nat)
  | ready2 (w1 : Bool) (w : WaitPos)
  deriving DecidableEq, Repr

/-- The points of READ_BLOCKS (R205): the data command; the packet of the single-block form; packet `i` of the
multi-block form; the stream's CMD12, with the first error recorded. -/
inductive RbPos where
  | cmd (c : SeqCmdPos)
  | single (r : ReadPos)
  | block (i : Nat) (r : ReadPos)
  | stop (e : Cause) (c : CmdPos)
  deriving DecidableEq, Repr

/-- The points of WRITE_BLOCKS (R215): the data command; the packet of the single-block form; its final wait, with
the packet's result; packet `i` of the multi-block form; the stop sequence, with the first error recorded. -/
inductive WbPos where
  | cmd (c : SeqCmdPos)
  | single (p : WritePos)
  | lastWait (c : Cause) (w : WaitPos)
  | block (i : Nat) (p : WritePos)
  | stop (e : Cause) (q : StopPos)
  deriving DecidableEq, Repr

/-- `pos`, the point reached in a running operation's pseudocode (R21), with the locals that are live there (R42):
`start` is the point R240's accept gives, left in the same step. -/
inductive Pos where
  | start
  | sendCmd (c : CmdPos)
  | waitReady (w : WaitPos)
  | fill (more : Nat)
  | readData (r : ReadPos)
  | readBlocks (p : RbPos)
  | writeBlocks (p : WbPos)
  deriving DecidableEq, Repr

/-- SEQ: "either `IDLE` or `RUN(op, pos)`" (R21). -/
inductive Seq where
  | idle
  | run (w : Word) (p : Pos)
  deriving DecidableEq, Repr

/-- STATUS (R26), one field each; its reserved bits read 0 and are not stored. -/
structure Status where
  busy : Bool
  done : Bool
  ovr : Bool
  err : Err
  cause : Cause
  deriving DecidableEq, Repr

/-- The host register window (R22). BLKSIZE and the reserved offsets are constants (R35, R37) and are not stored;
RESP, CRC and CFG are stored by their fields (R29, R31, R32), so their reserved bits read 0 (DEDUCED, log entry 14). -/
structure Regs where
  /-- OP (R23). -/
  op : Word
  /-- ARG (R24). -/
  arg : Word
  /-- COUNT (R25). -/
  count : Word
  /-- STATUS (R26 to R28). -/
  status : Status
  /-- RESP.BYTE0 (R29). -/
  byte0 : Byte
  /-- RESP.NRESP (R29). -/
  nresp : BitVec 3
  /-- RESPX (R30). -/
  respx : Word
  /-- CRC.CRC7 (R32). -/
  crc7 : BitVec 7
  /-- CRC.FRAME5 (R32). -/
  frame5 : Byte
  /-- CFG.HC (R31). -/
  hc : Bool
  /-- CFG.WP (R31). -/
  wp : Bool
  /-- TMO_CMD (R33). -/
  tmoCmd : Word
  /-- TMO_TOKEN (R33). -/
  tmoToken : Word
  /-- TMO_BUSY (R33). -/
  tmoBusy : Word
  /-- BUFADDR (R34). -/
  bufaddr : Word
  /-- BLKDONE (R36). -/
  blkdone : Word
  deriving DecidableEq, Repr

/-- The two oracles of R15 and the counter of free draws. `card` holds the bytes the card returns to the next
exchanges, `clock` the values of the next readings of the time input; a draw that finds its list empty is the free
value of Config at `drawn`, which it advances. DESIGN CHOICE, the model's own field: log entries 3 to 5. -/
structure Inputs where
  card : List Byte
  clock : List Word
  drawn : Nat
  deriving DecidableEq, Repr

/-- The host agent (R15): its program (R98, R104), the number of its next statement, and the value its last read
returned. DESIGN CHOICE, the model's own field: log entry 11. -/
structure HostAgent where
  prog : List HostStmt
  pc : Nat
  last : Word
  deriving DecidableEq, Repr

/-- Who moves in a step: "each step is one host register access or one block event", and reset "takes precedence over
every step" (R246, R270). -/
inductive Turn where
  | host
  | block
  | reset
  deriving DecidableEq, Repr

/-- Buffer memory (R61): the listed bytes, in the canonical form of `Memory.wf`. -/
abbrev Memory := List Host.Cell

/-- The machine. `turns` is the schedule of the agents' next steps; when it is empty the block moves while it is
busy and the host otherwise (DESIGN CHOICE, log entry 2). -/
structure State where
  /-- The host register window. -/
  regs : Regs
  /-- SEQ (R21, R42). -/
  seq : Seq
  /-- The event trace, first event first (R11, R42). -/
  trace : List Event
  /-- Buffer memory (R61). -/
  mem : Memory
  /-- The card and time inputs (R11, R15). -/
  inputs : Inputs
  /-- The host agent (R15). -/
  host : HostAgent
  /-- The schedule (R246). -/
  turns : List Turn
  /-- The parameters of R8. -/
  params : Params
  deriving DecidableEq, Repr

/-- Why a step stops: nothing here is a fault of the source, which has none (R243). -/
inductive Fault where
  /-- A buffer access the memory does not admit, under `MEM_ERR_POLICY` = stuck: "an access the memory does not admit
  leaves the block stuck" (R61). Raised by READ_DATA, READ_BLOCKS and WRITE_BLOCKS. SAFE: the spec gives no step. -/
  | bufferStuck
  /-- A register access the spec does not define (R69), under `BUS_ERR_POLICY` = busError. Raised by the host's bus
  access, never by an operation. SAFE. -/
  | registerBusError
  /-- An operation was asked to go on while SEQ runs another operation's word. No step of the machine asks that.
  Raised by every meaning. SAFE: no run reaches it. -/
  | otherOperation
  /-- SEQ holds a point that is no point of its operation, or runs an illegal word. Raised by every meaning and by the
  block's step. SAFE: no run reaches it (statement StepKeepsInvariant). -/
  | badPosition
  deriving DecidableEq, Repr

/-- Why a step has no meaning. -/
inductive Refusal where
  /-- An instruction without a meaning yet. Raised by exec's arms only; none is left. SAFE. -/
  | notModelled (mnemonic : String)
  /-- A register access that is narrower or wider than 32 bits, misaligned or outside the window: "A model refuses any
  other host access" (R69). Raised by the host's bus access, never by an operation. SAFE. -/
  | undefinedRegisterAccess
  /-- A buffer access the memory does not admit, under a `MEM_ERR_POLICY` other than stuck, which the spec leaves open
  (R243). Raised by READ_DATA, READ_BLOCKS and WRITE_BLOCKS. SAFE. -/
  | memErrPolicyOpen
  /-- The host's own access to a buffer address that holds no memory: the platform's matter (R61). Raised by the
  host's buffer access, never by an operation. SAFE. -/
  | hostBufferUnmapped
  deriving DecidableEq, Repr

/-- STATUS after reset: 0x00000000 (R22, R43). -/
def Status.reset : Status where
  busy := false
  done := false
  ovr := false
  err := .none
  cause := .none

/-- The register window after reset (R22, R43). -/
def Regs.reset : Regs where
  op := 0
  arg := 0
  count := 0
  status := Status.reset
  byte0 := 0xFF
  nresp := 0
  respx := 0
  crc7 := 0
  frame5 := 0
  hc := false
  wp := false
  tmoCmd := 500
  tmoToken := 100
  tmoBusy := 500
  bufaddr := 0
  blkdone := 0

/-- The machine right after reset: the block as R43 says; "Buffer memory is not part of the block and is not reset"
and here lists nothing; no input is scripted, the host has no program, the parameters have R8's defaults. -/
def State.reset : State where
  regs := Regs.reset
  seq := .idle
  trace := []
  mem := []
  inputs := { card := [], clock := [], drawn := 0 }
  host := { prog := [], pc := 0, last := 0 }
  turns := []
  params := Params.default

end Sys2Proof.Machine
end

