-- ==== Sys2Proof/Machine/Flags.lean ====
section
/-! DEFINITION. The status codes, the words the host reads from the window, and the stores of a host write
(10_state.md R22 to R37). The flags are STATUS.BUSY, DONE and OVR and CFG.HC and WP (R40). -/

namespace Sys2Proof.Machine

/-- The code of an error class in STATUS[6:4] (R27). -/
def errCode : Err → BitVec 3
  | .none => 0
  | .timeout => 1
  | .responseError => 2
  | .readFailed => 3
  | .writeFailed => 4
  | .writeProtected => 5
  | .illegalOp => 6

/-- The code of a cause in STATUS[11:8] (R28). -/
def causeCode : Cause → BitVec 4
  | .none => 0
  | .respNotFound => 1
  | .busyTimeout => 2
  | .notReady => 3
  | .r1Error => 4
  | .tokenTimeout => 5
  | .badToken => 6
  | .dataRejected => 7
  | .addrOverflow => 8
  | .wpSet => 9
  | .badOpWord => 10
  | .badLength => 11

/-- OP as the host reads it: the last word stored (R23), its reserved bits reading 0 (R37, D3). That R37 holds for OP too is
DEDUCED, log entry 25. -/
def opWord (g : Regs) : Word := g.op &&& ~~~reservedMask

/-- STATUS as the host reads it (R26): BUSY at bit 0, DONE 1, OVR 2, ERR 6:4, CAUSE 11:8, every other bit 0. -/
def statusWord (st : Status) : Word :=
  (BitVec.ofBool st.busy).setWidth 32 ||| ((BitVec.ofBool st.done).setWidth 32 <<< 1)
    ||| ((BitVec.ofBool st.ovr).setWidth 32 <<< 2) ||| ((errCode st.err).setWidth 32 <<< 4)
    ||| ((causeCode st.cause).setWidth 32 <<< 8)

/-- RESP as the host reads it (R29): BYTE0 at 7:0, NRESP at 10:8. -/
def respWord (g : Regs) : Word := g.byte0.setWidth 32 ||| (g.nresp.setWidth 32 <<< 8)

/-- CRC as the host reads it (R32): CRC7 at 6:0, FRAME5 at 15:8. -/
def crcWord (g : Regs) : Word := g.crc7.setWidth 32 ||| (g.frame5.setWidth 32 <<< 8)

/-- CFG as the host reads it (R31): HC at bit 0, WP at bit 1. -/
def cfgWord (g : Regs) : Word := (BitVec.ofBool g.hc).setWidth 32 ||| ((BitVec.ofBool g.wp).setWidth 32 <<< 1)

/-- BLKSIZE, "hardwired 0x00000200" (R35): the payload bytes of every block. -/
def blockSize : Nat := 512

/-- The value of a register of the window as the host reads it (R22); the reserved offsets and the reserved bits of every
register read 0 (R37). -/
def regWord (g : Regs) : Reg → Word
  | .op => opWord g
  | .arg => g.arg
  | .count => g.count
  | .status => statusWord g.status
  | .resp => respWord g
  | .respx => g.respx
  | .crc => crcWord g
  | .cfg => cfgWord g
  | .tmoCmd => g.tmoCmd
  | .tmoToken => g.tmoToken
  | .tmoBusy => g.tmoBusy
  | .bufaddr => g.bufaddr
  | .blksize => BitVec.ofNat 32 blockSize
  | .blkdone => g.blkdone
  | .rsv38 => 0
  | .rsv3c => 0

/-- What a host write stores while the block is idle. Read-only registers, reserved offsets and reserved bits ignore
it (R31, R37). A write to OP also starts an operation: that is the accept of R240, not this store. -/
def storeReg (v : Word) (g : Regs) : Reg → Regs
  | .op => { g with op := v }
  | .arg => { g with arg := v }
  | .count => { g with count := v }
  | .status => g
  | .resp => g
  | .respx => g
  | .crc => g
  | .cfg => { g with hc := v.getLsbD 0, wp := v.getLsbD 1 }
  | .tmoCmd => { g with tmoCmd := v }
  | .tmoToken => { g with tmoToken := v }
  | .tmoBusy => { g with tmoBusy := v }
  | .bufaddr => { g with bufaddr := v }
  | .blksize => g
  | .blkdone => g
  | .rsv38 => g
  | .rsv3c => g

/-- The registers whose value a host read while BUSY = 1 leaves free: "a read of RESP, RESPX, CRC or BLKDONE returns
a value the model treats as a free draw" (R39). -/
def readsFreeWhileBusy : Reg → Bool
  | .resp => true
  | .respx => true
  | .crc => true
  | .blkdone => true
  | .op => false
  | .arg => false
  | .count => false
  | .status => false
  | .cfg => false
  | .tmoCmd => false
  | .tmoToken => false
  | .tmoBusy => false
  | .bufaddr => false
  | .blksize => false
  | .rsv38 => false
  | .rsv3c => false

/-- The register's byte offset from REG_BASE (R22). -/
def regOffset : Reg → Nat
  | .op => 0x00
  | .arg => 0x04
  | .count => 0x08
  | .status => 0x0C
  | .resp => 0x10
  | .respx => 0x14
  | .crc => 0x18
  | .cfg => 0x1C
  | .tmoCmd => 0x20
  | .tmoToken => 0x24
  | .tmoBusy => 0x28
  | .bufaddr => 0x2C
  | .blksize => 0x30
  | .blkdone => 0x34
  | .rsv38 => 0x38
  | .rsv3c => 0x3C

/-- The sixteen registers in the order of their offsets (R22). -/
def regList : List Reg :=
  [.op, .arg, .count, .status, .resp, .respx, .crc, .cfg,
   .tmoCmd, .tmoToken, .tmoBusy, .bufaddr, .blksize, .blkdone, .rsv38, .rsv3c]

/-- The register a bus access of `bytes` bytes at a platform address names: "Register accesses must be 32 bits wide at
an offset that is a multiple of 4 within 0x00 to 0x3C" (R69); every other access names none. That a platform
address has 32 bits and the offset is taken modulo 2^32, so that a window near the top wraps to address 0, is a DESIGN CHOICE:
the spec gives no width (R8, R22, R60); log entry 10. -/
def regAt (base addr : Word) (bytes : Nat) : Option Reg :=
  let off := (addr - base).toNat
  if bytes = 4 ∧ off % 4 = 0 then regList[off / 4]? else none

/-- The bits `v[hi:lo]`, right-aligned (R9). -/
def fieldOf (f : Field) (v : Word) : Word := (v >>> f.lo) &&& BitVec.ofNat 32 (2 ^ (f.hi + 1 - f.lo) - 1)

end Sys2Proof.Machine
end

