-- ==== Sys2Proof/Machine/Operands.lean ====
section
/-! DEFINITION. The operands of the operations: what each reads from its registers (30_encoding.md R91), the card
address (43_stream_sequencer.md R201), the buffer addresses (20_memory.md R66, R68), the data-response check and the
tests on received bytes (30_encoding.md R83, R86, R87, R89). -/

namespace Sys2Proof.Machine

/-- The filler byte, sent "on every exchange that carries no frame, token or payload byte" (R86). -/
def filler : Byte := 0xFF

/-- The start token of a read packet and of a single-block write (R87). -/
def startToken : Byte := 0xFE

/-- The start token of each packet of a multi-block write (R87). -/
def multiToken : Byte := 0xFC

/-- The stop-transfer token (R87). -/
def stopToken : Byte := 0xFD

/-- "the bus is ready exactly when the byte received is 0xFF" (R86). -/
def busReady (b : Byte) : Bool := b == 0xFF

/-- "the response begins with the first received byte whose bit 7 is 0" (R83). -/
def isResponse (b : Byte) : Bool := !b.getLsbD 7

/-- The data-response token "is accepted exactly when `(token & 0x1F) == 0x05`" (R89, R178). -/
def dataAccepted (d : Byte) : Bool := d &&& 0x1F == 0x05

/-- `nextra(rt)`, the response bytes after response[0] (R133). -/
def nextra : RespType → Nat
  | .r1 => 0
  | .r1b => 0
  | .r2 => 1
  | .r3 => 4
  | .r7 => 4

/-- "`(now() - t0) mod 2^32 >= T`": the unsigned subtraction and comparison of every deadline test (R131, R170). -/
def deadlinePassed (T t0 t : Word) : Bool := decide (T ≤ t - t0)

/-- The buffer address of payload byte `j` of a packet at `base`: "`base + j` modulo 2^32" (R66). -/
def byteAddr (base : Word) (j : Nat) : Word := base + BitVec.ofNat 32 j

/-- The base of block `i` of a stream: `BUFADDR + 512*i` modulo 2^32 (R34, R204). -/
def blockBase (buf : Word) (i : Nat) : Word := buf + BitVec.ofNat 32 (blockSize * i)

/-- "When CFG.HC = 0 and ARG >= 2^23, the product does not fit 32 bits" (R201). -/
def addrOverflows (g : Regs) : Bool := !g.hc && decide (2 ^ 23 ≤ g.arg.toNat)

/-- The card address: `ARG` when CFG.HC = 1 and `ARG << 9` when CFG.HC = 0 (R201). -/
def cardAddr (g : Regs) : Word := if g.hc then g.arg else g.arg <<< 9

/-- "COUNT = 1 uses the single-block form; COUNT >= 2 uses the multi-block form" (R204). -/
def singleBlock (g : Regs) : Bool := g.count == 1

/-- The index of the data command of a read: CMD17, or CMD18 in the multi-block form (R204, R205). -/
def readIdx (g : Regs) : BitVec 6 := if singleBlock g then 17 else 18

/-- The index of the data command of a write: CMD24, or CMD25 in the multi-block form (R204, R215). -/
def writeIdx (g : Regs) : BitVec 6 := if singleBlock g then 24 else 25

/-- "for COUNT outside 1..512" (R180). -/
def badLength (g : Regs) : Bool := g.count == 0 || decide (512 < g.count.toNat)

/-- The arguments of `command(idx, arg, rt, chk, stuff, tbusy)` (R134). -/
structure CmdCall where
  idx : BitVec 6
  arg : Word
  rt : RespType
  chk : Bool
  stuff : Nat
  tbusy : Word
  deriving DecidableEq, Repr

/-- SEND_CMD's call: `command(OP.IDX, ARG, OP.RT, OP.NOCHK == 0, 0, TMO_CMD)` (R140). -/
def sendCall (rt : RespType) (idx : BitVec 6) (nochk : Bool) (g : Regs) : CmdCall where
  idx := idx
  arg := g.arg
  rt := rt
  chk := !nochk
  stuff := 0
  tbusy := g.tmoCmd

/-- A data command's call: `command(idx, arg, R1, false, 0, 0)` (R202), with the card address of R201. -/
def dataCall (idx : BitVec 6) (g : Regs) : CmdCall where
  idx := idx
  arg := cardAddr g
  rt := .r1
  chk := false
  stuff := 0
  tbusy := 0

/-- The CMD12 of a read stream: `command(12, 0, R1b, false, STOP_STUFF_BYTES, TMO_BUSY)` (R205, R208). The
argument 0 is PRESUMED, the spec's G2: log entry 20. -/
def stopCall (p : Params) (g : Regs) : CmdCall where
  idx := 12
  arg := 0
  rt := .r1b
  chk := false
  stuff := p.stopStuffBytes
  tbusy := g.tmoBusy

/-- How many bytes of the buffer an operation uses, from BUFADDR on (R281): "len = COUNT for READ_DATA, 512 × COUNT for
the block operations". -/
def bufferBytes (g : Regs) : Instr → Nat
  | .sendCmdR1 _ _ => 0
  | .sendCmdR1b _ _ => 0
  | .sendCmdR2 _ _ => 0
  | .sendCmdR3 _ _ => 0
  | .sendCmdR7 _ _ => 0
  | .crc7 _ => 0
  | .waitReady => 0
  | .fill => 0
  | .readData => g.count.toNat
  | .readBlocks => blockSize * g.count.toNat
  | .writeBlocks => blockSize * g.count.toNat

/-- Whether the memory admits an access at a buffer address (R61). -/
def admits (p : Params) (a : Word) : Bool :=
  p.holes.all fun r => !(decide (r.base ≤ a.toNat) && decide (a.toNat < r.base + r.size))

end Sys2Proof.Machine
end

