-- ==== Sys2Proof/Machine/Crc.lean ====
section
/-! DEFINITION. The CRC7 generator and the command frame (40_crc7.md R110 to R114, 30_encoding.md R80, R81). -/

namespace Sys2Proof.Machine

/-- One bit of R110's loop with feedback constant `g`: `fb <- r[6] ^ b[i]; r <- (r << 1)[6:0]; if fb == 1 then
r <- r ^ g`. -/
def crcBitWith (g : BitVec 7) (r : BitVec 7) (bit : Bool) : BitVec 7 :=
  if (r.getLsbD 6 ^^ bit) then (r <<< 1) ^^^ g else r <<< 1

/-- The bits of a byte, most significant first (R110). -/
def bitsOf (b : Byte) : List Bool :=
  [b.getLsbD 7, b.getLsbD 6, b.getLsbD 5, b.getLsbD 4, b.getLsbD 3, b.getLsbD 2, b.getLsbD 1, b.getLsbD 0]

/-- One byte of R110's loop with feedback constant `g`. -/
def crcByteWith (g : BitVec 7) (r : BitVec 7) (b : Byte) : BitVec 7 := (bitsOf b).foldl (crcBitWith g) r

/-- R110 with feedback constant `g` (R111 compares all 128). -/
def crc7With (g : BitVec 7) (m : List Byte) : BitVec 7 := m.foldl (crcByteWith g) 0

/-- The feedback constant of G(x) = x^7 + x^3 + 1 (R110). PRESUMED: the spec's own general knowledge G1, log entry 19. -/
def crcPoly : BitVec 7 := 0x09

/-- `crc7(m)` (R110). -/
def crc7 (m : List Byte) : BitVec 7 := crc7With crcPoly m

/-- The nibble table T[0..15] of R113. -/
def crcTable : List (BitVec 7) :=
  [0x00, 0x09, 0x12, 0x1B, 0x24, 0x2D, 0x36, 0x3F, 0x48, 0x41, 0x5A, 0x53, 0x6C, 0x65, 0x7E, 0x77]

/-- One nibble of R113's loop: `r <- ((r << 4)[6:0]) ^ T[r[6:3] ^ nib]`. -/
def crcNibble (r : BitVec 7) (nib : BitVec 4) : BitVec 7 :=
  (r <<< 4) ^^^ crcTable.getD (r.extractLsb' 3 4 ^^^ nib).toNat 0

/-- The nibble-table form of R113. -/
def crc7Nibble (m : List Byte) : BitVec 7 :=
  m.foldl (fun r b => crcNibble (crcNibble r (b.extractLsb' 4 4)) (b.extractLsb' 0 4)) 0

/-- Frame byte 0: `0x40 | zext_8(idx)` (R81). -/
def frameHead (idx : BitVec 6) : Byte := 0x40 ||| idx.setWidth 8

/-- Frame bytes 1 to 4: the argument, most significant byte first (R64, R81). -/
def argBytes (arg : Word) : List Byte :=
  [arg.extractLsb' 24 8, arg.extractLsb' 16 8, arg.extractLsb' 8 8, arg.extractLsb' 0 8]

/-- The CRC7 of a frame: "over the 5 preceding bytes" (R112). -/
def frameCrc (idx : BitVec 6) (arg : Word) : BitVec 7 := crc7 (frameHead idx :: argBytes arg)

/-- Frame byte 5 of a CRC7: `(zext_8(c) << 1) | 0x01` (R114). -/
def crcByte5 (c : BitVec 7) : Byte := (c.setWidth 8 <<< 1) ||| 1

/-- Frame bytes 1 to 5. -/
def frameTail (idx : BitVec 6) (arg : Word) : List Byte := argBytes arg ++ [crcByte5 (frameCrc idx arg)]

/-- The 6 bytes of a command frame, byte 0 first (R80, R81). -/
def frameBytes (idx : BitVec 6) (arg : Word) : List Byte := frameHead idx :: frameTail idx arg

/-- What `build_frame` writes (R114): `CRC.FRAME5 = f[5], CRC.CRC7 = c`. It performs no event. -/
def buildFrame (idx : BitVec 6) (arg : Word) (s : State) : State :=
  { s with regs := { s.regs with crc7 := frameCrc idx arg, frame5 := crcByte5 (frameCrc idx arg) } }

end Sys2Proof.Machine
end

