-- ==== Sys2Proof/Machine/Ops.lean ====
section
/-! DEFINITION. The shared operations: buffer memory, the events of R11, accepting an operation and ending one (the
block's "exception", 60_exceptions.md R240, R244), reset, and the steps a meaning is built from. -/

namespace Sys2Proof.Machine

/-- The outcome of a step of the machine. -/
abbrev Out (α : Type) := Host.Outcome α Fault Refusal

/-- Goes on with the result of a step that answered one. -/
def onNext {α β : Type} (o : Out α) (f : α → Out β) : Out β :=
  match o with
  | .next a => f a
  | .fault r => .fault r
  | .refused r => .refused r

/-- Where a helper procedure stands after one event: at a further point, or returned with its result (R12). -/
inductive Progress (π ρ : Type) where
  | more (p : π)
  | ret (r : ρ)
  deriving DecidableEq, Repr

/-! ### Buffer memory -/

/-- What an address no entry lists reads as. The spec gives buffer memory no contents (R43, R61):
DESIGN CHOICE, log entry 6. -/
def unlistedByte : Byte := 0x00

/-- One byte of buffer memory. -/
def Memory.read : Memory → Nat → Byte
  | [], _ => unlistedByte
  | (k, b) :: m, a => if k = a then b else Memory.read m a

/-- A byte written in the canonical form: writing `unlistedByte` removes the entry. -/
def Memory.write : Memory → Nat → Byte → Memory
  | [], a, v => if v = unlistedByte then [] else [(a, v)]
  | (k, b) :: m, a, v =>
    if a < k then if v = unlistedByte then (k, b) :: m else (a, v) :: (k, b) :: m
    else if a = k then if v = unlistedByte then m else (a, v) :: m
    else (k, b) :: Memory.write m a v

/-- The entries from a lowest address on: rising strictly, inside the 2^32 bytes of buffer space (R61), none equal to
`unlistedByte`. -/
def Memory.wfFrom : Nat → Memory → Bool
  | _, [] => true
  | lo, (k, b) :: m => decide (lo ≤ k) && decide (k < 2 ^ 32) && (b != unlistedByte) && Memory.wfFrom (k + 1) m

/-- The canonical form of buffer memory. -/
def Memory.wf (m : Memory) : Bool := Memory.wfFrom 0 m

/-! ### Events (R11) -/

/-- An event is "appended, in order, to the block's event trace". -/
def logEvent (e : Event) (s : State) : State := { s with trace := s.trace ++ [e] }

/-- The byte the card returns to the next exchange, and the inputs after it (R11, R15). -/
def drawCard (n : Inputs) : Byte × Inputs :=
  match n.card with
  | b :: bs => (b, { n with card := bs })
  | [] => (Config.cardByte n.drawn, { n with drawn := n.drawn + 1 })

/-- The value of the next reading of the time input, and the inputs after it (R253). -/
def drawTime (n : Inputs) : Word × Inputs :=
  match n.clock with
  | t :: ts => (t, { n with clock := ts })
  | [] => (Config.nowMs n.drawn, { n with drawn := n.drawn + 1 })

/-- `xchg(t)`: sends `t`, returns the byte received in the same exchange (R11). -/
def xchg (t : Byte) (s : State) : Byte × State :=
  let d := drawCard s.inputs
  (d.1, logEvent (.xchg t d.1) { s with inputs := d.2 })

/-- `now()`: reads the time input (R11). -/
def now (s : State) : Word × State :=
  let d := drawTime s.inputs
  (d.1, logEvent (.now d.1) { s with inputs := d.2 })

/-- What the block does on a buffer access the memory does not admit (R61, R243): no step. -/
def memStop {α : Type} (p : Params) : Out α :=
  match p.memErr with
  | .stuck => .fault .bufferStuck
  | .other => .refused .memErrPolicyOpen

/-- `MemRead(a, 1)` (R11, R61). -/
def memRead (a : Word) (s : State) : Out (Byte × State) :=
  if admits s.params a then
    let v := Memory.read s.mem a.toNat
    .next (v, logEvent (.memRead a v) s)
  else memStop s.params

/-- `MemWrite(a, 1, v)` (R11, R61). -/
def memWrite (a : Word) (v : Byte) (s : State) : Out State :=
  if admits s.params a then .next (logEvent (.memWrite a v) { s with mem := Memory.write s.mem a.toNat v })
  else memStop s.params

/-! ### Accept and end (the exception entry of this block) -/

/-- R240: `OP <- w; DONE, OVR <- 0; ERR, CAUSE <- NONE; BLKDONE <- 0; BUSY <- 1; SEQ <- RUN(w, start)`. OP's
reserved bits read 0 whatever `w` has there (`opWord`): log entry 25. -/
def accept (w : Word) (s : State) : State :=
  { s with
    regs := { s.regs with
      op := w
      status := { busy := true, done := false, ovr := false, err := .none, cause := .none }
      blkdone := 0 }
    seq := .run w .start }

/-- `raise E(C)`, and `finish()` as `raise NONE(NONE)` (R11, R244): `ERR <- E; CAUSE <- C; BUSY <- 0; DONE <- 1;
SEQ <- IDLE`; "STATUS.OVR is not changed by the end". It diverts control nowhere and saves nothing else (R249). -/
def endOp (e : Err) (c : Cause) (s : State) : State :=
  { s with
    regs := { s.regs with
      status := { busy := false, done := true, ovr := s.regs.status.ovr, err := e, cause := c } }
    seq := .idle }

/-- `finish()` (R11, R244). There is no return from an exception: the block is idle until the next accept (R250). -/
def finish (s : State) : State := endOp .none .none s

/-- SEQ advanced to a point of the running operation (R21). -/
def goto (p : Pos) (s : State) : State :=
  match s.seq with
  | .run w _ => { s with seq := .run w p }
  | .idle => s

/-- R270 (log entry 18): every register takes its reset value, SEQ is IDLE, the running operation is aborted with no further event
and the trace starts again empty (R43). R271: nothing outside the block changes. -/
def resetBlock (s : State) : State := { s with regs := Regs.reset, seq := .idle, trace := [] }

/-- How a meaning is entered. On an idle block the instruction's word is accepted (R240) and the pseudocode starts; on
a block that runs that word it goes on at the point SEQ holds (R21). DESIGN CHOICE, log entry 15. -/
def enter (i : Instr) (s : State) (body : Pos → State → Out State) : Out State :=
  match s.seq with
  | .idle => body .start (accept (encode i) s)
  | .run w p => if w = encode i then body p s else .fault .otherOperation

/-- BLKDONE set to a number of blocks (R36). -/
def setBlkdone (n : Nat) (s : State) : State := { s with regs := { s.regs with blkdone := BitVec.ofNat 32 n } }

/-- `RESP <- 0x000000FF; RESPX <- 0` (R134): BYTE0 = 0xFF, NRESP = 0. -/
def clearResp (s : State) : State := { s with regs := { s.regs with byte0 := 0xFF, nresp := 0, respx := 0 } }

/-- `RESP <- (zext_32(1 + n) << 8) | zext_32(r); RESPX <- x` (R134). -/
def putResp (n : Nat) (r : Byte) (x : Word) (s : State) : State :=
  { s with regs := { s.regs with byte0 := r, nresp := BitVec.ofNat 3 (1 + n), respx := x } }

/-! ### The host's side of the registers -/

/-- A host write while BUSY = 1 "is ignored and sets STATUS.OVR = 1" (R38). -/
def setOvr (s : State) : State :=
  { s with regs := { s.regs with status := { s.regs.status with ovr := true } } }

/-- A host write of any register but OP while the block is idle: it "only stores (or is ignored)" (R37, R71). -/
def hostStore (r : Reg) (v : Word) (s : State) : State := { s with regs := storeReg v s.regs r }

/-- A host read: no side effect on the block (R71). While BUSY = 1 the registers of R39 read as a free draw. -/
def hostLoad (r : Reg) (s : State) : Word × State :=
  if s.regs.status.busy && readsFreeWhileBusy r then
    (Config.busyRead s.inputs.drawn, { s with inputs := { s.inputs with drawn := s.inputs.drawn + 1 } })
  else (regWord s.regs r, s)

/-- The buffer byte at an address is one the running operation uses: "`BUFADDR` to `BUFADDR + len - 1` ... mod 2^32"
(R281). -/
def usesByte (s : State) (a : Word) : Bool :=
  match s.seq with
  | .idle => false
  | .run w _ =>
    match decode w with
    | .op i => decide ((a - s.regs.bufaddr).toNat < bufferBytes s.regs i)
    | .illegal _ => false

/-- A host read of a byte of buffer memory. While STATUS.BUSY = 1 a byte the running operation uses reads as a free value
(R281, U8); every other byte as it stands. DESIGN CHOICE in its form, and in that the race ends with BUSY = 0 and not only
when the host has read DONE = 1 (R75): log entry 13. -/
def bufLoad (a : Word) (s : State) : Byte × State :=
  if s.regs.status.busy && usesByte s a then
    (Config.racingByte s.inputs.drawn, { s with inputs := { s.inputs with drawn := s.inputs.drawn + 1 } })
  else (Memory.read s.mem a.toNat, s)

end Sys2Proof.Machine
end

