-- ==== Sys2Proof/Machine/Framer.lean ====
section
/-! DEFINITION. The command/response framer (41_command_framer.md): the bus-ready wait, the command procedure, and
the operations SEND_CMD (one meaning per response class), CRC7, WAIT_READY and FILL. Each helper does ONE event (R21)
and then the code up to the next one (DEDUCED, log entry 1). -/

namespace Sys2Proof.Machine

/-- One event of `wait_ready(T)` (R131). -/
def waitReadyStep (T : Word) (p : WaitPos) (s : State) : Progress WaitPos Bool × State :=
  match p with
  | .start =>
    let d := now s
    (.more (.poll d.1), d.2)
  | .poll t0 =>
    let d := xchg filler s
    (if busReady d.1 then .ret true else .more (.test t0), d.2)
  | .test t0 =>
    let d := now s
    (if deadlinePassed T t0 d.1 then .ret false else .more (.poll t0), d.2)

/-- The code of `command` before its first event (R134): the frame is built, RESP and RESPX are cleared. -/
def commandStart (c : CmdCall) (s : State) : CmdPos × State :=
  (if c.chk then .probe else .frame (frameHead c.idx) (frameTail c.idx c.arg),
   clearResp (buildFrame c.idx c.arg s))

/-- The point of `command` after the last frame byte: the stuff bytes, or the search (R134). -/
def afterFrame (c : CmdCall) : CmdPos :=
  match c.stuff with
  | 0 => .search 0
  | n + 1 => .stuff n

/-- The code of `command` once the whole response is in (R134): RESP and RESPX, then for R1b the busy wait. -/
def storeResp (c : CmdCall) (r : Byte) (x : Word) (s : State) : Progress CmdPos Cause × State :=
  (if c.rt = .r1b then .more (.busy .start) else .ret .none, putResp (nextra c.rt) r x s)

/-- The code of `command` once response[0] is found (R133, R134). -/
def afterFound (c : CmdCall) (r : Byte) (s : State) : Progress CmdPos Cause × State :=
  match nextra c.rt with
  | 0 => storeResp c r 0 s
  | n + 1 => (.more (.extra r 0 n), s)

/-- One event of `command(idx, arg, rt, chk, stuff, tbusy)` (R134). -/
def commandStep (c : CmdCall) (p : CmdPos) (s : State) : Progress CmdPos Cause × State :=
  match p with
  | .probe =>
    let d := xchg filler s
    (if busReady d.1 then .more (.frame (frameHead c.idx) (frameTail c.idx c.arg)) else .ret .notReady, d.2)
  | .frame b rest =>
    let d := xchg b s
    (.more (match rest with
      | [] => afterFrame c
      | b' :: rest' => .frame b' rest'), d.2)
  | .stuff more =>
    let d := xchg filler s
    (.more (match more with
      | 0 => .search 0
      | m + 1 => .stuff m), d.2)
  | .search k =>
    let d := xchg filler s
    if isResponse d.1 then afterFound c d.1 d.2
    else (if k + 1 < d.2.params.respPollMax.toNat then .more (.search (k + 1)) else .ret .respNotFound, d.2)
  | .extra r x more =>
    let d := xchg filler s
    let x' := (x <<< 8) ||| d.1.setWidth 32
    match more with
    | 0 => storeResp c r x' d.2
    | m + 1 => (.more (.extra r x' m), d.2)
  | .busy w =>
    let d := waitReadyStep c.tbusy w s
    (match d.1 with
      | .more w' => .more (.busy w')
      | .ret true => .ret .none
      | .ret false => .ret .busyTimeout, d.2)

/-! ### SEND_CMD -/

/-- R140's `case c of`: the error class of a command's result. `command` returns no other cause (R134). -/
def sendErr : Cause → Err
  | .none => .none
  | .notReady => .responseError
  | .respNotFound => .timeout
  | .busyTimeout => .timeout
  | _ => .illegalOp

/-- R140, the common body of SEND_CMD, from a point of it to the next. -/
def sendCmdAt (rt : RespType) (idx : BitVec 6) (nochk : Bool) (p : Pos) (s : State) : Out State :=
  let c := sendCall rt idx nochk s.regs
  match p with
  | .start =>
    let d := commandStart c s
    .next (goto (.sendCmd d.1) d.2)
  | .sendCmd q =>
    let d := commandStep c q s
    match d.1 with
    | .more q' => .next (goto (.sendCmd q') d.2)
    | .ret e => .next (endOp (sendErr e) e d.2)
  | _ => .fault .badPosition

/-- SEND_CMD R1 (R140, R141). -/
def execSendCmdR1 (idx : BitVec 6) (nochk : Bool) (s : State) : Out State :=
  enter (.sendCmdR1 idx nochk) s (sendCmdAt .r1 idx nochk)

/-- SEND_CMD R1b (R140, R142). -/
def execSendCmdR1b (idx : BitVec 6) (nochk : Bool) (s : State) : Out State :=
  enter (.sendCmdR1b idx nochk) s (sendCmdAt .r1b idx nochk)

/-- SEND_CMD R2 (R140, R143). -/
def execSendCmdR2 (idx : BitVec 6) (nochk : Bool) (s : State) : Out State :=
  enter (.sendCmdR2 idx nochk) s (sendCmdAt .r2 idx nochk)

/-- SEND_CMD R3 (R140, R144). -/
def execSendCmdR3 (idx : BitVec 6) (nochk : Bool) (s : State) : Out State :=
  enter (.sendCmdR3 idx nochk) s (sendCmdAt .r3 idx nochk)

/-- SEND_CMD R7 (R140, R145). -/
def execSendCmdR7 (idx : BitVec 6) (nochk : Bool) (s : State) : Out State :=
  enter (.sendCmdR7 idx nochk) s (sendCmdAt .r7 idx nochk)

/-! ### CRC7, WAIT_READY, FILL -/

/-- CRC7's body (R115): the frame is built and the operation ends in the step of the OP write; no event. -/
def crc7At (idx : BitVec 6) (p : Pos) (s : State) : Out State :=
  match p with
  | .start => .next (finish (buildFrame idx s.regs.arg s))
  | _ => .fault .badPosition

/-- CRC7 (R115). -/
def execCrc7 (idx : BitVec 6) (s : State) : Out State := enter (.crc7 idx) s (crc7At idx)

/-- WAIT_READY's body, from a point of it to the next (R150). -/
def waitReadyAt (p : Pos) (s : State) : Out State :=
  match p with
  | .start => .next (goto (.waitReady .start) s)
  | .waitReady q =>
    let d := waitReadyStep s.regs.tmoCmd q s
    match d.1 with
    | .more q' => .next (goto (.waitReady q') d.2)
    | .ret true => .next (finish d.2)
    | .ret false => .next (endOp .timeout .busyTimeout d.2)
  | _ => .fault .badPosition

/-- WAIT_READY (R150). -/
def execWaitReady (s : State) : Out State := enter .waitReady s waitReadyAt

/-- The code of FILL with `n` exchanges still to do (R155). -/
def fillFrom (n : Nat) (s : State) : State :=
  match n with
  | 0 => finish s
  | m + 1 => goto (.fill m) s

/-- FILL's body, from a point of it to the next (R155): `repeat COUNT: xchg(0xFF)`, received bytes ignored. -/
def fillAt (p : Pos) (s : State) : Out State :=
  match p with
  | .start => .next (fillFrom s.regs.count.toNat s)
  | .fill more => .next (fillFrom more (xchg filler s).2)
  | _ => .fault .badPosition

/-- FILL (R155). -/
def execFill (s : State) : Out State := enter .fill s fillAt

end Sys2Proof.Machine
end

