-- ==== Sys2Proof/Machine/DataTokens.lean ====
section
/-! DEFINITION. The data-token detector and the data packets (42_data_tokens.md R170 to R179), and READ_DATA (R180). -/

namespace Sys2Proof.Machine

/-- One event of `wait_token(T)` (R170, R171). -/
def waitTokenStep (T : Word) (p : TokenPos) (s : State) : Progress TokenPos Cause × State :=
  match p with
  | .start =>
    let d := now s
    (.more (.poll d.1), d.2)
  | .poll t0 =>
    let d := xchg filler s
    (if d.1 = startToken then .ret .none
     else if d.1 = filler then .more (.test t0)
     else .ret .badToken, d.2)
  | .test t0 =>
    let d := now s
    (if deadlinePassed T t0 d.1 then .ret .tokenTimeout else .more (.poll t0), d.2)

/-- The point of `read_packet` before payload byte `j` of `len`, or the CRC bytes after the last (R172). -/
def recvFrom (len j : Nat) : ReadPos := if j < len then .recv j else .crc1

/-- One event of `read_packet(len, base, T)` (R172, R173). -/
def readPacketStep (len : Nat) (base T : Word) (p : ReadPos) (s : State) : Out (Progress ReadPos Cause × State) :=
  match p with
  | .token q =>
    let d := waitTokenStep T q s
    .next (match d.1 with
      | .more q' => .more (.token q')
      | .ret .none => .more (recvFrom len 0)
      | .ret c => .ret c, d.2)
  | .recv j =>
    let d := xchg filler s
    .next (.more (.store j d.1), d.2)
  | .store j b =>
    onNext (memWrite (byteAddr base j) b s) fun s' => .next (.more (recvFrom len (j + 1)), s')
  | .crc1 => .next (.more .crc2, (xchg filler s).2)
  | .crc2 => .next (.ret .none, (xchg filler s).2)

/-- The point of `write_packet` before payload byte `j` of 512, or the CRC bytes after the last (R177). -/
def fetchFrom (j : Nat) : WritePos := if j < blockSize then .fetch j else .crc1

/-- One event of `write_packet(tok, base, T)` (R177, R178). -/
def writePacketStep (tok : Byte) (base T : Word) (p : WritePos) (s : State) : Out (Progress WritePos Cause × State) :=
  match p with
  | .ready q =>
    let d := waitReadyStep T q s
    .next (match d.1 with
      | .more q' => .more (.ready q')
      | .ret true => .more .token
      | .ret false => .ret .busyTimeout, d.2)
  | .token => .next (.more (fetchFrom 0), (xchg tok s).2)
  | .fetch j =>
    onNext (memRead (byteAddr base j) s) fun d => .next (.more (.send j d.1), d.2)
  | .send j b => .next (.more (fetchFrom (j + 1)), (xchg b s).2)
  | .crc1 => .next (.more .crc2, (xchg filler s).2)
  | .crc2 => .next (.more .resp, (xchg filler s).2)
  | .resp =>
    let d := xchg filler s
    .next (.ret (if dataAccepted d.1 then .none else .dataRejected), d.2)

/-- The point of `stop_write` after the stop-transfer token: `STOP_TRAN_SKIP` bytes, then the second wait (R179). -/
def skipFrom (w1 : Bool) (n : Nat) : StopPos :=
  match n with
  | 0 => .ready2 w1 .start
  | m + 1 => .skip w1 m

/-- One event of `stop_write(T)` (R179). -/
def stopWriteStep (T : Word) (p : StopPos) (s : State) : Progress StopPos Cause × State :=
  match p with
  | .ready1 q =>
    let d := waitReadyStep T q s
    (match d.1 with
      | .more q' => .more (.ready1 q')
      | .ret w1 => .more (.token w1), d.2)
  | .token w1 =>
    let d := xchg stopToken s
    (.more (skipFrom w1 d.2.params.stopTranSkip), d.2)
  | .skip w1 more => (.more (skipFrom w1 more), (xchg filler s).2)
  | .ready2 w1 q =>
    let d := waitReadyStep T q s
    (match d.1 with
      | .more q' => .more (.ready2 w1 q')
      | .ret w2 => .ret (if w1 && w2 then .none else .busyTimeout), d.2)

/-- READ_DATA's body, from a point of it to the next (R180). -/
def readDataAt (p : Pos) (s : State) : Out State :=
  match p with
  | .start =>
    .next (if badLength s.regs then endOp .illegalOp .badLength s else goto (.readData (.token .start)) s)
  | .readData q =>
    onNext (readPacketStep s.regs.count.toNat s.regs.bufaddr s.regs.tmoToken q s) fun d =>
      match d.1 with
      | .more q' => .next (goto (.readData q') d.2)
      | .ret .none => .next (finish d.2)
      | .ret c => .next (endOp .readFailed c d.2)
  | _ => .fault .badPosition

/-- READ_DATA (R180). -/
def execReadData (s : State) : Out State := enter .readData s readDataAt

end Sys2Proof.Machine
end

