-- ==== Sys2Proof/Machine/Stream.lean ====
section
/-! DEFINITION. The block stream sequencer (43_stream_sequencer.md): the data command, READ_BLOCKS and WRITE_BLOCKS. -/

namespace Sys2Proof.Machine

/-- One event of `seq_command(idx, arg)` (R202, R203). -/
def seqCommandStep (idx : BitVec 6) (p : SeqCmdPos) (s : State) : Progress SeqCmdPos Cause × State :=
  let c := dataCall idx s.regs
  match p with
  | .ready q =>
    let d := waitReadyStep s.regs.tmoBusy q s
    match d.1 with
    | .more q' => (.more (.ready q'), d.2)
    | .ret true =>
      let e := commandStart c d.2
      (.more (.cmd e.1), e.2)
    | .ret false => (.ret .notReady, d.2)
  | .cmd q =>
    let d := commandStep c q s
    (match d.1 with
      | .more q' => .more (.cmd q')
      | .ret .none => .ret (if d.2.regs.byte0 = 0x00 then .none else .r1Error)
      | .ret e => .ret e, d.2)

/-! ### READ_BLOCKS (R205) -/

/-- The first error wins: a clean-up result counts only when nothing failed before it (R209, R219). -/
def firstError (e c : Cause) : Cause := if e = .none then c else e

/-- `if e == NONE then finish() else raise E(e)`. -/
def endStream (err : Err) (e : Cause) (s : State) : State :=
  if e = .none then finish s else endOp err e s

/-- The stream's CMD12 is framed (R205, R208). -/
def startStop (e : Cause) (s : State) : State :=
  let d := commandStart (stopCall s.params s.regs) s
  goto (.readBlocks (.stop e d.1)) d.2

/-- READ_BLOCKS' loop once `i` blocks are stored: the next packet, or CMD12 after the last (R205). -/
def nextReadBlock (i : Nat) (s : State) : State :=
  if i < s.regs.count.toNat then goto (.readBlocks (.block i (.token .start))) s else startStop .none s

/-- READ_BLOCKS before its first event (R205): count, then address overflow (R245). -/
def readBlocksStart (s : State) : State :=
  if s.regs.count = 0 then finish s
  else if addrOverflows s.regs then endOp .readFailed .addrOverflow s
  else goto (.readBlocks (.cmd (.ready .start))) s

/-- One event of READ_BLOCKS at a point of its pseudocode (R205). -/
def readBlocksStep (q : RbPos) (s : State) : Out State :=
  match q with
  | .cmd q =>
    let d := seqCommandStep (readIdx s.regs) q s
    match d.1 with
    | .more q' => .next (goto (.readBlocks (.cmd q')) d.2)
    | .ret .none =>
      .next (if singleBlock d.2.regs then goto (.readBlocks (.single (.token .start))) d.2 else nextReadBlock 0 d.2)
    | .ret c => .next (endOp .readFailed c d.2)
  | .single q =>
    onNext (readPacketStep blockSize s.regs.bufaddr s.regs.tmoToken q s) fun d =>
      match d.1 with
      | .more q' => .next (goto (.readBlocks (.single q')) d.2)
      | .ret .none => .next (finish (setBlkdone 1 d.2))
      | .ret c => .next (endOp .readFailed c d.2)
  | .block i q =>
    onNext (readPacketStep blockSize (blockBase s.regs.bufaddr i) s.regs.tmoToken q s) fun d =>
      match d.1 with
      | .more q' => .next (goto (.readBlocks (.block i q')) d.2)
      | .ret .none => .next (nextReadBlock (i + 1) (setBlkdone (i + 1) d.2))
      | .ret c => .next (startStop c d.2)
  | .stop e q =>
    let d := commandStep (stopCall s.params s.regs) q s
    match d.1 with
    | .more q' => .next (goto (.readBlocks (.stop e q')) d.2)
    | .ret c => .next (endStream .readFailed (firstError e c) d.2)

/-- READ_BLOCKS's body, from a point of it to the next (R205). -/
def readBlocksAt (p : Pos) (s : State) : Out State :=
  match p with
  | .start => .next (readBlocksStart s)
  | .readBlocks q => readBlocksStep q s
  | _ => .fault .badPosition

/-- READ_BLOCKS (R205). -/
def execReadBlocks (s : State) : Out State := enter .readBlocks s readBlocksAt

/-! ### WRITE_BLOCKS (R215) -/

/-- WRITE_BLOCKS' loop once `i` packets are accepted: the next packet, or the stop sequence after the last (R215). -/
def nextWriteBlock (i : Nat) (s : State) : State :=
  if i < s.regs.count.toNat then goto (.writeBlocks (.block i (.ready .start))) s
  else goto (.writeBlocks (.stop .none (.ready1 .start))) s

/-- WRITE_BLOCKS before its first event (R215): the write-protect gate, count, then address overflow (R245). -/
def writeBlocksStart (s : State) : State :=
  if s.regs.wp then endOp .writeProtected .wpSet s
  else if s.regs.count = 0 then finish s
  else if addrOverflows s.regs then endOp .writeFailed .addrOverflow s
  else goto (.writeBlocks (.cmd (.ready .start))) s

/-- The single-block form once its packet has ended with `c` (R215, R217): no final wait after BUSY_TIMEOUT, "no token
was sent"; BLKDONE is 1 when the packet was accepted. -/
def afterSinglePacket (c : Cause) (s : State) : State :=
  if c = .busyTimeout then endOp .writeFailed .busyTimeout s
  else goto (.writeBlocks (.lastWait c .start)) (if c = .none then setBlkdone 1 s else s)

/-- The end of the single-block form (R215, R217): DATA_REJECTED before the final wait's BUSY_TIMEOUT. -/
def endSingleWrite (c : Cause) (w : Bool) (s : State) : State :=
  if c = .dataRejected then endOp .writeFailed .dataRejected s
  else if w then finish s
  else endOp .writeFailed .busyTimeout s

/-- One event of WRITE_BLOCKS at a point of its pseudocode (R215). -/
def writeBlocksStep (q : WbPos) (s : State) : Out State :=
  match q with
  | .cmd q =>
    let d := seqCommandStep (writeIdx s.regs) q s
    match d.1 with
    | .more q' => .next (goto (.writeBlocks (.cmd q')) d.2)
    | .ret .none =>
      .next (if singleBlock d.2.regs then goto (.writeBlocks (.single (.ready .start))) d.2 else nextWriteBlock 0 d.2)
    | .ret c => .next (endOp .writeFailed c d.2)
  | .single q =>
    onNext (writePacketStep startToken s.regs.bufaddr s.regs.tmoBusy q s) fun d =>
      match d.1 with
      | .more q' => .next (goto (.writeBlocks (.single q')) d.2)
      | .ret c => .next (afterSinglePacket c d.2)
  | .lastWait c q =>
    let d := waitReadyStep s.regs.tmoBusy q s
    match d.1 with
    | .more q' => .next (goto (.writeBlocks (.lastWait c q')) d.2)
    | .ret w => .next (endSingleWrite c w d.2)
  | .block i q =>
    onNext (writePacketStep multiToken (blockBase s.regs.bufaddr i) s.regs.tmoBusy q s) fun d =>
      match d.1 with
      | .more q' => .next (goto (.writeBlocks (.block i q')) d.2)
      | .ret .none => .next (nextWriteBlock (i + 1) (setBlkdone (i + 1) d.2))
      | .ret c => .next (goto (.writeBlocks (.stop c (.ready1 .start))) d.2)
  | .stop e q =>
    let d := stopWriteStep s.regs.tmoBusy q s
    match d.1 with
    | .more q' => .next (goto (.writeBlocks (.stop e q')) d.2)
    | .ret c => .next (endStream .writeFailed (firstError e c) d.2)

/-- WRITE_BLOCKS's body, from a point of it to the next (R215). -/
def writeBlocksAt (p : Pos) (s : State) : Out State :=
  match p with
  | .start => .next (writeBlocksStart s)
  | .writeBlocks q => writeBlocksStep q s
  | _ => .fault .badPosition

/-- WRITE_BLOCKS (R215). -/
def execWriteBlocks (s : State) : Out State := enter .writeBlocks s writeBlocksAt

end Sys2Proof.Machine
end

