-- ==== Sys2Proof/Machine/Dispatch.lean ====
section
/-! DEFINITION. One arm per operation of spec/opcode_table.json. -/

namespace Sys2Proof.Machine

-- Each arm calls the operation's meaning: one step of it (60_exceptions.md R240, 10_state.md R21).
def exec (i : Instr) (s : State) : Host.Outcome State Fault Refusal :=
  match i with
  -- 41_command_framer.md
  | .sendCmdR1 idx nochk => Sys2Proof.Machine.execSendCmdR1 idx nochk s
  | .sendCmdR1b idx nochk => Sys2Proof.Machine.execSendCmdR1b idx nochk s
  | .sendCmdR2 idx nochk => Sys2Proof.Machine.execSendCmdR2 idx nochk s
  | .sendCmdR3 idx nochk => Sys2Proof.Machine.execSendCmdR3 idx nochk s
  | .sendCmdR7 idx nochk => Sys2Proof.Machine.execSendCmdR7 idx nochk s
  -- 40_crc7.md
  | .crc7 idx => Sys2Proof.Machine.execCrc7 idx s
  | .waitReady => Sys2Proof.Machine.execWaitReady s
  | .fill => Sys2Proof.Machine.execFill s
  -- 42_data_tokens.md
  | .readData => Sys2Proof.Machine.execReadData s
  -- 43_stream_sequencer.md
  | .readBlocks => Sys2Proof.Machine.execReadBlocks s
  | .writeBlocks => Sys2Proof.Machine.execWriteBlocks s

end Sys2Proof.Machine
end

