-- ==== Sys2Proof/Machine/HostAgent.lean ====
section
/-! DEFINITION. The steps of the two agents (00_scope.md R15): one host register access (R69, R71, 30_encoding.md R98,
R104), and one event of the block (10_state.md R21). -/

namespace Sys2Proof.Machine

/-- A word written to OP while the block is idle: accepted (R240), decoded (R96) and run to its first event; an
illegal word "ends at once with `raise ILLEGAL_OP(BAD_OP_WORD)`" (R247). -/
def startOp (w : Word) (s : State) : Out State :=
  match decode w with
  | .op i => exec i (accept w s)
  | .illegal _ => .next (endOp .illegalOp .badOpWord (accept w s))

/-- A host register write (R23, R37, R38): ignored with OVR set while busy; an OP write starts an operation; every
other write stores. -/
def hostWrite (r : Reg) (v : Word) (s : State) : Out State :=
  if s.regs.status.busy then .next (setOvr s)
  else if r = .op then startOp v s
  else .next (hostStore r v s)

/-- The host goes on with a statement of its program. -/
def setPc (n : Nat) (s : State) : State := { s with host := { s.host with pc := n } }

/-- The value a host read returned. -/
def setLast (v : Word) (s : State) : State := { s with host := { s.host with last := v } }

/-- One host read of a register (R71, R39): the value, and the state once the host has it. -/
def hostRead (r : Reg) (s : State) : Word × State :=
  let d := hostLoad r s
  (d.1, setLast d.1 d.2)

/-- A register access the spec does not define (R69): refused, or what `BUS_ERR_POLICY` says. -/
def undefinedAccess (p : Params) : Out State :=
  match p.busErr with
  | .refuse => .refused .undefinedRegisterAccess
  | .busError => .fault .registerBusError

/-- One statement of the host program, at statement number `pc` (R98, R104). A statement makes at most one access; that
`GOTO` and `HALT` take a step each is a DESIGN CHOICE, log entry 22. A buffer write races with the block in the order the
schedule says, and a racing read, one while BUSY = 1, is a free value: log entry 13. -/
def hostStmt (st : HostStmt) (pc : Nat) (s : State) : Out State :=
  match st with
  | .w r v => hostWrite r v (setPc (pc + 1) s)
  | .r r => .next (setPc (pc + 1) (hostRead r s).2)
  | .waitDone =>
    let d := hostRead .status s
    .next (setPc (if d.1.getLsbD 0 then pc else pc + 1) d.2)
  | .goto t => .next (setPc t s)
  | .br f eq v t =>
    let d := hostRead f.reg s
    .next (setPc (if (fieldOf f d.1 == v) == eq then t else pc + 1) d.2)
  | .halt => .next s
  | .busWrite a n v =>
    match regAt s.params.regBase a n with
    | some r => hostWrite r v (setPc (pc + 1) s)
    | none => undefinedAccess s.params
  | .busRead a n =>
    match regAt s.params.regBase a n with
    | some r => .next (setPc (pc + 1) (hostRead r s).2)
    | none => undefinedAccess s.params
  | .bufWrite a v =>
    if admits s.params a then .next (setPc (pc + 1) { s with mem := Memory.write s.mem a.toNat v })
    else .refused .hostBufferUnmapped
  | .bufRead a =>
    if admits s.params a then
      let d := bufLoad a s
      .next (setPc (pc + 1) (setLast (d.1.setWidth 32) d.2))
    else .refused .hostBufferUnmapped

/-- A step of the host agent: its next statement; after the last one it does nothing. -/
def hostStep (s : State) : Out State :=
  match s.host.prog[s.host.pc]? with
  | some st => hostStmt st s.host.pc s
  | none => .next s

/-- A step of the sequencer: one event of the running operation (R21); idle, it "performs no event" (R257). -/
def blockStep (s : State) : Out State :=
  match s.seq with
  | .idle => .next s
  | .run w _ =>
    match decode w with
    | .op i => exec i s
    | .illegal _ => .fault .badPosition

/-- One step of the agent whose turn it is (R246). Reset takes precedence: in its step nobody else moves (R270). -/
def turnStep (t : Turn) (s : State) : Out State :=
  match t with
  | .host => hostStep s
  | .block => blockStep s
  | .reset => .next (resetBlock s)

end Sys2Proof.Machine
end

