-- ==== Sys2Proof/Machine/Step.lean ====
section
/-! DEFINITION. One step of the machine: "each step is one host register access or one block event" (60_exceptions.md
R246). -/

namespace Sys2Proof.Machine

/-- The agent the schedule names moves; with no schedule the block moves while it is busy and the host otherwise. -/
def step (s : State) : Host.Outcome State Fault Refusal :=
  match s.turns with
  | t :: ts => turnStep t { s with turns := ts }
  | [] => if s.regs.status.busy then blockStep s else hostStep s

/-- `s` with an idle block and the host about to write the operation word to OP: "An operation word is taken from the
OP write itself when it is accepted" (R78). Log entry 12. -/
def State.withFetchWord (s : State) (_nbits w : Nat) : State :=
  { s with
    regs := { s.regs with status := { s.regs.status with busy := false } }
    seq := .idle
    host := { s.host with prog := [.w .op (BitVec.ofNat 32 w)], pc := 0 }
    turns := [] }

end Sys2Proof.Machine
end

