-- ==== Sys2Proof/Machine/Assembler.lean ====
section
/-! DEFINITION. The expansion of the statements of 30_encoding.md R98 to R100 and R104 into host statements. -/

namespace Sys2Proof.Machine

/-- `SEND_CMD <idx>, <arg>, <rt>[, NOCHK]` (R99). -/
def expandSend (idx : Nat) (arg : Word) (rt : RespType) (nochk : Bool) : List HostStmt :=
  [.w .arg arg, .w .op (sendWord rt (BitVec.ofNat 6 idx) nochk), .waitDone]

/-- The host statements one statement expands to (R99, R100, R104); `labelAt` gives the statement number of a label. -/
def expand (labelAt : Nat → Nat) : AsmStmt → List HostStmt
  | .w r v => [.w r v]
  | .r r => [.r r]
  | .waitDone => [.waitDone]
  | .sendCmd idx arg rt nochk => expandSend idx arg rt nochk
  | .acmd idx arg rt => expandSend 55 0 .r1 false ++ expandSend idx arg rt false
  | .crc7 idx arg => [.w .arg arg, .w .op (encode (.crc7 (BitVec.ofNat 6 idx))), .waitDone]
  | .waitReady => [.w .op (encode .waitReady), .waitDone]
  | .fill n => [.w .count n, .w .op (encode .fill), .waitDone]
  | .readData len buf => [.w .count len, .w .bufaddr buf, .w .op (encode .readData), .waitDone]
  | .readBlocks start count buf =>
    [.w .arg start, .w .count count, .w .bufaddr buf, .w .op (encode .readBlocks), .waitDone]
  | .writeBlocks start count buf =>
    [.w .arg start, .w .count count, .w .bufaddr buf, .w .op (encode .writeBlocks), .waitDone]
  | .label _ => []
  | .goto l => [.goto (labelAt l)]
  | .br f eq v l => [.br f eq v (labelAt l)]
  | .halt => [.halt]

/-- The number of the statement a label names, in a program whose first statement has number `n` (R104: "`<label>:`
names the next statement"). -/
def labelAddr (n : Nat) : List AsmStmt → Nat → Nat
  | [], _ => n
  | .label l :: p, k => if l = k then n else labelAddr n p k
  | st :: p, k => labelAddr (n + (expand (fun _ => 0) st).length) p k

/-- The host program of a list of statements; "An assembler refuses an index outside 0-63" (R99). -/
def assemble (p : List AsmStmt) : Option (List HostStmt) :=
  if AsmStmt.programWf p then some (p.flatMap (expand (labelAddr 0 p))) else none

/-- The field names of R104 (`STATUS.ERR` for `STATUS[6:4]`), from the layouts of R26, R29, R31 and R32. -/
def statusErr : Field := ⟨.status, 6, 4⟩
/-- STATUS.CAUSE (R26). -/
def statusCause : Field := ⟨.status, 11, 8⟩
/-- STATUS.BUSY (R26). -/
def statusBusy : Field := ⟨.status, 0, 0⟩
/-- STATUS.DONE (R26). -/
def statusDone : Field := ⟨.status, 1, 1⟩
/-- STATUS.OVR (R26). -/
def statusOvr : Field := ⟨.status, 2, 2⟩
/-- RESP.BYTE0 (R29). -/
def respByte0 : Field := ⟨.resp, 7, 0⟩
/-- RESP.NRESP (R29). -/
def respNresp : Field := ⟨.resp, 10, 8⟩
/-- CRC.CRC7 (R32). -/
def crcCrc7 : Field := ⟨.crc, 6, 0⟩
/-- CRC.FRAME5 (R32). -/
def crcFrame5 : Field := ⟨.crc, 15, 8⟩
/-- CFG.HC (R31). -/
def cfgHc : Field := ⟨.cfg, 0, 0⟩
/-- CFG.WP (R31). -/
def cfgWp : Field := ⟨.cfg, 1, 1⟩

end Sys2Proof.Machine
end

