-- ==== Sys2Proof/Machine/Pseudo.lean ====
section
/-! DEFINITION. The pseudocode of the operations run whole, written down procedure by procedure as 41_command_framer.md,
42_data_tokens.md and 43_stream_sequencer.md give it. The machine itself runs one event a step (Machine/Framer.lean to
Machine/Stream.lean); this second reading is what the refinement statements compare it with. A wait has fuel, the number
of rounds it may take; a run that needs more, or an access the memory does not admit, answers none. -/

namespace Sys2Proof.Machine

/-- A stretch of pseudocode: what it returns and the state after it. -/
abbrev Act (α : Type) := StateT State Option α

/-- `xchg(t)`. -/
def xchgA (t : Byte) : Act Byte := fun s => some (xchg t s)

/-- `now()`. -/
def nowA : Act Word := fun s => some (now s)

/-- `MemRead(a, 1)`. -/
def memReadA (a : Word) : Act Byte := fun s =>
  match memRead a s with
  | .next d => some d
  | .fault _ => none
  | .refused _ => none

/-- `MemWrite(a, 1, v)`. -/
def memWriteA (a : Word) (v : Byte) : Act Unit := fun s =>
  match memWrite a v s with
  | .next s' => some ((), s')
  | .fault _ => none
  | .refused _ => none

/-- A register update, which is no event. -/
def setA (f : State → State) : Act Unit := fun s => some ((), f s)

/-- A value read from the registers or the parameters, which is no event. -/
def getA {α : Type} (f : State → α) : Act α := fun s => some (f s, s)

/-- A wait out of fuel. -/
def outOfFuel {α : Type} : Act α := fun _ => none

/-- The loop of `wait_ready(T)` (R131). -/
def waitReadyLoop (T t0 : Word) : Nat → Act Bool
  | 0 => outOfFuel
  | n + 1 => do
    let b ← xchgA filler
    if busReady b then pure true
    else do
      let t ← nowA
      if deadlinePassed T t0 t then pure false else waitReadyLoop T t0 n

/-- `wait_ready(T)` (R131). -/
def waitReadyP (fuel : Nat) (T : Word) : Act Bool := do
  let t0 ← nowA
  waitReadyLoop T t0 fuel

/-- `for k in 0..5: xchg(f[k])`: bytes sent in order, received bytes ignored (R134). -/
def sendBytes : List Byte → Act Unit
  | [] => pure ()
  | b :: bs => do
    let _ ← xchgA b
    sendBytes bs

/-- `repeat n: xchg(0xFF)`, received bytes ignored. -/
def fillBytes : Nat → Act Unit
  | 0 => pure ()
  | n + 1 => do
    let _ ← xchgA filler
    fillBytes n

/-- The response search with `n` exchanges left (R132). -/
def searchP : Nat → Act (Option Byte)
  | 0 => pure none
  | n + 1 => do
    let r ← xchgA filler
    if isResponse r then pure (some r) else searchP n

/-- `for j in 1..n: x <- (x << 8) | zext_32(xchg(0xFF))` (R134). -/
def extraP : Nat → Word → Act Word
  | 0, x => pure x
  | n + 1, x => do
    let b ← xchgA filler
    extraP n ((x <<< 8) ||| b.setWidth 32)

/-- The probe: true when the command may go on (R134). -/
def probeP (chk : Bool) : Act Bool :=
  if chk then do
    let b ← xchgA filler
    pure (busReady b)
  else pure true

/-- `command(idx, arg, rt, chk, stuff, tbusy)` (R134). -/
def commandP (fuel : Nat) (c : CmdCall) : Act Cause := do
  setA fun s => clearResp (buildFrame c.idx c.arg s)
  let ok ← probeP c.chk
  if ok then do
    sendBytes (frameBytes c.idx c.arg)
    fillBytes c.stuff
    let polls ← getA fun s => s.params.respPollMax.toNat
    let found ← searchP polls
    match found with
    | none => pure .respNotFound
    | some r => do
      let x ← extraP (nextra c.rt) 0
      setA (putResp (nextra c.rt) r x)
      if c.rt = .r1b then do
        let w ← waitReadyP fuel c.tbusy
        pure (if w then .none else .busyTimeout)
      else pure .none
  else pure .notReady

/-- The loop of `wait_token(T)` (R170). -/
def waitTokenLoop (T t0 : Word) : Nat → Act Cause
  | 0 => outOfFuel
  | n + 1 => do
    let r ← xchgA filler
    if r = startToken then pure .none
    else if r = filler then do
      let t ← nowA
      if deadlinePassed T t0 t then pure .tokenTimeout else waitTokenLoop T t0 n
    else pure .badToken

/-- `wait_token(T)` (R170). -/
def waitTokenP (fuel : Nat) (T : Word) : Act Cause := do
  let t0 ← nowA
  waitTokenLoop T t0 fuel

/-- The payload loop of `read_packet` from byte `j`, `n` bytes to go (R172). -/
def recvBytes (base : Word) : Nat → Nat → Act Unit
  | _, 0 => pure ()
  | j, n + 1 => do
    let b ← xchgA filler
    memWriteA (byteAddr base j) b
    recvBytes base (j + 1) n

/-- `read_packet(len, base, T)` (R172). -/
def readPacketP (fuel len : Nat) (base T : Word) : Act Cause := do
  let c ← waitTokenP fuel T
  if c = .none then do
    recvBytes base 0 len
    fillBytes 2
    pure .none
  else pure c

/-- The payload loop of `write_packet` from byte `j`, `n` bytes to go (R177). -/
def sendPayload (base : Word) : Nat → Nat → Act Unit
  | _, 0 => pure ()
  | j, n + 1 => do
    let b ← memReadA (byteAddr base j)
    let _ ← xchgA b
    sendPayload base (j + 1) n

/-- `write_packet(tok, base, T)` (R177). -/
def writePacketP (fuel : Nat) (tok : Byte) (base T : Word) : Act Cause := do
  let w ← waitReadyP fuel T
  if w then do
    let _ ← xchgA tok
    sendPayload base 0 blockSize
    fillBytes 2
    let d ← xchgA filler
    pure (if dataAccepted d then .none else .dataRejected)
  else pure .busyTimeout

/-- `stop_write(T)` (R179). -/
def stopWriteP (fuel : Nat) (T : Word) : Act Cause := do
  let w1 ← waitReadyP fuel T
  let _ ← xchgA stopToken
  let skip ← getA fun s => s.params.stopTranSkip
  fillBytes skip
  let w2 ← waitReadyP fuel T
  pure (if w1 && w2 then .none else .busyTimeout)

/-- `seq_command(idx, arg)` (R202, R203). -/
def seqCommandP (fuel : Nat) (idx : BitVec 6) : Act Cause := do
  let T ← getA fun s => s.regs.tmoBusy
  let w ← waitReadyP fuel T
  if w then do
    let call ← getA fun s => dataCall idx s.regs
    let c ← commandP fuel call
    if c = .none then do
      let r ← getA fun s => s.regs.byte0
      pure (if r = 0x00 then .none else .r1Error)
    else pure c
  else pure .notReady

/-- SEND_CMD (R140). -/
def sendCmdP (fuel : Nat) (rt : RespType) (idx : BitVec 6) (nochk : Bool) : Act Unit := do
  let call ← getA fun s => sendCall rt idx nochk s.regs
  let c ← commandP fuel call
  setA (endOp (sendErr c) c)

/-- CRC7 (R115). -/
def crc7P (idx : BitVec 6) : Act Unit := do
  setA fun s => buildFrame idx s.regs.arg s
  setA finish

/-- WAIT_READY (R150). -/
def waitReadyOpP (fuel : Nat) : Act Unit := do
  let T ← getA fun s => s.regs.tmoCmd
  let w ← waitReadyP fuel T
  setA (if w then finish else endOp .timeout .busyTimeout)

/-- FILL (R155). -/
def fillP : Act Unit := do
  let n ← getA fun s => s.regs.count.toNat
  fillBytes n
  setA finish

/-- READ_DATA (R180). -/
def readDataP (fuel : Nat) : Act Unit := do
  let g ← getA fun s => s.regs
  if badLength g then setA (endOp .illegalOp .badLength)
  else do
    let c ← readPacketP fuel g.count.toNat g.bufaddr g.tmoToken
    setA (endStream .readFailed c)

/-- READ_BLOCKS' loop from block `i`, `n` blocks to go: the first error recorded (R205). -/
def readStream (fuel : Nat) (buf T : Word) : Nat → Nat → Act Cause
  | _, 0 => pure .none
  | i, n + 1 => do
    let c ← readPacketP fuel blockSize (blockBase buf i) T
    if c = .none then do
      setA (setBlkdone (i + 1))
      readStream fuel buf T (i + 1) n
    else pure c

/-- READ_BLOCKS (R205). -/
def readBlocksP (fuel : Nat) : Act Unit := do
  let g ← getA fun s => s.regs
  if g.count = 0 then setA finish
  else if addrOverflows g then setA (endOp .readFailed .addrOverflow)
  else if singleBlock g then do
    let c ← seqCommandP fuel 17
    if c = .none then do
      let c ← readPacketP fuel blockSize g.bufaddr g.tmoToken
      if c = .none then do
        setA (setBlkdone 1)
        setA finish
      else setA (endOp .readFailed c)
    else setA (endOp .readFailed c)
  else do
    let c ← seqCommandP fuel 18
    if c = .none then do
      let e ← readStream fuel g.bufaddr g.tmoToken 0 g.count.toNat
      let call ← getA fun s => stopCall s.params s.regs
      let c ← commandP fuel call
      setA (endStream .readFailed (firstError e c))
    else setA (endOp .readFailed c)

/-- WRITE_BLOCKS' loop from block `i`, `n` blocks to go: the first error recorded (R215). -/
def writeStream (fuel : Nat) (buf T : Word) : Nat → Nat → Act Cause
  | _, 0 => pure .none
  | i, n + 1 => do
    let c ← writePacketP fuel multiToken (blockBase buf i) T
    if c = .none then do
      setA (setBlkdone (i + 1))
      writeStream fuel buf T (i + 1) n
    else pure c

/-- WRITE_BLOCKS (R215). -/
def writeBlocksP (fuel : Nat) : Act Unit := do
  let g ← getA fun s => s.regs
  if g.wp then setA (endOp .writeProtected .wpSet)
  else if g.count = 0 then setA finish
  else if addrOverflows g then setA (endOp .writeFailed .addrOverflow)
  else if singleBlock g then do
    let c ← seqCommandP fuel 24
    if c = .none then do
      let c ← writePacketP fuel startToken g.bufaddr g.tmoBusy
      if c = .busyTimeout then setA (endOp .writeFailed .busyTimeout)
      else do
        setA (if c = .none then setBlkdone 1 else id)
        let w ← waitReadyP fuel g.tmoBusy
        setA (endSingleWrite c w)
    else setA (endOp .writeFailed c)
  else do
    let c ← seqCommandP fuel 25
    if c = .none then do
      let e ← writeStream fuel g.bufaddr g.tmoBusy 0 g.count.toNat
      let c ← stopWriteP fuel g.tmoBusy
      setA (endStream .writeFailed (firstError e c))
    else setA (endOp .writeFailed c)

/-- The pseudocode of an operation. -/
def pseudocode (fuel : Nat) : Instr → Act Unit
  | .sendCmdR1 idx nochk => sendCmdP fuel .r1 idx nochk
  | .sendCmdR1b idx nochk => sendCmdP fuel .r1b idx nochk
  | .sendCmdR2 idx nochk => sendCmdP fuel .r2 idx nochk
  | .sendCmdR3 idx nochk => sendCmdP fuel .r3 idx nochk
  | .sendCmdR7 idx nochk => sendCmdP fuel .r7 idx nochk
  | .crc7 idx => crc7P idx
  | .waitReady => waitReadyOpP fuel
  | .fill => fillP
  | .readData => readDataP fuel
  | .readBlocks => readBlocksP fuel
  | .writeBlocks => writeBlocksP fuel

/-- An operation accepted on a state (R240) and run whole: the state at its end, if the fuel suffices and the memory
admits its accesses. -/
def wholeRun (fuel : Nat) (i : Instr) (s : State) : Option State :=
  (pseudocode fuel i (accept (encode i) s)).map Prod.snd

end Sys2Proof.Machine
end

