-- ==== Sys2Proof/Safety.lean ====
section
/-! DEFINITION. The terms statements are made in: running an operation to its end, the outcomes an operation may record
(60_exceptions.md R241), the invariant of the machine, and what a safe run is. -/

namespace Sys2Proof.Machine

/-- An operation run by at most `n` of its steps, stopping where it has ended (BUSY = 0, R17). -/
def runOp (i : Instr) : Nat → State → Out State
  | 0, s => .next s
  | n + 1, s =>
    match exec i s with
    | .next t => if t.regs.status.busy then runOp i n t else .next t
    | .fault r => .fault r
    | .refused r => .refused r

/-- An idle block: no operation runs (R21: "`SEQ = IDLE` exactly when STATUS.BUSY = 0"). -/
def State.Idle (s : State) : Prop := s.seq = .idle ∧ s.regs.status.busy = false

/-- The block has ended an operation with an error class and a cause (R17, R244). -/
def State.Ended (s : State) (e : Err) (c : Cause) : Prop :=
  s.seq = .idle ∧ s.regs.status.busy = false ∧ s.regs.status.done = true ∧ s.regs.status.err = e ∧
    s.regs.status.cause = c

/-- The (ERR, CAUSE) pairs SEND_CMD may record (R241). -/
def sendOutcomes (rt : RespType) (nochk : Bool) : List (Err × Cause) :=
  [(.none, .none), (.timeout, .respNotFound)] ++ (if nochk then [] else [(.responseError, .notReady)]) ++
    (if rt = .r1b then [(.timeout, .busyTimeout)] else [])

/-- The (ERR, CAUSE) pairs each operation word may record: "no other pair is ever written" (R241). -/
def outcomes : Decoded → List (Err × Cause)
  | .illegal _ => [(.illegalOp, .badOpWord)]
  | .op (.sendCmdR1 _ nochk) => sendOutcomes .r1 nochk
  | .op (.sendCmdR1b _ nochk) => sendOutcomes .r1b nochk
  | .op (.sendCmdR2 _ nochk) => sendOutcomes .r2 nochk
  | .op (.sendCmdR3 _ nochk) => sendOutcomes .r3 nochk
  | .op (.sendCmdR7 _ nochk) => sendOutcomes .r7 nochk
  | .op (.crc7 _) => [(.none, .none)]
  | .op .waitReady => [(.none, .none), (.timeout, .busyTimeout)]
  | .op .fill => [(.none, .none)]
  | .op .readData =>
    [(.none, .none), (.illegalOp, .badLength), (.readFailed, .badToken), (.readFailed, .tokenTimeout)]
  | .op .readBlocks =>
    [(.none, .none), (.readFailed, .addrOverflow), (.readFailed, .notReady), (.readFailed, .respNotFound),
     (.readFailed, .r1Error), (.readFailed, .badToken), (.readFailed, .tokenTimeout), (.readFailed, .busyTimeout)]
  | .op .writeBlocks =>
    [(.none, .none), (.writeProtected, .wpSet), (.writeFailed, .addrOverflow), (.writeFailed, .notReady),
     (.writeFailed, .respNotFound), (.writeFailed, .r1Error), (.writeFailed, .busyTimeout),
     (.writeFailed, .dataRejected)]

/-! ### The host's turn -/

/-- The host moves in `s`, and `u` is `s` once its turn is off the schedule (R246, log entry 2). -/
def HostTurn (s u : State) : Prop :=
  (s.turns = [] ∧ s.regs.status.busy = false ∧ u = s) ∨ ∃ ts, s.turns = .host :: ts ∧ u = { s with turns := ts }

/-- The block moves in `s` (R246, log entry 2). -/
def BlockTurn (s : State) : Prop := (s.turns = [] ∧ s.regs.status.busy = true) ∨ ∃ ts, s.turns = .block :: ts

/-- The host moves in `s` and its next statement is `st` (R98, log entry 2). -/
def HostAt (s : State) (st : HostStmt) : Prop := (∃ u, HostTurn s u) ∧ s.host.prog[s.host.pc]? = some st

/-- The block and buffer memory are as they were. -/
def sameBlock (s t : State) : Prop := t.regs = s.regs ∧ t.seq = s.seq ∧ t.trace = s.trace ∧ t.mem = s.mem

/-- The statement is a host write of `v` to a register, by its name or by its platform address (R69, R98). -/
def writesReg (s : State) (st : HostStmt) (r : Reg) (v : Word) : Prop :=
  st = .w r v ∨ ∃ a n, st = .busWrite a n v ∧ regAt s.params.regBase a n = some r

/-- The statement is a host read of a register, by its name or by its platform address (R69, R98). -/
def readsReg (s : State) (st : HostStmt) (r : Reg) : Prop :=
  st = .r r ∨ ∃ a n, st = .busRead a n ∧ regAt s.params.regBase a n = some r

/-! ### What one event does, said from outside -/

/-- The state after an exchange that sent `tx` and received `rx`, with `card` the bytes still to come (R11). -/
def State.took (s : State) (tx rx : Byte) (card : List Byte) : State :=
  { s with inputs := { s.inputs with card := card }, trace := s.trace ++ [.xchg tx rx] }

/-- The state after a reading `t` of the time input, with `clock` the readings still to come (R11). -/
def State.timed (s : State) (t : Word) (clock : List Word) : State :=
  { s with inputs := { s.inputs with clock := clock }, trace := s.trace ++ [.now t] }

/-- The exchanges of the bytes sent and the bytes received, in order. -/
def exchanges (tx rx : List Byte) : List Event := List.zipWith Event.xchg tx rx

/-- The block runs operation `i` and stands at `p` (R21). -/
def State.At (s : State) (i : Instr) (p : Pos) : Prop := s.seq = .run (encode i) p

/-- The state with SEQ at point `p` of operation `i`. -/
def State.goes (s : State) (i : Instr) (p : Pos) : State := { s with seq := .run (encode i) p }

/-- The buffer address the next event stores to, if it stores (R172, R205). -/
def storeAddr (s : State) : Option Word :=
  match s.seq with
  | .run _ (.readData (.store j _)) => some (byteAddr s.regs.bufaddr j)
  | .run _ (.readBlocks (.single (.store j _))) => some (byteAddr s.regs.bufaddr j)
  | .run _ (.readBlocks (.block i (.store j _))) => some (byteAddr (blockBase s.regs.bufaddr i) j)
  | _ => none

/-- The buffer address the next event loads from, if it loads (R177, R215). -/
def loadAddr (s : State) : Option Word :=
  match s.seq with
  | .run _ (.writeBlocks (.single (.fetch j))) => some (byteAddr s.regs.bufaddr j)
  | .run _ (.writeBlocks (.block i (.fetch j))) => some (byteAddr (blockBase s.regs.bufaddr i) j)
  | _ => none

/-- The memory admits the access the next event makes, if it makes one (R61, R273). -/
def accessAdmitted (s : State) : Prop :=
  (∀ a, storeAddr s = some a → admits s.params a = true) ∧ (∀ a, loadAddr s = some a → admits s.params a = true)

/-- The operations that "reach `finish()` or `raise` before" their "first event": R240's list of them. -/
def endsAtAccept (d : Decoded) (g : Regs) : Bool :=
  match d with
  | .illegal _ => true
  | .op (.crc7 _) => true
  | .op .fill => g.count == 0
  | .op .readData => badLength g
  | .op .readBlocks => g.count == 0 || addrOverflows g
  | .op .writeBlocks => g.wp || g.count == 0 || addrOverflows g
  | .op _ => false

/-- The registers no operation writes: its operands (R24, R25, R31, R33, R34). -/
def sameOperands (g h : Regs) : Prop :=
  h.arg = g.arg ∧ h.count = g.count ∧ h.hc = g.hc ∧ h.wp = g.wp ∧ h.tmoCmd = g.tmoCmd ∧ h.tmoToken = g.tmoToken ∧
    h.tmoBusy = g.tmoBusy ∧ h.bufaddr = g.bufaddr

/-- RESP and RESPX, which only a framed command writes (R29, R30). -/
def sameResp (g h : Regs) : Prop := h.byte0 = g.byte0 ∧ h.nresp = g.nresp ∧ h.respx = g.respx

/-- CRC, which only a built frame writes (R32). -/
def sameCrc (g h : Regs) : Prop := h.crc7 = g.crc7 ∧ h.frame5 = g.frame5

/-! ### The invariant -/

/-- A point of `command` that its call can reach (R134). -/
def CmdPos.Ok (p : Params) (c : CmdCall) : CmdPos → Prop
  | .probe => c.chk = true
  | .frame b rest => (b :: rest) <:+ frameBytes c.idx c.arg
  | .stuff more => more < c.stuff
  | .search k => k < p.respPollMax.toNat
  | .extra r x more => isResponse r = true ∧ more < nextra c.rt ∧ (c.rt = .r2 → x = 0)
  | .busy _ => c.rt = .r1b

/-- A point of `read_packet` of `len` bytes (R172). -/
def ReadPos.Ok (len : Nat) : ReadPos → Prop
  | .token _ => True
  | .recv j => j < len
  | .store j _ => j < len
  | .crc1 => True
  | .crc2 => True

/-- A point of `write_packet` (R177). -/
def WritePos.Ok : WritePos → Prop
  | .ready _ => True
  | .token => True
  | .fetch j => j < blockSize
  | .send j _ => j < blockSize
  | .crc1 => True
  | .crc2 => True
  | .resp => True

/-- A point of `seq_command` (R202). -/
def SeqCmdPos.Ok (p : Params) (c : CmdCall) : SeqCmdPos → Prop
  | .ready _ => True
  | .cmd q => q.Ok p c

/-- A point of `stop_write` (R179). -/
def StopPos.Ok (p : Params) : StopPos → Prop
  | .ready1 _ => True
  | .token _ => True
  | .skip _ more => more < p.stopTranSkip
  | .ready2 _ _ => True

/-- BLKDONE while block `i` of a stream is on its way (R205, R215). -/
def blocksDone (g : Regs) (i : Nat) : Prop := g.blkdone = BitVec.ofNat 32 i

/-- BLKDONE in the clean-up of a stream: all blocks when nothing failed, fewer otherwise (R209, R219). -/
def stoppedAt (g : Regs) (e : Cause) : Prop := if e = .none then g.blkdone = g.count else g.blkdone.toNat < g.count.toNat

/-- A point of READ_BLOCKS (R205). -/
def RbPos.Ok (s : State) : RbPos → Prop
  | .cmd q => blocksDone s.regs 0 ∧ q.Ok s.params (dataCall (readIdx s.regs) s.regs)
  | .single q => s.regs.count = 1 ∧ blocksDone s.regs 0 ∧ q.Ok blockSize
  | .block i q => 2 ≤ s.regs.count.toNat ∧ i < s.regs.count.toNat ∧ blocksDone s.regs i ∧ q.Ok blockSize
  | .stop e q =>
    2 ≤ s.regs.count.toNat ∧ e ∈ [Cause.none, .badToken, .tokenTimeout] ∧ stoppedAt s.regs e ∧
      q.Ok s.params (stopCall s.params s.regs)

/-- A point of WRITE_BLOCKS (R215). -/
def WbPos.Ok (s : State) : WbPos → Prop
  | .cmd q => blocksDone s.regs 0 ∧ q.Ok s.params (dataCall (writeIdx s.regs) s.regs)
  | .single q => s.regs.count = 1 ∧ blocksDone s.regs 0 ∧ q.Ok
  | .lastWait c _ => s.regs.count = 1 ∧ c ∈ [Cause.none, .dataRejected] ∧ stoppedAt s.regs c
  | .block i q => 2 ≤ s.regs.count.toNat ∧ i < s.regs.count.toNat ∧ blocksDone s.regs i ∧ q.Ok
  | .stop e q =>
    2 ≤ s.regs.count.toNat ∧ e ∈ [Cause.none, .busyTimeout, .dataRejected] ∧ stoppedAt s.regs e ∧ q.Ok s.params

/-- The checks of R245 that a stream has passed once it is past its start. -/
def streamChecked (g : Regs) : Prop := g.count ≠ 0 ∧ addrOverflows g = false

/-- A point that operation `i` can stand at between two steps (R21). -/
def PosOk (i : Instr) (s : State) (p : Pos) : Prop :=
  match i, p with
  | .sendCmdR1 idx nochk, .sendCmd q => q.Ok s.params (sendCall .r1 idx nochk s.regs)
  | .sendCmdR1b idx nochk, .sendCmd q => q.Ok s.params (sendCall .r1b idx nochk s.regs)
  | .sendCmdR2 idx nochk, .sendCmd q => q.Ok s.params (sendCall .r2 idx nochk s.regs)
  | .sendCmdR3 idx nochk, .sendCmd q => q.Ok s.params (sendCall .r3 idx nochk s.regs)
  | .sendCmdR7 idx nochk, .sendCmd q => q.Ok s.params (sendCall .r7 idx nochk s.regs)
  | .waitReady, .waitReady _ => True
  | .fill, .fill more => more < s.regs.count.toNat
  | .readData, .readData q => badLength s.regs = false ∧ q.Ok s.regs.count.toNat
  | .readBlocks, .readBlocks q => streamChecked s.regs ∧ q.Ok s
  | .writeBlocks, .writeBlocks q => s.regs.wp = false ∧ streamChecked s.regs ∧ q.Ok s
  | _, _ => False

/-- SEQ and OP agree: SEQ runs the word in OP, which is legal, at a point of its operation (R21, R23). -/
def SeqOk (s : State) : Prop :=
  match s.seq with
  | .idle => True
  | .run w p => s.regs.op = w ∧ ∃ i, decode w = .op i ∧ PosOk i s p

/-- STATUS agrees with SEQ and with R241: BUSY exactly while an operation runs, and then DONE, ERR and CAUSE are 0
(R21, R26); after an operation the pair is one its word may record; before the first operation it is NONE. -/
def StatusOk (s : State) : Prop :=
  (s.regs.status.busy = true ↔ s.seq ≠ .idle) ∧
  (s.regs.status.done = true → s.regs.status.busy = false ∧
    (s.regs.status.err, s.regs.status.cause) ∈ outcomes (decode s.regs.op)) ∧
  (s.regs.status.done = false → s.regs.status.err = .none ∧ s.regs.status.cause = .none)

/-- RESP and RESPX hold a response of one of the lengths of R84, or none (R29, R30). -/
def RespOk (g : Regs) : Prop :=
  g.nresp ∈ [(0 : BitVec 3), 1, 2, 5] ∧
  (g.nresp = 0 → g.byte0 = 0xFF ∧ g.respx = 0) ∧
  (g.nresp ≠ 0 → isResponse g.byte0 = true) ∧
  (g.nresp = 1 → g.respx = 0) ∧
  (g.nresp = 2 → g.respx.toNat < 256)

/-- CRC.FRAME5 is byte 5 of CRC.CRC7, unless no frame was built since reset (R32). -/
def CrcOk (g : Regs) : Prop := g.frame5 = crcByte5 g.crc7 ∨ (g.frame5 = 0 ∧ g.crc7 = 0)

/-- The invariant of the machine: it holds at reset and every step keeps it. -/
structure State.Inv (s : State) : Prop where
  mem_wf : Memory.wf s.mem = true
  seq_ok : SeqOk s
  status_ok : StatusOk s
  resp_ok : RespOk s.regs
  crc_ok : CrcOk s.regs

/-- The block's next event is a buffer access the memory does not admit: the block has no step (R61, R243). -/
def bufferStop (s : State) : Prop := BlockTurn s ∧ ¬ accessAdmitted s

/-- The host's next statement is a register access the spec does not define (R69). -/
def registerStop (s : State) : Prop :=
  ∃ a n, regAt s.params.regBase a n = none ∧ (HostAt s (.busRead a n) ∨ ∃ v, HostAt s (.busWrite a n v))

/-- The host's next statement is its own access to a buffer address where no memory is (R61). -/
def unmappedStop (s : State) : Prop :=
  ∃ a, admits s.params a = false ∧ (HostAt s (.bufRead a) ∨ ∃ v, HostAt s (.bufWrite a v))

/-- The outcome of a step from `s`, with the condition on `s` under which the spec leaves it without a next state
(R61, R69, R243); a policy answers with its own stop (log entries 8, 9). -/
def specStop (s : State) : Out State → Prop
  | .next _ => ¬ bufferStop s ∧ ¬ registerStop s ∧ ¬ unmappedStop s
  | .fault .bufferStuck => bufferStop s ∧ s.params.memErr = .stuck
  | .refused .memErrPolicyOpen => bufferStop s ∧ s.params.memErr = .other
  | .fault .registerBusError => registerStop s ∧ s.params.busErr = .busError
  | .refused .undefinedRegisterAccess => registerStop s ∧ s.params.busErr = .refuse
  | .refused .hostBufferUnmapped => unmappedStop s
  | _ => False

end Sys2Proof.Machine
end

