-- ==== Sys2Proof/Certificates/Slice0/Obligations.lean ====
section
/-! DEFINITION. The statements for the provers. Each docstring names the rules of spec/ it formalises. -/

open Sys2Proof Sys2Proof.Machine

/-! ### Encoding -/

/-- R90, R91, R95: words written out bit by bit decode to the operations they stand for. -/
def Obligations.WrittenWordsDecode : Prop :=
  decode 0b00000000000_1_0_000_00_001100_0000_0001 = .op (.sendCmdR1 12 true) ∧
  decode 0b00000000000_0_0_001_00_111111_0000_0001 = .op (.sendCmdR1b 63 false) ∧
  decode 0b00000000000_0_0_010_00_001101_0000_0001 = .op (.sendCmdR2 13 false) ∧
  decode 0b00000000000_0_0_011_00_111010_0000_0001 = .op (.sendCmdR3 58 false) ∧
  decode 0b00000000000_1_0_100_00_001000_0000_0001 = .op (.sendCmdR7 8 true) ∧
  decode 0b00000000000_0_0_000_00_100001_0000_0010 = .op (.crc7 33) ∧
  decode 0b00000000000_0_0_000_00_000000_0000_0011 = .op .waitReady ∧
  decode 0b00000000000_0_0_000_00_000000_0000_0100 = .op .fill ∧
  decode 0b00000000000_0_0_000_00_000000_0000_0101 = .op .readData ∧
  decode 0b00000000000_0_0_000_00_000000_0000_0110 = .op .readBlocks ∧
  decode 0b00000000000_0_0_000_00_000000_0000_0111 = .op .writeBlocks

/-- R90, R95, R96: decoding the word of an operation gives the operation back, at every value of its operands, and a legal
word is the word of the operation it decodes to: each operation has exactly one word. -/
def Obligations.DecodeAndEncodeAgree : Prop :=
  (∀ i : Instr, decode (encode i) = .op i) ∧ (∀ (w : Word) (i : Instr), decode w = .op i → encode i = w)

/-- R94, R95: a word is legal exactly when it matches a row of the table under its mask, at most one row matches a
word, a legal word decodes to an operation of the row it matches, and every other word, written to OP on an idle block,
ends with ILLEGAL_OP / BAD_OP_WORD without any exchange. -/
def Obligations.LegalExactlyWhenARowMatches : Prop :=
  ∀ w : Word,
    ((∃ i, decode w = .op i) ↔ ∃ r ∈ opTable, r.matchesWord w = true) ∧
    opTable.countP (fun r => r.matchesWord w) ≤ 1 ∧
    (∀ i, decode w = .op i → rowOf i ∈ opTable ∧ (rowOf i).matchesWord w = true) ∧
    ((∀ r ∈ opTable, r.matchesWord w = false) → ∀ s : State, s.Idle →
      ∃ t, hostWrite .op w s = .next t ∧ t.Ended .illegalOp .badOpWord ∧ t.trace = s.trace)

/-- R247: which words are illegal, and all that writing one to OP on an idle block does. OP takes the whole word (R240); that
the model keeps a word's reserved bits there, although the host reads them as 0, is log entry 25 (DEDUCED). -/
def Obligations.IllegalWordEndsAtOnce : Prop :=
  ∀ w : Word,
    ((∃ why, decode w = .illegal why) ↔
      (opcOf w = 0 ∨ 8 ≤ (opcOf w).toNat) ∨ w &&& 0xFFE8C0F0 ≠ 0 ∨ (opcOf w = 1 ∧ 5 ≤ (rtOf w).toNat) ∨
        (opcOf w = 2 ∧ (rtOf w ≠ 0 ∨ nochkOf w = true)) ∨
        (3 ≤ (opcOf w).toNat ∧ (opcOf w).toNat ≤ 7 ∧ (idxOf w ≠ 0 ∨ rtOf w ≠ 0 ∨ nochkOf w = true))) ∧
    ((∃ why, decode w = .illegal why) → ∀ s : State, s.Idle →
      hostWrite .op w s = .next { s with
        regs := { s.regs with
          op := w
          status := { busy := false, done := true, ovr := false, err := .illegalOp, cause := .badOpWord }
          blkdone := 0 }
        seq := .idle }) ∧
    statusWord { busy := false, done := true, ovr := false, err := .illegalOp, cause := .badOpWord } = 0x00000A62

/-! ### CRC7 and the frame -/

/-- R111: the source's vector; of the 128 feedback constants only 0x09 meets it; the nibble-table form agrees on every
5-byte message. The conventions are the spec's own general knowledge (G1, log entry 19), the uniqueness its inference. -/
def Obligations.Crc7MeetsTheSourcesVector : Prop :=
  crc7 [0x40, 0x00, 0x00, 0x00, 0x00] = 0x4A ∧ crcByte5 0x4A = 0x95 ∧
  (∀ g : BitVec 7, crc7With g [0x40, 0x00, 0x00, 0x00, 0x00] = 0x4A ↔ g = 0x09) ∧
  (∀ m : List Byte, m.length = 5 → crc7Nibble m = crc7 m)

/-- R113: the nibble-table form gives the value of R110 for every message, and T[n] is the register after feeding the
four bits of n into a zero register with R110's loop. The spec marks R113 as its own inference (log entry 19). -/
def Obligations.NibbleTableFormIsCrc7 : Prop :=
  (∀ m : List Byte, crc7Nibble m = crc7 m) ∧
  (∀ n : BitVec 4, crcTable.getD n.toNat 0 =
    [n.getLsbD 3, n.getLsbD 2, n.getLsbD 1, n.getLsbD 0].foldl (crcBitWith 0x09) 0)

/-- R116: the properties of crc7 the spec lists, and marks as its own inference (log entry 19): zero for the empty message
and for zero bytes, linear over messages of equal length, three one-byte values. -/
def Obligations.Crc7IsLinear : Prop :=
  crc7 [] = 0 ∧ (∀ n, crc7 (List.replicate n 0x00) = 0) ∧
  (∀ a b : List Byte, a.length = b.length → crc7 (List.zipWith (· ^^^ ·) a b) = crc7 a ^^^ crc7 b) ∧
  crc7 [0x80] = 0x41 ∧ crc7 [0x01] = 0x09 ∧ crc7 [0xFF] = 0x79

/-- R81, and the bits of the 48-bit frame of R80: start bit, transmission bit, index, argument, CRC7, end bit. -/
def Obligations.FrameCarriesIndexArgumentAndCrc : Prop :=
  ∀ (idx : BitVec 6) (arg : Word), ∃ f0 f1 f2 f3 f4 f5 : Byte,
    frameBytes idx arg = [f0, f1, f2, f3, f4, f5] ∧
    f0 = 0x40 ||| idx.setWidth 8 ∧
    f1 = arg.extractLsb' 24 8 ∧ f2 = arg.extractLsb' 16 8 ∧ f3 = arg.extractLsb' 8 8 ∧ f4 = arg.extractLsb' 0 8 ∧
    f5 = ((crc7 [f0, f1, f2, f3, f4]).setWidth 8 <<< 1) ||| 1 ∧
    (let F : BitVec 48 := f0 ++ f1 ++ f2 ++ f3 ++ f4 ++ f5
     F.getLsbD 47 = false ∧ F.getLsbD 46 = true ∧ F.extractLsb' 40 6 = idx ∧ F.extractLsb' 8 32 = arg ∧
       F.extractLsb' 1 7 = crc7 [f0, f1, f2, f3, f4] ∧ F.getLsbD 0 = true)

/-- R115: CRC7 on an idle block answers the state with CRC of the frame of IDX and ARG, in one step, with no event;
RESP and RESPX are untouched, BLKDONE is 0, and nothing else changes; two of the spec's values (the second is its inference, log entry 19). -/
def Obligations.Crc7OperationCompletes : Prop :=
  (∀ (idx : BitVec 6) (s : State), s.Idle →
    exec (.crc7 idx) s = .next { s with
      regs := { s.regs with
        op := encode (.crc7 idx)
        status := { busy := false, done := true, ovr := false, err := .none, cause := .none }
        blkdone := 0
        crc7 := crc7 (frameHead idx :: argBytes s.regs.arg)
        frame5 := crcByte5 (crc7 (frameHead idx :: argBytes s.regs.arg)) }
      seq := .idle }) ∧
  frameCrc 63 0xFFFFFFFF = 0x0C ∧ crcByte5 0x0C = 0x19 ∧
  (∀ s : State, s.Idle → s.regs.arg = 0 →
    ∃ t, startOp 0x00000002 s = .next t ∧ regWord t.regs .crc = 0x0000954A)

/-! ### Accept and end -/

/-- R240: an OP write on an idle block is accepted in one step, whatever the word; the operations R240 lists complete in
that step, every other one is busy after it; no event happens in it. A busy operation then performs its events in later
steps, one event a step. OP takes the whole word, reserved bits too (log entry 25, DEDUCED), and that a step of a busy block
is exactly one event is the model's granularity (log entry 1, DEDUCED). -/
def Obligations.OpWriteIsAccepted : Prop :=
  (∀ (w : Word) (s : State), s.Idle →
    ∃ t, hostWrite .op w s = .next t ∧ t.regs.op = w ∧ t.regs.blkdone = 0 ∧ t.regs.status.ovr = false ∧
      t.trace = s.trace ∧ t.mem = s.mem ∧ t.inputs = s.inputs ∧
      (if endsAtAccept (decode w) s.regs then
        t.seq = .idle ∧ t.regs.status.busy = false ∧ t.regs.status.done = true
       else
        (∃ p, t.seq = .run w p) ∧ t.regs.status.busy = true ∧ t.regs.status.done = false ∧
          t.regs.status.err = .none ∧ t.regs.status.cause = .none)) ∧
  (∀ s t : State, s.Inv → s.regs.status.busy = true → blockStep s = .next t → ∃ e : Event, t.trace = s.trace ++ [e])

/-- R244: the step that ends an operation sets BUSY = 0, DONE = 1 and SEQ = IDLE, leaves OVR as it was (an operation
that ends in its accept has OVR cleared there), and no event of the operation follows: the block does nothing more. -/
def Obligations.EndOfOperationIsPrecise : Prop :=
  ∀ (i : Instr) (s t : State), s.Inv → exec i s = .next t → t.regs.status.busy = false →
    t.seq = .idle ∧ t.regs.status.done = true ∧
      t.regs.status.ovr = (if s.seq = .idle then false else s.regs.status.ovr) ∧ blockStep t = .next t

/-- R241: an operation records only the (ERR, CAUSE) pairs of its row, an illegal word only its own pair, and ERR = NONE
goes exactly with CAUSE = NONE. The spec marks R241 as its inference from the operation rules. -/
def Obligations.OperationRecordsOnlyItsOutcomes : Prop :=
  (∀ (i : Instr) (s t : State), s.Inv → exec i s = .next t → t.regs.status.busy = false →
    (t.regs.status.err, t.regs.status.cause) ∈ outcomes (.op i) ∧
      (t.regs.status.err = .none ↔ t.regs.status.cause = .none)) ∧
  (∀ (w : Word) (why : Illegal) (s t : State), decode w = .illegal why → startOp w s = .next t →
    t.regs.status.busy = false ∧ (t.regs.status.err, t.regs.status.cause) ∈ outcomes (.illegal why))

/-- A step runs the decoded instruction (R21, R78, R240): an OP write on an idle block runs the operation its word
decodes to on the accepted state, a step of the busy block runs the operation in SEQ, and `exec` on an idle block is
`exec` on the state that has accepted the operation's own word; around them a step only takes the turn off the schedule
and moves the host to its next statement. The schedule and the host program are the model's (log entries 2, 11, 12), and
so is that `exec` on an idle block accepts its own word (log entry 15). -/
def Obligations.StepRunsTheDecodedOperation : Prop :=
  (∀ (s : State) (nbits w : Nat) (i : Instr), decode (BitVec.ofNat 32 w) = .op i →
    step (s.withFetchWord nbits w) =
      exec i (accept (BitVec.ofNat 32 w) (setPc 1 (s.withFetchWord nbits w)))) ∧
  (∀ (s : State) (w : Word) (i : Instr), decode w = .op i → s.regs.status.busy = false → s.turns = [] →
    s.host.prog[s.host.pc]? = some (.w .op w) → step s = exec i (accept w (setPc (s.host.pc + 1) s))) ∧
  (∀ (s : State) (w : Word) (i : Instr) (ts : List Turn), decode w = .op i → s.regs.status.busy = false →
    s.turns = .host :: ts → s.host.prog[s.host.pc]? = some (.w .op w) →
    step s = exec i (accept w (setPc (s.host.pc + 1) { s with turns := ts }))) ∧
  (∀ (s : State) (w : Word) (p : Pos) (i : Instr), decode w = .op i → s.seq = .run w p →
    s.regs.status.busy = true → s.turns = [] → step s = exec i s) ∧
  (∀ (s : State) (w : Word) (p : Pos) (i : Instr) (ts : List Turn), decode w = .op i → s.seq = .run w p →
    s.turns = .block :: ts → step s = exec i { s with turns := ts }) ∧
  (∀ (i : Instr) (s : State), s.seq = .idle → exec i s = exec i (accept (encode i) s))

/-- Every operation answers a next state, on an idle block and at every point of its own pseudocode, unless its next
event is a buffer access the memory does not admit (R21, R61, R243); such an access leaves the block stuck under
`MEM_ERR_POLICY` = stuck (the parameter's values are the model's, log entry 8). -/
def Obligations.EveryOperationAnswersANextState : Prop :=
  (∀ (i : Instr) (s : State), s.Inv → (s.seq = .idle ∨ ∃ p, s.At i p) → accessAdmitted s → ∃ t, exec i s = .next t) ∧
  (∀ (i : Instr) (s : State) (p : Pos) (a : Word), s.At i p → s.Inv → (storeAddr s = some a ∨ loadAddr s = some a) →
    admits s.params a = false → s.params.memErr = .stuck → exec i s = .fault .bufferStuck)

/-! ### SEND_CMD -/

/-- R134, R140, R93: SEND_CMD on an idle block builds the frame, clears RESP and RESPX and stands before the probe, or
before the first frame byte with NOCHK = 1; no event has happened. -/
def Obligations.SendCmdStarts : Prop :=
  ∀ (rt : RespType) (idx : BitVec 6) (nochk : Bool) (s : State), s.Idle →
    exec (sendInstr rt idx nochk) s = .next { s with
      regs := { s.regs with
        op := encode (sendInstr rt idx nochk)
        status := { busy := true, done := false, ovr := false, err := .none, cause := .none }
        blkdone := 0
        crc7 := frameCrc idx s.regs.arg
        frame5 := crcByte5 (frameCrc idx s.regs.arg)
        byte0 := 0xFF
        nresp := 0
        respx := 0 }
      seq := .run (encode (sendInstr rt idx nochk)) (.sendCmd
        (if nochk then .frame (frameHead idx) (frameTail idx s.regs.arg) else .probe)) }

/-- R141 to R145: the step in which each class completes. R1: the search exchange that finds response[0]. R2, R3, R7: the
last extra byte. R1b: the busy wait's exchange that returns 0xFF. -/
def Obligations.SendCmdCompletes : Prop :=
  ∀ (idx : BitVec 6) (nochk : Bool) (s : State) (b : Byte) (card : List Byte), s.inputs.card = b :: card →
    (∀ k, s.At (.sendCmdR1 idx nochk) (.sendCmd (.search k)) → isResponse b = true →
      exec (.sendCmdR1 idx nochk) s = .next (finish (putResp 0 b 0 (s.took 0xFF b card)))) ∧
    (∀ t0, s.At (.sendCmdR1b idx nochk) (.sendCmd (.busy (.poll t0))) → b = 0xFF →
      exec (.sendCmdR1b idx nochk) s = .next (finish (s.took 0xFF b card))) ∧
    (∀ r, s.At (.sendCmdR2 idx nochk) (.sendCmd (.extra r 0 0)) →
      exec (.sendCmdR2 idx nochk) s = .next (finish (putResp 1 r (b.setWidth 32) (s.took 0xFF b card)))) ∧
    (∀ r x, s.At (.sendCmdR3 idx nochk) (.sendCmd (.extra r x 0)) →
      exec (.sendCmdR3 idx nochk) s =
        .next (finish (putResp 4 r ((x <<< 8) ||| b.setWidth 32) (s.took 0xFF b card)))) ∧
    (∀ r x, s.At (.sendCmdR7 idx nochk) (.sendCmd (.extra r x 0)) →
      exec (.sendCmdR7 idx nochk) s =
        .next (finish (putResp 4 r ((x <<< 8) ||| b.setWidth 32) (s.took 0xFF b card))))

/-- R140, NOT_READY: with NOCHK = 0 and a probe byte other than 0xFF, SEND_CMD ends RESPONSE_ERROR / NOT_READY after one
exchange: no frame byte is sent, CRC holds the frame, RESP and RESPX stay cleared. -/
def Obligations.BusyProbeEndsSendCmd : Prop :=
  ∀ (rt : RespType) (idx : BitVec 6) (s : State) (b : Byte) (card : List Byte), s.Idle →
    s.inputs.card = b :: card → b ≠ 0xFF →
      ∃ t, runOp (sendInstr rt idx false) 2 s = .next t ∧ t.Ended .responseError .notReady ∧
        t.trace = s.trace ++ [.xchg 0xFF b] ∧ t.regs.crc7 = frameCrc idx s.regs.arg ∧
        regWord t.regs .resp = 0x000000FF ∧ t.regs.respx = 0 ∧ t.mem = s.mem

/-- R135: what the card returns to a frame byte or a stuff byte is never examined: the next point does not depend on
it, and the search starts with the first exchange after them. For every command call. The spec marks R135 as its inference
from R134. -/
def Obligations.FrameAndStuffAnswersAreIgnored : Prop :=
  ∀ (c : CmdCall) (s : State) (b rx : Byte) (rest card : List Byte) (more : Nat), s.inputs.card = rx :: card →
    commandStep c (.frame b rest) s =
      (.more (match rest with
        | [] => (match c.stuff with
          | 0 => .search 0
          | n + 1 => .stuff n)
        | b' :: rest' => .frame b' rest'), s.took b rx card) ∧
    commandStep c (.stuff more) s =
      (.more (match more with
        | 0 => .search 0
        | n + 1 => .stuff n), s.took 0xFF rx card)

/-- R141, R143, R144, R145: a whole SEND_CMD R1, R2, R3 or R7: the bytes sent, the exchanges counted, RESP and RESPX.
The card answers the probe with 0xFF, the frame with anything, then `noise` without a response byte, response[0] = r,
and the extra bytes `xs`. When R7 (the interface condition of R145) gets no response, SEND_CMD ends TIMEOUT /
RESP_NOT_FOUND. -/
def Obligations.SendCmdCollectsItsResponse : Prop :=
  (∀ (rt : RespType) (idx : BitVec 6) (nochk : Bool) (s : State) (frx noise xs card : List Byte) (r : Byte),
    s.Idle → rt ≠ .r1b → frx.length = 6 → noise.length < s.params.respPollMax.toNat →
    (∀ b ∈ noise, isResponse b = false) → isResponse r = true → xs.length = nextra rt →
    s.inputs.card = (if nochk then [] else [0xFF]) ++ frx ++ noise ++ [r] ++ xs ++ card →
      ∃ t, runOp (sendInstr rt idx nochk) (1 + (if nochk then 0 else 1) + 6 + noise.length + 1 + xs.length) s =
          .next t ∧
        t.Ended .none .none ∧ t.inputs.card = card ∧ t.mem = s.mem ∧
        t.trace = s.trace ++ exchanges
          ((if nochk then [] else [0xFF]) ++ frameBytes idx s.regs.arg ++
            List.replicate (noise.length + 1 + xs.length) 0xFF)
          ((if nochk then [] else [0xFF]) ++ frx ++ noise ++ [r] ++ xs) ∧
        regWord t.regs .resp = (BitVec.ofNat 32 (1 + nextra rt) <<< 8) ||| r.setWidth 32 ∧
        t.regs.respx.toNat = xs.foldl (fun n b => 256 * n + b.toNat) 0) ∧
  (∀ (idx : BitVec 6) (nochk : Bool) (s : State) (frx quiet card : List Byte),
    s.Idle → frx.length = 6 → quiet.length = s.params.respPollMax.toNat → (∀ b ∈ quiet, isResponse b = false) →
    s.inputs.card = (if nochk then [] else [0xFF]) ++ frx ++ quiet ++ card →
      ∃ t, runOp (.sendCmdR7 idx nochk) (1 + (if nochk then 0 else 1) + 6 + quiet.length) s = .next t ∧
        t.Ended .timeout .respNotFound)

/-- R142: a whole SEND_CMD R1b: after response[0] the bus-ready wait of R131 with TMO_CMD. Busy bytes, then 0xFF before the
deadline: success. Busy bytes until a reading reaches the deadline: TIMEOUT / BUSY_TIMEOUT. RESP holds the R1 in both.
The busy wait does not start when no response was found. -/
def Obligations.SendCmdR1bWaitsForBusReady : Prop :=
  ∀ (idx : BitVec 6) (nochk : Bool) (s : State) (frx noise busy card : List Byte) (r : Byte) (t0 : Word)
      (ts clock : List Word),
    s.Idle → frx.length = 6 → noise.length < s.params.respPollMax.toNat →
    (∀ b ∈ noise, isResponse b = false) → isResponse r = true → (∀ b ∈ busy, b ≠ 0xFF) →
    busy.length = ts.length → (∀ t ∈ ts, deadlinePassed s.regs.tmoCmd t0 t = false) →
    (s.inputs.card = (if nochk then [] else [0xFF]) ++ frx ++ noise ++ [r] ++ busy ++ [0xFF] ++ card →
      s.inputs.clock = t0 :: ts ++ clock →
        ∃ t, runOp (.sendCmdR1b idx nochk)
            (1 + (if nochk then 0 else 1) + 6 + noise.length + 1 + 1 + 2 * busy.length + 1) s = .next t ∧
          t.Ended .none .none ∧ regWord t.regs .resp = 0x00000100 ||| r.setWidth 32 ∧ t.regs.respx = 0) ∧
    (∀ (b : Byte) (u : Word), b ≠ 0xFF → deadlinePassed s.regs.tmoCmd t0 u = true →
      s.inputs.card = (if nochk then [] else [0xFF]) ++ frx ++ noise ++ [r] ++ busy ++ [b] ++ card →
      s.inputs.clock = t0 :: ts ++ [u] ++ clock →
        ∃ t, runOp (.sendCmdR1b idx nochk)
            (1 + (if nochk then 0 else 1) + 6 + noise.length + 1 + 1 + 2 * busy.length + 2) s = .next t ∧
          t.Ended .timeout .busyTimeout ∧ regWord t.regs .resp = 0x00000100 ||| r.setWidth 32 ∧ t.regs.respx = 0) ∧
    (∀ quiet, quiet.length = s.params.respPollMax.toNat → (∀ b ∈ quiet, isResponse b = false) →
      s.inputs.card = (if nochk then [] else [0xFF]) ++ frx ++ quiet ++ card →
        ∃ t, runOp (.sendCmdR1b idx nochk) (1 + (if nochk then 0 else 1) + 6 + quiet.length) s = .next t ∧
          t.Ended .timeout .respNotFound ∧ t.inputs.clock = s.inputs.clock)

/-- R132, R140, RESP_NOT_FOUND: when none of `RESP_POLL_MAX` search exchanges returns a byte with bit 7 clear, SEND_CMD of
every class ends TIMEOUT / RESP_NOT_FOUND with RESP = 0x000000FF and RESPX = 0, after exactly that many. -/
def Obligations.NoResponseEndsSendCmd : Prop :=
  ∀ (rt : RespType) (idx : BitVec 6) (nochk : Bool) (s : State) (frx noise card : List Byte),
    s.Idle → frx.length = 6 → noise.length = s.params.respPollMax.toNat → (∀ b ∈ noise, isResponse b = false) →
    s.inputs.card = (if nochk then [] else [0xFF]) ++ frx ++ noise ++ card →
      ∃ t, runOp (sendInstr rt idx nochk) (1 + (if nochk then 0 else 1) + 6 + noise.length) s = .next t ∧
        t.Ended .timeout .respNotFound ∧ t.inputs.card = card ∧ t.inputs.clock = s.inputs.clock ∧
        regWord t.regs .resp = 0x000000FF ∧ t.regs.respx = 0

/-! ### WAIT_READY and FILL -/

/-- R150, R131: WAIT_READY reads the time once, then exchanges 0xFF until a 0xFF comes back, reading the time after each
busy byte; it ends ready on the first 0xFF, and TIMEOUT / BUSY_TIMEOUT when a reading reaches TMO_CMD after a busy byte;
STATUS (with OP and BLKDONE, by the accept) is all it writes. -/
def Obligations.WaitReadyPollsUntilReadyOrDeadline : Prop :=
  ∀ (s : State) (busy card : List Byte) (t0 : Word) (ts clock : List Word), s.Idle → (∀ b ∈ busy, b ≠ 0xFF) →
    busy.length = ts.length → (∀ t ∈ ts, deadlinePassed s.regs.tmoCmd t0 t = false) →
    (s.inputs.card = busy ++ [0xFF] ++ card → s.inputs.clock = t0 :: ts ++ clock →
      runOp .waitReady (1 + 1 + 2 * busy.length + 1) s = .next { s with
        regs := { s.regs with
          op := 0x00000003
          status := { busy := false, done := true, ovr := false, err := .none, cause := .none }
          blkdone := 0 }
        seq := .idle
        trace := s.trace ++ [.now t0] ++
          (List.zipWith (fun b t => [Event.xchg 0xFF b, .now t]) busy ts).flatten ++ [.xchg 0xFF 0xFF]
        inputs := { s.inputs with card := card, clock := clock } }) ∧
    (∀ (b : Byte) (u : Word), b ≠ 0xFF → deadlinePassed s.regs.tmoCmd t0 u = true →
      s.inputs.card = busy ++ [b] ++ card → s.inputs.clock = t0 :: ts ++ [u] ++ clock →
      runOp .waitReady (1 + 1 + 2 * busy.length + 2) s = .next { s with
        regs := { s.regs with
          op := 0x00000003
          status := { busy := false, done := true, ovr := false, err := .timeout, cause := .busyTimeout }
          blkdone := 0 }
        seq := .idle
        trace := s.trace ++ [.now t0] ++
          (List.zipWith (fun b t => [Event.xchg 0xFF b, .now t]) busy ts).flatten ++ [.xchg 0xFF b, .now u]
        inputs := { s.inputs with card := card, clock := clock } })

/-- R131: a deadline test is on the unsigned difference modulo 2^32, so a wrap of the time input does not end a wait
early, and with T = 0 a wait performs exactly one exchange and, if that byte is busy, one more reading, then returns
false. -/
def Obligations.DeadlineTestToleratesWrap : Prop :=
  (∀ T t0 : Word, ∀ d : Nat, d < 2 ^ 32 → (deadlinePassed T t0 (t0 + BitVec.ofNat 32 d) = true ↔ T.toNat ≤ d)) ∧
  (∀ (s : State) (t0 u : Word) (b : Byte) (card : List Byte) (clock : List Word), b ≠ 0xFF →
    s.inputs.card = b :: card → s.inputs.clock = u :: clock →
      waitReadyStep 0 (.poll t0) s = (.more (.test t0), s.took 0xFF b card) ∧
      waitReadyStep 0 (.test t0) (s.took 0xFF b card) = (.ret false, (s.took 0xFF b card).timed u clock))

/-- R16, R243: whatever bytes the card returns, SEND_CMD of a class without a busy wait ends within a fixed number of
steps, and WAIT_READY ends once some reading reaches the deadline. The R1b wait, the token waits and the block
operations are not spoken of here. -/
def Obligations.SendCmdAndWaitReadyEnd : Prop :=
  (∀ (rt : RespType) (idx : BitVec 6) (nochk : Bool) (s : State), s.Idle → rt ≠ .r1b →
    ∃ t, runOp (sendInstr rt idx nochk) (12 + s.params.respPollMax.toNat) s = .next t ∧ t.seq = .idle ∧
      t.regs.status.done = true) ∧
  (∀ (s : State) (t0 u : Word) (ts clock : List Word), s.Idle → s.inputs.clock = t0 :: ts ++ [u] ++ clock →
    deadlinePassed s.regs.tmoCmd t0 u = true →
      ∃ t, runOp .waitReady (2 * ts.length + 4) s = .next t ∧ t.seq = .idle ∧ t.regs.status.done = true)

/-- R155: FILL exchanges COUNT filler bytes, ignores what comes back, and ends with ERR NONE, whatever the card returns;
with COUNT = 0 it completes in the step of the OP write. STATUS (with OP and BLKDONE, by the accept) is all it writes. -/
def Obligations.FillClocksCountFillerBytes : Prop :=
  ∀ s : State, s.Idle → ∃ (t : State) (rx : List Byte), runOp .fill (1 + s.regs.count.toNat) s = .next t ∧
    rx.length = s.regs.count.toNat ∧ t.trace = s.trace ++ rx.map (Event.xchg 0xFF) ∧ t.mem = s.mem ∧
    t.seq = .idle ∧
    t.regs = { s.regs with
      op := 0x00000004
      status := { busy := false, done := true, ovr := false, err := .none, cause := .none }
      blkdone := 0 }

/-- The steps in which WAIT_READY, FILL and READ_DATA complete: a 0xFF in the wait (R150), the last filler byte (R155),
the second CRC byte of the packet (R180), whatever byte it is (R176). -/
def Obligations.WaitFillAndReadDataComplete : Prop :=
  ∀ (s : State) (b : Byte) (card : List Byte), s.inputs.card = b :: card →
    (∀ t0, s.At .waitReady (.waitReady (.poll t0)) → b = 0xFF →
      exec .waitReady s = .next (finish (s.took 0xFF b card))) ∧
    (s.At .fill (.fill 0) → exec .fill s = .next (finish (s.took 0xFF b card))) ∧
    (s.At .readData (.readData .crc2) → exec .readData s = .next (finish (s.took 0xFF b card)))

/-! ### READ_DATA and the start token -/

/-- R180: READ_DATA with COUNT outside 1..512 ends ILLEGAL_OP / BAD_LENGTH in the step of the OP write, with no event; with
COUNT inside it stands before the token wait. -/
def Obligations.ReadDataChecksItsLength : Prop :=
  ∀ s : State, s.Idle →
    exec .readData s = .next { s with
      regs := { s.regs with
        op := 0x00000005
        status :=
          if 1 ≤ s.regs.count.toNat ∧ s.regs.count.toNat ≤ 512 then
            { busy := true, done := false, ovr := false, err := .none, cause := .none }
          else { busy := false, done := true, ovr := false, err := .illegalOp, cause := .badLength }
        blkdone := 0 }
      seq :=
        if 1 ≤ s.regs.count.toNat ∧ s.regs.count.toNat ≤ 512 then .run 0x00000005 (.readData (.token .start))
        else .idle }

/-- R170, R171: a token wait reads the time once and then exchanges filler; 0xFE ends the wait with success, 0xFF goes on
unless the deadline has passed, any other byte ends it at once with BAD_TOKEN; the deadline is tested only after a filler
byte, with T = 0 after the first one. -/
def Obligations.StartTokenIsClassified : Prop :=
  ∀ (T t0 : Word) (s : State) (b : Byte) (card : List Byte), s.inputs.card = b :: card →
    (b = 0xFE → waitTokenStep T (.poll t0) s = (.ret .none, s.took 0xFF b card)) ∧
    (b = 0xFF → waitTokenStep T (.poll t0) s = (.more (.test t0), s.took 0xFF b card)) ∧
    (b ≠ 0xFE → b ≠ 0xFF → waitTokenStep T (.poll t0) s = (.ret .badToken, s.took 0xFF b card)) ∧
    (∀ u clock, s.inputs.clock = u :: clock →
      waitTokenStep T .start s = (.more (.poll u), s.timed u clock) ∧
      waitTokenStep T (.test t0) s =
        (if T.toNat ≤ (u - t0).toNat then .ret .tokenTimeout else .more (.poll t0), s.timed u clock) ∧
      waitTokenStep 0 (.test t0) s = (.ret .tokenTimeout, s.timed u clock))

/-- R174, for the packets of READ_DATA and of the single-block and multi-block READ_BLOCKS: a packet whose token wait fails
writes no buffer byte, and its last event is the wait's own. READ_DATA and the single-block read then end READ_FAILED with
the cause; a stream goes on with its CMD12 and the cause recorded (R207). Once the start token is seen the packet always
completes, whatever bytes the card returns, where the memory admits its bytes (R61); the spec marks that sentence of R174 as
its inference from R172. -/
def Obligations.ReadPacketFailsOnlyOnItsToken : Prop :=
  ∀ s : State, s.Inv →
    (∀ q t c, (waitTokenStep s.regs.tmoToken q s).1 = .ret c → c ≠ .none →
      (s.At .readData (.readData (.token q)) → exec .readData s = .next t →
        t.Ended .readFailed c ∧ t.mem = s.mem ∧ t.trace = (waitTokenStep s.regs.tmoToken q s).2.trace ∧
          blockStep t = .next t) ∧
      (s.At .readBlocks (.readBlocks (.single (.token q))) → exec .readBlocks s = .next t →
        t.Ended .readFailed c ∧ t.mem = s.mem ∧ t.trace = (waitTokenStep s.regs.tmoToken q s).2.trace ∧
          blockStep t = .next t) ∧
      (∀ i, s.At .readBlocks (.readBlocks (.block i (.token q))) → exec .readBlocks s = .next t →
        (∃ f rest, t.At .readBlocks (.readBlocks (.stop c (.frame f rest)))) ∧ t.mem = s.mem ∧
          t.trace = (waitTokenStep s.regs.tmoToken q s).2.trace ∧ t.regs.blkdone = s.regs.blkdone)) ∧
    (s.At .readData (.readData (.recv 0)) →
      (∀ j < s.regs.count.toNat, admits s.params (byteAddr s.regs.bufaddr j) = true) →
      ∃ t, runOp .readData (2 * s.regs.count.toNat + 2) s = .next t ∧ t.Ended .none .none) ∧
    (s.At .readBlocks (.readBlocks (.single (.recv 0))) →
      (∀ j < 512, admits s.params (byteAddr s.regs.bufaddr j) = true) →
      ∃ t, runOp .readBlocks (2 * 512 + 2) s = .next t ∧ t.Ended .none .none ∧ t.regs.blkdone = 1) ∧
    (∀ i, s.At .readBlocks (.readBlocks (.block i (.recv 0))) →
      (∀ j < 512, admits s.params (s.regs.bufaddr + BitVec.ofNat 32 (512 * i) + BitVec.ofNat 32 j) = true) →
      ∃ t, runOp .readBlocks (2 * 512 + 2) s = .next t ∧ t.regs.blkdone = BitVec.ofNat 32 (i + 1) ∧
        (if i + 1 < s.regs.count.toNat then t.At .readBlocks (.readBlocks (.block (i + 1) (.token .start)))
         else ∃ f rest, t.At .readBlocks (.readBlocks (.stop .none (.frame f rest)))))

/-- R172, R173, R180: a whole READ_DATA: filler, the start token, COUNT payload bytes stored in the order received at
BUFADDR + j modulo 2^32, two CRC bytes dropped; exactly those bytes of memory change; RESP, RESPX and CRC do not. -/
def Obligations.ReadDataStoresThePayload : Prop :=
  ∀ (s : State) (wait payload card : List Byte) (c1 c2 : Byte) (t0 : Word) (ts clock : List Word),
    s.Idle → Memory.wf s.mem = true → payload.length = s.regs.count.toNat → 1 ≤ payload.length → payload.length ≤ 512 →
    (∀ b ∈ wait, b = 0xFF) → wait.length = ts.length →
    (∀ t ∈ ts, deadlinePassed s.regs.tmoToken t0 t = false) →
    (∀ j < payload.length, admits s.params (byteAddr s.regs.bufaddr j) = true) →
    s.inputs.card = wait ++ [0xFE] ++ payload ++ [c1, c2] ++ card → s.inputs.clock = t0 :: ts ++ clock →
      ∃ t, runOp .readData (1 + 1 + 2 * wait.length + 1 + 2 * payload.length + 2) s = .next t ∧
        t.Ended .none .none ∧ t.inputs.card = card ∧
        (∀ j, (h : j < payload.length) → Memory.read t.mem (byteAddr s.regs.bufaddr j).toNat = payload[j]) ∧
        (∀ a, (∀ j < payload.length, a ≠ (byteAddr s.regs.bufaddr j).toNat) →
          Memory.read t.mem a = Memory.read s.mem a) ∧
        sameResp s.regs t.regs ∧ sameCrc s.regs t.regs

/-! ### READ_BLOCKS and WRITE_BLOCKS: before the data phase -/

/-- R204, R245, R216: the checks a block operation makes before any event, in their order: the write-protect gate for
every COUNT, COUNT = 0 is success, then the address overflow; the outcome of each, with no event. The order is that of
the pseudocode of R205 and R215; R245, which says it once more, is marked by the spec as its inference from them. -/
def Obligations.BlockOperationsCheckBeforeAnyEvent : Prop :=
  ∀ s : State, s.Idle →
    (∃ t, exec .readBlocks s = .next t ∧ t.trace = s.trace ∧ t.mem = s.mem ∧
      (s.regs.count = 0 → t.Ended .none .none) ∧
      (s.regs.count ≠ 0 → s.regs.hc = false → 2 ^ 23 ≤ s.regs.arg.toNat → t.Ended .readFailed .addrOverflow) ∧
      (s.regs.count ≠ 0 → (s.regs.hc = true ∨ s.regs.arg.toNat < 2 ^ 23) →
        t.At .readBlocks (.readBlocks (.cmd (.ready .start))))) ∧
    (∃ t, exec .writeBlocks s = .next t ∧ t.trace = s.trace ∧ t.mem = s.mem ∧
      (s.regs.wp = true → t.Ended .writeProtected .wpSet) ∧
      (s.regs.wp = false → s.regs.count = 0 → t.Ended .none .none) ∧
      (s.regs.wp = false → s.regs.count ≠ 0 → s.regs.hc = false → 2 ^ 23 ≤ s.regs.arg.toNat →
        t.Ended .writeFailed .addrOverflow) ∧
      (s.regs.wp = false → s.regs.count ≠ 0 → (s.regs.hc = true ∨ s.regs.arg.toNat < 2 ^ 23) →
        t.At .writeBlocks (.writeBlocks (.cmd (.ready .start)))))

/-- R201, R202, R204: when the wait before the data command finds the bus ready, the command framed is CMD17 or CMD18 (CMD24
or CMD25 for a write), without a probe, with the card address: ARG when CFG.HC = 1, ARG × 512 when CFG.HC = 0, exact
because ARG < 2^23. When the wait expires, the operation ends NOT_READY and no frame is built or sent. -/
def Obligations.DataCommandCarriesTheCardAddress : Prop :=
  (∀ (s : State) (t0 : Word) (card : List Byte) (a : Word), s.Inv → s.inputs.card = 0xFF :: card →
    a.toNat = (if s.regs.hc then s.regs.arg.toNat else 512 * s.regs.arg.toNat) →
    (s.At .readBlocks (.readBlocks (.cmd (.ready (.poll t0)))) →
      ∃ t, exec .readBlocks s = .next t ∧ t.trace = s.trace ++ [.xchg 0xFF 0xFF] ∧
        (let idx : BitVec 6 := if s.regs.count = 1 then 17 else 18
         t.At .readBlocks (.readBlocks (.cmd (.cmd (.frame (frameHead idx) (frameTail idx a))))) ∧
           t.regs.crc7 = frameCrc idx a)) ∧
    (s.At .writeBlocks (.writeBlocks (.cmd (.ready (.poll t0)))) →
      ∃ t, exec .writeBlocks s = .next t ∧ t.trace = s.trace ++ [.xchg 0xFF 0xFF] ∧
        (let idx : BitVec 6 := if s.regs.count = 1 then 24 else 25
         t.At .writeBlocks (.writeBlocks (.cmd (.cmd (.frame (frameHead idx) (frameTail idx a))))) ∧
           t.regs.crc7 = frameCrc idx a))) ∧
  (∀ (s : State) (t0 u : Word) (clock : List Word), s.inputs.clock = u :: clock →
    deadlinePassed s.regs.tmoBusy t0 u = true →
    (s.At .readBlocks (.readBlocks (.cmd (.ready (.test t0)))) →
      exec .readBlocks s = .next (endOp .readFailed .notReady (s.timed u clock))) ∧
    (s.At .writeBlocks (.writeBlocks (.cmd (.ready (.test t0)))) →
      exec .writeBlocks s = .next (endOp .writeFailed .notReady (s.timed u clock))))

/-- R203: a data command succeeds only with R1 = 0x00; any other R1 with bit 7 clear ends the operation with R1_ERROR before
any data phase, RESP holding the R1. -/
def Obligations.DataCommandNeedsR1Zero : Prop :=
  ∀ (s : State) (k : Nat) (r : Byte) (card : List Byte), s.inputs.card = r :: card → isResponse r = true →
    (s.At .readBlocks (.readBlocks (.cmd (.cmd (.search k)))) →
      (r ≠ 0x00 → exec .readBlocks s = .next (endOp .readFailed .r1Error (putResp 0 r 0 (s.took 0xFF r card)))) ∧
      (r = 0x00 → s.regs.count = 1 → exec .readBlocks s =
        .next ((putResp 0 r 0 (s.took 0xFF r card)).goes .readBlocks (.readBlocks (.single (.token .start))))) ∧
      (r = 0x00 → 2 ≤ s.regs.count.toNat → exec .readBlocks s =
        .next ((putResp 0 r 0 (s.took 0xFF r card)).goes .readBlocks (.readBlocks (.block 0 (.token .start)))))) ∧
    (s.At .writeBlocks (.writeBlocks (.cmd (.cmd (.search k)))) →
      (r ≠ 0x00 → exec .writeBlocks s = .next (endOp .writeFailed .r1Error (putResp 0 r 0 (s.took 0xFF r card)))) ∧
      (r = 0x00 → s.regs.count = 1 → exec .writeBlocks s =
        .next ((putResp 0 r 0 (s.took 0xFF r card)).goes .writeBlocks (.writeBlocks (.single (.ready .start))))) ∧
      (r = 0x00 → 2 ≤ s.regs.count.toNat → exec .writeBlocks s =
        .next ((putResp 0 r 0 (s.took 0xFF r card)).goes .writeBlocks (.writeBlocks (.block 0 (.ready .start))))))

/-! ### READ_BLOCKS: the data phase -/

/-- R172, R173, R204: the step that stores a payload byte, in each form of a read packet: the byte received lands at
`base + j` modulo 2^32, the event is recorded, no other byte of memory changes, and the next byte is awaited, or the CRC
bytes after the last. -/
def Obligations.ReceivedByteIsStored : Prop :=
  ∀ (s : State) (j : Nat) (b : Byte), Memory.wf s.mem = true → j < 512 →
    (∀ a, a = byteAddr s.regs.bufaddr j → admits s.params a = true → j < s.regs.count.toNat →
      s.At .readData (.readData (.store j b)) →
      ∃ t, exec .readData s = .next t ∧ t.trace = s.trace ++ [.memWrite a b] ∧ Memory.read t.mem a.toNat = b ∧
        (∀ x, x ≠ a.toNat → Memory.read t.mem x = Memory.read s.mem x) ∧
        t.At .readData (.readData (if j + 1 < s.regs.count.toNat then .recv (j + 1) else .crc1))) ∧
    (∀ a, a = byteAddr s.regs.bufaddr j → admits s.params a = true →
      s.At .readBlocks (.readBlocks (.single (.store j b))) →
      ∃ t, exec .readBlocks s = .next t ∧ t.trace = s.trace ++ [.memWrite a b] ∧ Memory.read t.mem a.toNat = b ∧
        (∀ x, x ≠ a.toNat → Memory.read t.mem x = Memory.read s.mem x) ∧
        t.At .readBlocks (.readBlocks (.single (if j = 511 then .crc1 else .recv (j + 1))))) ∧
    (∀ i a, a = s.regs.bufaddr + BitVec.ofNat 32 (512 * i) + BitVec.ofNat 32 j → admits s.params a = true →
      s.At .readBlocks (.readBlocks (.block i (.store j b))) →
      ∃ t, exec .readBlocks s = .next t ∧ t.trace = s.trace ++ [.memWrite a b] ∧ Memory.read t.mem a.toNat = b ∧
        (∀ x, x ≠ a.toNat → Memory.read t.mem x = Memory.read s.mem x) ∧
        t.At .readBlocks (.readBlocks (.block i (if j = 511 then .crc1 else .recv (j + 1)))))

/-- R206: the single-block read completes with its second CRC byte, BLKDONE = 1 and no CMD12; on a token failure it ends
READ_FAILED with the cause, no buffer byte is written and BLKDONE stays 0. -/
def Obligations.SingleBlockReadCompletes : Prop :=
  ∀ (s : State) (b : Byte) (card : List Byte), s.inputs.card = b :: card →
    (s.At .readBlocks (.readBlocks (.single .crc2)) →
      exec .readBlocks s = .next (finish (setBlkdone 1 (s.took 0xFF b card)))) ∧
    (∀ t0, s.At .readBlocks (.readBlocks (.single (.token (.poll t0)))) → b ≠ 0xFE → b ≠ 0xFF →
      exec .readBlocks s = .next (endOp .readFailed .badToken (s.took 0xFF b card))) ∧
    (∀ t0 u clock, s.At .readBlocks (.readBlocks (.single (.token (.test t0)))) → s.inputs.clock = u :: clock →
      deadlinePassed s.regs.tmoToken t0 u = true →
      exec .readBlocks s = .next (endOp .readFailed .tokenTimeout (s.timed u clock)))

/-- R207, R208: in a multi-block read CMD12 is framed, with argument 0 and no probe, after the last block and after a
block that failed, with the failure recorded; a block that completes before the last sets BLKDONE and the next token
wait starts. The argument 0 of CMD12 is the spec's general knowledge (G2, log entry 20), and so are the conventions that
give its CRC byte 0x61 (G1, log entry 19). -/
def Obligations.MultiBlockReadAlwaysSendsCmd12 : Prop :=
  ∀ (s : State) (i : Nat) (b : Byte) (card : List Byte), s.inputs.card = b :: card → i < s.regs.count.toNat →
    (s.At .readBlocks (.readBlocks (.block i .crc2)) → i + 1 < s.regs.count.toNat →
      exec .readBlocks s = .next ((setBlkdone (i + 1) (s.took 0xFF b card)).goes .readBlocks
        (.readBlocks (.block (i + 1) (.token .start))))) ∧
    (s.At .readBlocks (.readBlocks (.block i .crc2)) → i + 1 = s.regs.count.toNat →
      exec .readBlocks s = .next ((clearResp (buildFrame 12 0 (setBlkdone (i + 1) (s.took 0xFF b card)))).goes
        .readBlocks (.readBlocks (.stop .none (.frame 0x4C [0x00, 0x00, 0x00, 0x00, 0x61]))))) ∧
    (∀ t0, s.At .readBlocks (.readBlocks (.block i (.token (.poll t0)))) → b ≠ 0xFE → b ≠ 0xFF →
      exec .readBlocks s = .next ((clearResp (buildFrame 12 0 (s.took 0xFF b card))).goes .readBlocks
        (.readBlocks (.stop .badToken (.frame 0x4C [0x00, 0x00, 0x00, 0x00, 0x61]))))) ∧
    (∀ t0 u clock, s.At .readBlocks (.readBlocks (.block i (.token (.test t0)))) → s.inputs.clock = u :: clock →
      deadlinePassed s.regs.tmoToken t0 u = true →
      exec .readBlocks s = .next ((clearResp (buildFrame 12 0 (s.timed u clock))).goes .readBlocks
        (.readBlocks (.stop .tokenTimeout (.frame 0x4C [0x00, 0x00, 0x00, 0x00, 0x61])))))

/-- R209, R219: the first failure of a stream is reported: whatever step ends its CMD12 or its stop sequence, a cause
recorded before it is reported, and the clean-up's own failure only when every block succeeded; BLKDONE stays the number
of blocks completed, and memory is untouched. -/
def Obligations.FirstErrorWinsInAStream : Prop :=
  (∀ (s t : State) (e : Cause) (q : CmdPos), s.Inv → s.At .readBlocks (.readBlocks (.stop e q)) →
    exec .readBlocks s = .next t → t.regs.status.busy = false →
      t.regs.blkdone = s.regs.blkdone ∧ t.mem = s.mem ∧
      (e ≠ .none → t.Ended .readFailed e ∧ t.regs.blkdone.toNat < s.regs.count.toNat) ∧
      (e = .none → t.regs.blkdone = s.regs.count ∧
        (t.Ended .none .none ∨ t.Ended .readFailed .respNotFound ∨ t.Ended .readFailed .busyTimeout))) ∧
  (∀ (s t : State) (e : Cause) (q : StopPos), s.Inv → s.At .writeBlocks (.writeBlocks (.stop e q)) →
    exec .writeBlocks s = .next t → t.regs.status.busy = false →
      t.regs.blkdone = s.regs.blkdone ∧ t.mem = s.mem ∧
      (e ≠ .none → t.Ended .writeFailed e ∧ t.regs.blkdone.toNat < s.regs.count.toNat) ∧
      (e = .none → t.regs.blkdone = s.regs.count ∧ (t.Ended .none .none ∨ t.Ended .writeFailed .busyTimeout)))

/-! ### WRITE_BLOCKS: the data phase -/

/-- R177, R204: the steps of a write packet in which bytes leave the buffer: the start token (0xFE single, 0xFC multi), the
buffer read of payload byte j and the exchange that sends the byte read; memory is not written. -/
def Obligations.PayloadIsReadAndSent : Prop :=
  ∀ (s : State) (j : Nat) (v rx : Byte) (card : List Byte), s.inputs.card = rx :: card → j < 512 →
    (s.At .writeBlocks (.writeBlocks (.single .token)) →
      exec .writeBlocks s = .next ((s.took 0xFE rx card).goes .writeBlocks (.writeBlocks (.single (.fetch 0))))) ∧
    (∀ i, s.At .writeBlocks (.writeBlocks (.block i .token)) →
      exec .writeBlocks s = .next ((s.took 0xFC rx card).goes .writeBlocks (.writeBlocks (.block i (.fetch 0))))) ∧
    (∀ a, a = byteAddr s.regs.bufaddr j → admits s.params a = true →
      s.At .writeBlocks (.writeBlocks (.single (.fetch j))) →
      exec .writeBlocks s = .next ((logEvent (.memRead a (Memory.read s.mem a.toNat)) s).goes .writeBlocks
        (.writeBlocks (.single (.send j (Memory.read s.mem a.toNat)))))) ∧
    (∀ i a, a = s.regs.bufaddr + BitVec.ofNat 32 (512 * i) + BitVec.ofNat 32 j → admits s.params a = true →
      s.At .writeBlocks (.writeBlocks (.block i (.fetch j))) →
      exec .writeBlocks s = .next ((logEvent (.memRead a (Memory.read s.mem a.toNat)) s).goes .writeBlocks
        (.writeBlocks (.block i (.send j (Memory.read s.mem a.toNat)))))) ∧
    (s.At .writeBlocks (.writeBlocks (.single (.send j v))) →
      exec .writeBlocks s = .next ((s.took v rx card).goes .writeBlocks
        (.writeBlocks (.single (if j = 511 then .crc1 else .fetch (j + 1)))))) ∧
    (∀ i, s.At .writeBlocks (.writeBlocks (.block i (.send j v))) →
      exec .writeBlocks s = .next ((s.took v rx card).goes .writeBlocks
        (.writeBlocks (.block i (if j = 511 then .crc1 else .fetch (j + 1))))))

/-- R178: the data-response token is the byte of the exchange right after the second CRC byte; the packet is accepted
exactly when its low five bits are 0b00101. The single form then waits once more; a multi-block packet that is accepted
counts and is followed by the next packet or the stop sequence, one that is rejected by the stop sequence. That no filler is
skipped before the token is the spec's inference from R177. -/
def Obligations.DataResponseDecidesThePacket : Prop :=
  ∀ (s : State) (d : Byte) (card : List Byte), s.inputs.card = d :: card →
    (s.At .writeBlocks (.writeBlocks (.single .crc2)) →
      exec .writeBlocks s = .next ((s.took 0xFF d card).goes .writeBlocks (.writeBlocks (.single .resp)))) ∧
    (s.At .writeBlocks (.writeBlocks (.single .resp)) → d.toNat % 32 = 5 →
      exec .writeBlocks s = .next ((setBlkdone 1 (s.took 0xFF d card)).goes .writeBlocks
        (.writeBlocks (.lastWait .none .start)))) ∧
    (s.At .writeBlocks (.writeBlocks (.single .resp)) → d.toNat % 32 ≠ 5 →
      exec .writeBlocks s = .next ((s.took 0xFF d card).goes .writeBlocks
        (.writeBlocks (.lastWait .dataRejected .start)))) ∧
    (∀ i, s.At .writeBlocks (.writeBlocks (.block i .crc2)) →
      exec .writeBlocks s = .next ((s.took 0xFF d card).goes .writeBlocks (.writeBlocks (.block i .resp)))) ∧
    (∀ i, s.At .writeBlocks (.writeBlocks (.block i .resp)) → d.toNat % 32 = 5 → i + 1 < s.regs.count.toNat →
      exec .writeBlocks s = .next ((setBlkdone (i + 1) (s.took 0xFF d card)).goes .writeBlocks
        (.writeBlocks (.block (i + 1) (.ready .start))))) ∧
    (∀ i, s.At .writeBlocks (.writeBlocks (.block i .resp)) → d.toNat % 32 = 5 → i + 1 = s.regs.count.toNat →
      exec .writeBlocks s = .next ((setBlkdone (i + 1) (s.took 0xFF d card)).goes .writeBlocks
        (.writeBlocks (.stop .none (.ready1 .start))))) ∧
    (∀ i, s.At .writeBlocks (.writeBlocks (.block i .resp)) → d.toNat % 32 ≠ 5 →
      exec .writeBlocks s = .next ((s.took 0xFF d card).goes .writeBlocks
        (.writeBlocks (.stop .dataRejected (.ready1 .start)))))

/-- R215, R217: a packet of the single form whose wait expires ends the operation with no token sent; the final wait ends
it: with success when the packet was accepted and the bus came ready, DATA_REJECTED over a busy timeout. -/
def Obligations.SingleBlockWriteCompletes : Prop :=
  ∀ (s : State) (t0 : Word),
    (∀ u clock, s.inputs.clock = u :: clock → deadlinePassed s.regs.tmoBusy t0 u = true →
      s.At .writeBlocks (.writeBlocks (.single (.ready (.test t0)))) →
      exec .writeBlocks s = .next (endOp .writeFailed .busyTimeout (s.timed u clock))) ∧
    (∀ card, s.inputs.card = 0xFF :: card →
      (s.At .writeBlocks (.writeBlocks (.lastWait .none (.poll t0))) →
        exec .writeBlocks s = .next (finish (s.took 0xFF 0xFF card))) ∧
      (s.At .writeBlocks (.writeBlocks (.lastWait .dataRejected (.poll t0))) →
        exec .writeBlocks s = .next (endOp .writeFailed .dataRejected (s.took 0xFF 0xFF card)))) ∧
    (∀ u clock, s.inputs.clock = u :: clock → deadlinePassed s.regs.tmoBusy t0 u = true →
      (s.At .writeBlocks (.writeBlocks (.lastWait .none (.test t0))) →
        exec .writeBlocks s = .next (endOp .writeFailed .busyTimeout (s.timed u clock))) ∧
      (s.At .writeBlocks (.writeBlocks (.lastWait .dataRejected (.test t0))) →
        exec .writeBlocks s = .next (endOp .writeFailed .dataRejected (s.timed u clock))))

/-- R179: the stop sequence sends 0xFD whether its first wait ended ready or expired, then STOP_TRAN_SKIP filler bytes, then
waits again; the result is NONE exactly when both waits ended ready. -/
def Obligations.StopTokenIsSentWhateverTheWait : Prop :=
  ∀ (T t0 : Word) (s : State) (w1 : Bool) (rx : Byte) (card : List Byte) (u : Word) (clock : List Word),
    s.inputs.card = rx :: card → s.inputs.clock = u :: clock →
    (rx = 0xFF → stopWriteStep T (.ready1 (.poll t0)) s = (.more (.token true), s.took 0xFF rx card)) ∧
    (deadlinePassed T t0 u = true →
      stopWriteStep T (.ready1 (.test t0)) s = (.more (.token false), s.timed u clock)) ∧
    stopWriteStep T (.token w1) s =
      (.more (if s.params.stopTranSkip = 0 then .ready2 w1 .start else .skip w1 (s.params.stopTranSkip - 1)),
        s.took 0xFD rx card) ∧
    (∀ m, stopWriteStep T (.skip w1 m) s =
      (.more (if m = 0 then .ready2 w1 .start else .skip w1 (m - 1)), s.took 0xFF rx card)) ∧
    (rx = 0xFF → stopWriteStep T (.ready2 w1 (.poll t0)) s =
      (.ret (if w1 = true then .none else .busyTimeout), s.took 0xFF rx card)) ∧
    (deadlinePassed T t0 u = true →
      stopWriteStep T (.ready2 w1 (.test t0)) s = (.ret .busyTimeout, s.timed u clock))

/-! ### Refinement: the machine runs the pseudocode -/

/-- R134, R140, R150, R155, R115: the operations of the framer, run one event a step, reach exactly the state their
pseudocode reaches when it is run whole. -/
def Obligations.FramerRunsItsPseudocode : Prop :=
  ∀ (i : Instr) (fuel : Nat) (s t : State), i ≠ .readData → i ≠ .readBlocks → i ≠ .writeBlocks → s.Idle →
    wholeRun fuel i s = some t → ∃ n, runOp i n s = .next t ∧ t.regs.status.busy = false

/-- R172, R180: the same for READ_DATA. -/
def Obligations.ReadDataRunsItsPseudocode : Prop :=
  ∀ (fuel : Nat) (s t : State), s.Idle → wholeRun fuel .readData s = some t →
    ∃ n, runOp .readData n s = .next t ∧ t.regs.status.busy = false

/-- R202, R205: the same for READ_BLOCKS, single and multi-block, with every failure and the CMD12 after it. -/
def Obligations.ReadBlocksRunsItsPseudocode : Prop :=
  ∀ (fuel : Nat) (s t : State), s.Idle → wholeRun fuel .readBlocks s = some t →
    ∃ n, runOp .readBlocks n s = .next t ∧ t.regs.status.busy = false

/-- R177, R179, R202, R215: the same for WRITE_BLOCKS, single and multi-block, with every failure and the stop sequence. -/
def Obligations.WriteBlocksRunsItsPseudocode : Prop :=
  ∀ (fuel : Nat) (s t : State), s.Idle → wholeRun fuel .writeBlocks s = some t →
    ∃ n, runOp .writeBlocks n s = .next t ∧ t.regs.status.busy = false

/-! ### Frames -/

/-- No operation writes its operands (R24, R25, R31, R33, R34, R38), the host agent, the schedule or the parameters; OP,
OVR and BLKDONE change at the accept, and after it BLKDONE only in a block operation (R23, R26, R36). WAIT_READY, FILL and
READ_DATA write none of RESP, RESPX and CRC, and CRC7 neither RESP nor RESPX (R29, R32, R115, R150, R155, R180). -/
def Obligations.OperationsKeepTheirOperands : Prop :=
  ∀ (i : Instr) (s t : State), exec i s = .next t →
    sameOperands s.regs t.regs ∧ t.host = s.host ∧ t.turns = s.turns ∧ t.params = s.params ∧
    t.regs.op = (if s.seq = .idle then encode i else s.regs.op) ∧
    t.regs.status.ovr = (if s.seq = .idle then false else s.regs.status.ovr) ∧
    (i ≠ .readBlocks → i ≠ .writeBlocks → t.regs.blkdone = (if s.seq = .idle then 0 else s.regs.blkdone)) ∧
    ((i = .waitReady ∨ i = .fill ∨ i = .readData) → sameResp s.regs t.regs ∧ sameCrc s.regs t.regs) ∧
    (∀ idx, i = .crc7 idx → sameResp s.regs t.regs)

/-- R61, R66: a step of an operation leaves every byte of buffer memory as it was but the one byte it stores, at the address
`storeAddr` gives; a step that stores nothing, and every step of an operation other than READ_DATA and READ_BLOCKS, leaves
all of memory as it was. -/
def Obligations.OperationsWriteOnlyTheirStoredByte : Prop :=
  ∀ (i : Instr) (s t : State), exec i s = .next t →
    (∀ a, storeAddr s = some a → ∀ x, x ≠ a.toNat → Memory.read t.mem x = Memory.read s.mem x) ∧
    (storeAddr s = none → ∀ x, Memory.read t.mem x = Memory.read s.mem x) ∧
    (i ≠ .readData → i ≠ .readBlocks → ∀ x, Memory.read t.mem x = Memory.read s.mem x)

/-- R243: an operation never writes the buffer outside the range it names: `BUFADDR` to `BUFADDR + COUNT - 1` for READ_DATA,
`BUFADDR` to `BUFADDR + 512 × COUNT - 1` for READ_BLOCKS, modulo 2^32. -/
def Obligations.BufferIsWrittenOnlyInTheNamedRange : Prop :=
  ∀ (i : Instr) (s t : State) (x : Nat), s.Inv → exec i s = .next t →
    Memory.read t.mem x ≠ Memory.read s.mem x →
      ∃ j, x = (s.regs.bufaddr + BitVec.ofNat 32 j).toNat ∧
        ((i = .readData ∧ j < s.regs.count.toNat) ∨ (i = .readBlocks ∧ j < 512 * s.regs.count.toNat))

/-! ### The host's side -/

/-- R38: while BUSY = 1 every host register write is ignored and sets OVR, and no step but reset changes an operand or OP. -/
def Obligations.WritesWhileBusyAreIgnored : Prop :=
  (∀ (r : Reg) (v : Word) (s : State), s.regs.status.busy = true →
    hostWrite r v s = .next { s with regs := { s.regs with status := { s.regs.status with ovr := true } } }) ∧
  (∀ s t : State, s.Inv → s.regs.status.busy = true → (∀ ts, s.turns ≠ .reset :: ts) → step s = .next t →
    sameOperands s.regs t.regs ∧ t.regs.op = s.regs.op)

/-- R37, R31, R35: a host write while idle of any register but OP stores a writable register whole, CFG in its two bits, and
is ignored by read-only and reserved ones; every other register reads as before; no event happens. -/
def Obligations.WritesWhileIdleStore : Prop :=
  ∀ (r : Reg) (v : Word) (s : State), s.regs.status.busy = false → r ≠ .op →
    ∃ t, hostWrite r v s = .next t ∧ t.seq = s.seq ∧ t.trace = s.trace ∧ t.mem = s.mem ∧ t.inputs = s.inputs ∧
      t.regs.status = s.regs.status ∧
      (∀ q, regWord t.regs q =
        if q = r ∧ r ∈ [Reg.arg, .count, .tmoCmd, .tmoToken, .tmoBusy, .bufaddr] then v
        else if q = r ∧ r = .cfg then v &&& 0x3
        else regWord s.regs q) ∧
      regWord t.regs .blksize = 0x200 ∧ regWord t.regs .rsv38 = 0 ∧ regWord t.regs .rsv3c = 0

/-- R39, R71: a host read returns the register's value, but for RESP, RESPX, CRC and BLKDONE while BUSY = 1, whose value is
a free draw; no read changes the block, memory, or the scripts of the card and the time input. The form of the free
draw, a constant without a body at the counter of draws, which such a read advances, is the model's choice (log entries
5, 24), and so is that OP's value has 0 at its reserved bits (log entry 25). -/
def Obligations.ReadsAreExactExceptWhileBusy : Prop :=
  ∀ (r : Reg) (s : State),
    ((s.regs.status.busy = false ∨ r ∉ [Reg.resp, .respx, .crc, .blkdone]) → (hostRead r s).1 = regWord s.regs r) ∧
    ((s.regs.status.busy = true ∧ r ∈ [Reg.resp, .respx, .crc, .blkdone]) →
      (hostRead r s).1 = Config.busyRead s.inputs.drawn ∧ (hostRead r s).2.inputs.drawn = s.inputs.drawn + 1) ∧
    (hostRead r s).2.regs = s.regs ∧ (hostRead r s).2.seq = s.seq ∧ (hostRead r s).2.trace = s.trace ∧
    (hostRead r s).2.mem = s.mem ∧ (hostRead r s).2.inputs.card = s.inputs.card ∧
    (hostRead r s).2.inputs.clock = s.inputs.clock

/-- R69, R22: the accesses that name a register are exactly the 32-bit ones at an offset that is a multiple of 4 within
0x00 to 0x3C of REG_BASE, and each names the register of its offset; every other access is refused, or is what
BUS_ERR_POLICY says (the parameter's two values are the model's, log entry 9). Platform addresses of 32 bits and offsets
modulo 2^32, so that a window near 0xFFFFFFFF wraps past it, are the model's too (log entry 10). -/
def Obligations.OnlyAlignedWordAccessesNameARegister : Prop :=
  (∀ (base : Word) (r : Reg), regAt base (base + BitVec.ofNat 32 (regOffset r)) 4 = some r) ∧
  (∀ (base addr : Word) (n : Nat), regAt base addr n = none ↔
    n ≠ 4 ∨ (addr - base).toNat % 4 ≠ 0 ∨ 0x3C < (addr - base).toNat) ∧
  (∀ (addr : Word) (n pc : Nat) (v : Word) (s : State), regAt s.params.regBase addr n = none →
    (s.params.busErr = .refuse →
      hostStmt (.busWrite addr n v) pc s = .refused .undefinedRegisterAccess ∧
      hostStmt (.busRead addr n) pc s = .refused .undefinedRegisterAccess) ∧
    (s.params.busErr = .busError →
      hostStmt (.busWrite addr n v) pc s = .fault .registerBusError ∧
      hostStmt (.busRead addr n) pc s = .fault .registerBusError))

/-- R23, R26 to R32: the bits of OP, STATUS, RESP, CRC and CFG as the host reads them, with the codes of ERR (R27) and CAUSE
(R28); reserved bits read 0 (R37). That R37 holds for the reserved bits of OP is the model's reading (log entry 25,
DEDUCED). -/
def Obligations.RegisterFieldsStandWhereTheSpecPutsThem : Prop :=
  (∀ st : Status, (statusWord st).getLsbD 0 = st.busy ∧ (statusWord st).getLsbD 1 = st.done ∧
    (statusWord st).getLsbD 2 = st.ovr ∧ (statusWord st).getLsbD 3 = false ∧
    (statusWord st).extractLsb' 4 3 = (match st.err with
      | .none => 0
      | .timeout => 1
      | .responseError => 2
      | .readFailed => 3
      | .writeFailed => 4
      | .writeProtected => 5
      | .illegalOp => 6) ∧
    (statusWord st).getLsbD 7 = false ∧
    (statusWord st).extractLsb' 8 4 = (match st.cause with
      | .none => 0
      | .respNotFound => 1
      | .busyTimeout => 2
      | .notReady => 3
      | .r1Error => 4
      | .tokenTimeout => 5
      | .badToken => 6
      | .dataRejected => 7
      | .addrOverflow => 8
      | .wpSet => 9
      | .badOpWord => 10
      | .badLength => 11) ∧
    (statusWord st).extractLsb' 12 20 = 0) ∧
  (∀ g : Regs, opcOf (regWord g .op) = opcOf g.op ∧ idxOf (regWord g .op) = idxOf g.op ∧
    rtOf (regWord g .op) = rtOf g.op ∧ nochkOf (regWord g .op) = nochkOf g.op ∧ regWord g .op &&& 0xFFE8C0F0 = 0) ∧
  (∀ g : Regs, (respWord g).extractLsb' 0 8 = g.byte0 ∧ (respWord g).extractLsb' 8 3 = g.nresp ∧
    (respWord g).extractLsb' 11 21 = 0 ∧
    (crcWord g).extractLsb' 0 7 = g.crc7 ∧ (crcWord g).getLsbD 7 = false ∧
    (crcWord g).extractLsb' 8 8 = g.frame5 ∧ (crcWord g).extractLsb' 16 16 = 0 ∧
    (cfgWord g).getLsbD 0 = g.hc ∧ (cfgWord g).getLsbD 1 = g.wp ∧ (cfgWord g).extractLsb' 2 30 = 0)

/-! ### Reset -/

/-- R43, R22: the reset values, as the host reads them; SEQ is IDLE and the trace is empty; a reset of any state gives them
too and leaves buffer memory alone. -/
def Obligations.ResetValues : Prop :=
  (∀ g : Regs, g = State.reset.regs ∨ (∃ s : State, g = (resetBlock s).regs) →
    regWord g .op = 0 ∧ regWord g .arg = 0 ∧ regWord g .count = 0 ∧
    regWord g .status = 0 ∧ regWord g .resp = 0x000000FF ∧
    regWord g .respx = 0 ∧ regWord g .crc = 0 ∧ regWord g .cfg = 0 ∧
    regWord g .tmoCmd = 500 ∧ regWord g .tmoToken = 100 ∧
    regWord g .tmoBusy = 500 ∧ regWord g .bufaddr = 0 ∧
    regWord g .blksize = 512 ∧ regWord g .blkdone = 0) ∧
  State.reset.seq = .idle ∧ State.reset.trace = [] ∧
  (∀ s : State, (resetBlock s).seq = .idle ∧ (resetBlock s).trace = [] ∧ (resetBlock s).mem = s.mem)

/-- R270, R271: a reset step gives every register its reset value, makes SEQ idle and aborts the running operation:
neither DONE nor an error code is set and no event of it follows; memory, the inputs and the host are untouched;
whatever the block was doing. That a reset takes its turn off the schedule, and that the host goes on where it was, are
the model's (log entries 2, 18). -/
def Obligations.ResetAbortsAndRestores : Prop :=
  ∀ (s : State) (ts : List Turn), s.turns = .reset :: ts →
    ∃ t, step s = .next t ∧ t.regs = State.reset.regs ∧ t.seq = .idle ∧ t.trace = [] ∧
      statusWord t.regs.status = 0 ∧ t.mem = s.mem ∧ t.inputs = s.inputs ∧ t.host = s.host ∧
      t.params = s.params ∧ t.turns = ts ∧ blockStep t = .next t

/-! ### Invariants of every step -/

/-- The invariant of the machine, the model's own (Safety.lean), holds at reset (R43). -/
def Obligations.ResetMeetsTheInvariant : Prop := State.reset.Inv

/-- Every step of the machine keeps the invariant: memory keeps its canonical form; BUSY is 1 exactly while SEQ runs (R21);
while it runs, DONE, ERR and CAUSE are 0 (R26) and SEQ stands at a point its operation can reach, with BLKDONE the number
of blocks completed (R36); after an operation STATUS holds a pair of R241; RESP, RESPX and CRC are consistent (R29 to
R32). -/
def Obligations.StepKeepsInvariant : Prop := ∀ s t : State, s.Inv → step s = .next t → t.Inv

/-- R11, R21, R246, at the model's granularity (log entry 1): a step other than reset appends at most one event to the trace
and takes none away; a step in which a busy block moves, by the schedule or without one (log entry 2), appends exactly
one. -/
def Obligations.OneEventPerStep : Prop :=
  (∀ s t : State, step s = .next t → (∀ ts, s.turns ≠ .reset :: ts) →
    ∃ es : List Event, es.length ≤ 1 ∧ t.trace = s.trace ++ es) ∧
  (∀ s t : State, s.Inv → s.regs.status.busy = true → BlockTurn s → step s = .next t →
    ∃ e : Event, t.trace = s.trace ++ [e])

/-- R243, R61, R69: from a state that meets the invariant a step stops exactly where the spec leaves no step, and each stop has
its condition: `bufferStuck` and `memErrPolicyOpen` when the block's next event is a buffer access the memory does not admit,
`registerBusError` and `undefinedRegisterAccess` when the host's next statement is a register access the spec does not
define, `hostBufferUnmapped` when it is a buffer access where no memory is; in every other state the step answers a next
state. Which of the two stops a policy gives, the schedule and the width of platform addresses are the model's (log entries
2, 8, 9, 10). -/
def Obligations.SafeStepsStopOnlyWhereTheSpecDoes : Prop := ∀ s : State, s.Inv → specStop s (step s)

/-- R98, R104, R69, R75, R281: the host statements, one step each, whenever it is the host's turn, on an idle and on a busy
block. A write of a register, by name or by platform address: OP on an idle block starts the operation, any other register
stores or is ignored, and on a busy block every write is ignored and sets OVR. A read, by name or by platform address, and
`BR` read their register once; `BR` goes on at its label exactly when the comparison of the field holds. `WAITDONE` stays
until BUSY = 0, `GOTO` goes on at its label, `HALT` ends the program. A buffer write stores its one byte; a buffer read gives
the byte, or a free value where it races with the running operation; where no memory is, both are refused. None is an event
of the block. No step changes the parameters or the program. The schedule, the host's own fields, the step of GOTO and HALT
the width and wrap of platform addresses, the form of the free value, and that a buffer read races only while BUSY = 1 and
not until the host has read DONE, are the model's (log entries 2, 5, 10, 11, 13, 22). -/
def Obligations.HostStatementsMoveTheHost : Prop :=
  (∀ (s u : State) (st : HostStmt), HostTurn s u → s.host.prog[s.host.pc]? = some st →
    (∀ r v, writesReg s st r v →
      (r = .op → s.regs.status.busy = false → step s = startOp v (setPc (s.host.pc + 1) u)) ∧
      (r ≠ .op → s.regs.status.busy = false → ∃ t, step s = .next t ∧ t.host.pc = s.host.pc + 1 ∧
        t.seq = s.seq ∧ t.trace = s.trace ∧ t.mem = s.mem ∧ t.inputs = s.inputs ∧
        (∀ q, regWord t.regs q =
          if q = r ∧ r ∈ [Reg.arg, .count, .tmoCmd, .tmoToken, .tmoBusy, .bufaddr] then v
          else if q = r ∧ r = .cfg then v &&& 0x3
          else regWord s.regs q)) ∧
      (s.regs.status.busy = true → ∃ t, step s = .next t ∧ t.host.pc = s.host.pc + 1 ∧
        t.seq = s.seq ∧ t.trace = s.trace ∧ t.mem = s.mem ∧ t.inputs = s.inputs ∧
        t.regs = { s.regs with status := { s.regs.status with ovr := true } })) ∧
    (∀ r, readsReg s st r → ∃ t, step s = .next t ∧ t.host.pc = s.host.pc + 1 ∧
      t.host.last = (hostRead r s).1 ∧ sameBlock s t) ∧
    (∀ f v n, st = .br f true v n → ∃ t, step s = .next t ∧
      t.host.pc = (if fieldOf f (hostRead f.reg s).1 = v then n else s.host.pc + 1) ∧ sameBlock s t) ∧
    (∀ f v n, st = .br f false v n → ∃ t, step s = .next t ∧
      t.host.pc = (if fieldOf f (hostRead f.reg s).1 ≠ v then n else s.host.pc + 1) ∧ sameBlock s t) ∧
    (st = .waitDone → ∃ t, step s = .next t ∧
      t.host.pc = (if s.regs.status.busy then s.host.pc else s.host.pc + 1) ∧ sameBlock s t) ∧
    (∀ n, st = .goto n → step s = .next { u with host := { u.host with pc := n } }) ∧
    (st = .halt → step s = .next u) ∧
    (∀ a v, st = .bufWrite a v →
      (admits s.params a = true → ∃ t, step s = .next t ∧ t.host.pc = s.host.pc + 1 ∧
        t.regs = s.regs ∧ t.seq = s.seq ∧ t.trace = s.trace ∧ t.inputs = s.inputs ∧
        (Memory.wf s.mem = true → Memory.read t.mem a.toNat = v) ∧
        (∀ x, x ≠ a.toNat → Memory.read t.mem x = Memory.read s.mem x)) ∧
      (admits s.params a = false → step s = .refused .hostBufferUnmapped)) ∧
    (∀ a, st = .bufRead a →
      (admits s.params a = true → ∃ t, step s = .next t ∧ t.host.pc = s.host.pc + 1 ∧ sameBlock s t ∧
        t.host.last =
          (if s.regs.status.busy = true ∧ usesByte s a = true then Config.racingByte s.inputs.drawn
           else Memory.read s.mem a.toNat).setWidth 32) ∧
      (admits s.params a = false → step s = .refused .hostBufferUnmapped))) ∧
  (∀ (s : State) (w a : Word) (p : Pos) (i : Instr), s.seq = .run w p → decode w = .op i →
    (usesByte s a = true ↔
      (i = .readData ∧ (a - s.regs.bufaddr).toNat < s.regs.count.toNat) ∨
      ((i = .readBlocks ∨ i = .writeBlocks) ∧ (a - s.regs.bufaddr).toNat < 512 * s.regs.count.toNat))) ∧
  (∀ s t : State, step s = .next t → t.params = s.params ∧ t.host.prog = s.host.prog)
end

