-- ==== Sys2Proof/Laws/State.lean ====
section
/-! SUPPORT. What each state update does to each field of State, true by unfolding once; later proofs cite these and
unfold no record update. The registers are given as one record. -/

namespace Sys2Proof.Machine

/-! An event appended to the trace (R11). -/

@[simp] theorem logEvent_regs (e : Event) (s : State) : (logEvent e s).regs = s.regs := rfl
@[simp] theorem logEvent_seq (e : Event) (s : State) : (logEvent e s).seq = s.seq := rfl
@[simp] theorem logEvent_trace (e : Event) (s : State) : (logEvent e s).trace = s.trace ++ [e] := rfl
@[simp] theorem logEvent_mem (e : Event) (s : State) : (logEvent e s).mem = s.mem := rfl
@[simp] theorem logEvent_inputs (e : Event) (s : State) : (logEvent e s).inputs = s.inputs := rfl
@[simp] theorem logEvent_host (e : Event) (s : State) : (logEvent e s).host = s.host := rfl
@[simp] theorem logEvent_turns (e : Event) (s : State) : (logEvent e s).turns = s.turns := rfl
@[simp] theorem logEvent_params (e : Event) (s : State) : (logEvent e s).params = s.params := rfl

/-! The accept of an operation word (R240). -/

@[simp] theorem accept_regs (w : Word) (s : State) :
    (accept w s).regs = { s.regs with
      op := w
      status := { busy := true, done := false, ovr := false, err := .none, cause := .none }
      blkdone := 0 } := rfl
@[simp] theorem accept_seq (w : Word) (s : State) : (accept w s).seq = .run w .start := rfl
@[simp] theorem accept_trace (w : Word) (s : State) : (accept w s).trace = s.trace := rfl
@[simp] theorem accept_mem (w : Word) (s : State) : (accept w s).mem = s.mem := rfl
@[simp] theorem accept_inputs (w : Word) (s : State) : (accept w s).inputs = s.inputs := rfl
@[simp] theorem accept_host (w : Word) (s : State) : (accept w s).host = s.host := rfl
@[simp] theorem accept_turns (w : Word) (s : State) : (accept w s).turns = s.turns := rfl
@[simp] theorem accept_params (w : Word) (s : State) : (accept w s).params = s.params := rfl

/-! The end of an operation (R244). -/

@[simp] theorem endOp_regs (e : Err) (c : Cause) (s : State) :
    (endOp e c s).regs = { s.regs with
      status := { busy := false, done := true, ovr := s.regs.status.ovr, err := e, cause := c } } := rfl
@[simp] theorem endOp_seq (e : Err) (c : Cause) (s : State) : (endOp e c s).seq = .idle := rfl
@[simp] theorem endOp_trace (e : Err) (c : Cause) (s : State) : (endOp e c s).trace = s.trace := rfl
@[simp] theorem endOp_mem (e : Err) (c : Cause) (s : State) : (endOp e c s).mem = s.mem := rfl
@[simp] theorem endOp_inputs (e : Err) (c : Cause) (s : State) : (endOp e c s).inputs = s.inputs := rfl
@[simp] theorem endOp_host (e : Err) (c : Cause) (s : State) : (endOp e c s).host = s.host := rfl
@[simp] theorem endOp_turns (e : Err) (c : Cause) (s : State) : (endOp e c s).turns = s.turns := rfl
@[simp] theorem endOp_params (e : Err) (c : Cause) (s : State) : (endOp e c s).params = s.params := rfl

/-! The end of an operation that succeeds (R244). -/

@[simp] theorem finish_regs (s : State) :
    (finish s).regs = { s.regs with
      status := { busy := false, done := true, ovr := s.regs.status.ovr, err := .none, cause := .none } } := rfl
@[simp] theorem finish_seq (s : State) : (finish s).seq = .idle := rfl
@[simp] theorem finish_trace (s : State) : (finish s).trace = s.trace := rfl
@[simp] theorem finish_mem (s : State) : (finish s).mem = s.mem := rfl
@[simp] theorem finish_inputs (s : State) : (finish s).inputs = s.inputs := rfl
@[simp] theorem finish_host (s : State) : (finish s).host = s.host := rfl
@[simp] theorem finish_turns (s : State) : (finish s).turns = s.turns := rfl
@[simp] theorem finish_params (s : State) : (finish s).params = s.params := rfl

/-! Reset (R270, R271). -/

@[simp] theorem resetBlock_regs (s : State) : (resetBlock s).regs = Regs.reset := rfl
@[simp] theorem resetBlock_seq (s : State) : (resetBlock s).seq = .idle := rfl
@[simp] theorem resetBlock_trace (s : State) : (resetBlock s).trace = [] := rfl
@[simp] theorem resetBlock_mem (s : State) : (resetBlock s).mem = s.mem := rfl
@[simp] theorem resetBlock_inputs (s : State) : (resetBlock s).inputs = s.inputs := rfl
@[simp] theorem resetBlock_host (s : State) : (resetBlock s).host = s.host := rfl
@[simp] theorem resetBlock_turns (s : State) : (resetBlock s).turns = s.turns := rfl
@[simp] theorem resetBlock_params (s : State) : (resetBlock s).params = s.params := rfl

/-! BLKDONE (R36). -/

@[simp] theorem setBlkdone_regs (n : Nat) (s : State) :
    (setBlkdone n s).regs = { s.regs with blkdone := BitVec.ofNat 32 n } := rfl
@[simp] theorem setBlkdone_seq (n : Nat) (s : State) : (setBlkdone n s).seq = s.seq := rfl
@[simp] theorem setBlkdone_trace (n : Nat) (s : State) : (setBlkdone n s).trace = s.trace := rfl
@[simp] theorem setBlkdone_mem (n : Nat) (s : State) : (setBlkdone n s).mem = s.mem := rfl
@[simp] theorem setBlkdone_inputs (n : Nat) (s : State) : (setBlkdone n s).inputs = s.inputs := rfl
@[simp] theorem setBlkdone_host (n : Nat) (s : State) : (setBlkdone n s).host = s.host := rfl
@[simp] theorem setBlkdone_turns (n : Nat) (s : State) : (setBlkdone n s).turns = s.turns := rfl
@[simp] theorem setBlkdone_params (n : Nat) (s : State) : (setBlkdone n s).params = s.params := rfl

/-! RESP and RESPX cleared (R134). -/

@[simp] theorem clearResp_regs (s : State) :
    (clearResp s).regs = { s.regs with byte0 := 0xFF, nresp := 0, respx := 0 } := rfl
@[simp] theorem clearResp_seq (s : State) : (clearResp s).seq = s.seq := rfl
@[simp] theorem clearResp_trace (s : State) : (clearResp s).trace = s.trace := rfl
@[simp] theorem clearResp_mem (s : State) : (clearResp s).mem = s.mem := rfl
@[simp] theorem clearResp_inputs (s : State) : (clearResp s).inputs = s.inputs := rfl
@[simp] theorem clearResp_host (s : State) : (clearResp s).host = s.host := rfl
@[simp] theorem clearResp_turns (s : State) : (clearResp s).turns = s.turns := rfl
@[simp] theorem clearResp_params (s : State) : (clearResp s).params = s.params := rfl

/-! RESP and RESPX filled (R134). -/

@[simp] theorem putResp_regs (n : Nat) (r : Byte) (x : Word) (s : State) :
    (putResp n r x s).regs = { s.regs with byte0 := r, nresp := BitVec.ofNat 3 (1 + n), respx := x } := rfl
@[simp] theorem putResp_seq (n : Nat) (r : Byte) (x : Word) (s : State) : (putResp n r x s).seq = s.seq := rfl
@[simp] theorem putResp_trace (n : Nat) (r : Byte) (x : Word) (s : State) : (putResp n r x s).trace = s.trace := rfl
@[simp] theorem putResp_mem (n : Nat) (r : Byte) (x : Word) (s : State) : (putResp n r x s).mem = s.mem := rfl
@[simp] theorem putResp_inputs (n : Nat) (r : Byte) (x : Word) (s : State) :
    (putResp n r x s).inputs = s.inputs := rfl
@[simp] theorem putResp_host (n : Nat) (r : Byte) (x : Word) (s : State) : (putResp n r x s).host = s.host := rfl
@[simp] theorem putResp_turns (n : Nat) (r : Byte) (x : Word) (s : State) : (putResp n r x s).turns = s.turns := rfl
@[simp] theorem putResp_params (n : Nat) (r : Byte) (x : Word) (s : State) :
    (putResp n r x s).params = s.params := rfl

/-! CRC written by a built frame (R114). -/

@[simp] theorem buildFrame_regs (idx : BitVec 6) (arg : Word) (s : State) :
    (buildFrame idx arg s).regs = { s.regs with
      crc7 := frameCrc idx arg, frame5 := crcByte5 (frameCrc idx arg) } := rfl
@[simp] theorem buildFrame_seq (idx : BitVec 6) (arg : Word) (s : State) : (buildFrame idx arg s).seq = s.seq := rfl
@[simp] theorem buildFrame_trace (idx : BitVec 6) (arg : Word) (s : State) :
    (buildFrame idx arg s).trace = s.trace := rfl
@[simp] theorem buildFrame_mem (idx : BitVec 6) (arg : Word) (s : State) : (buildFrame idx arg s).mem = s.mem := rfl
@[simp] theorem buildFrame_inputs (idx : BitVec 6) (arg : Word) (s : State) :
    (buildFrame idx arg s).inputs = s.inputs := rfl
@[simp] theorem buildFrame_host (idx : BitVec 6) (arg : Word) (s : State) :
    (buildFrame idx arg s).host = s.host := rfl
@[simp] theorem buildFrame_turns (idx : BitVec 6) (arg : Word) (s : State) :
    (buildFrame idx arg s).turns = s.turns := rfl
@[simp] theorem buildFrame_params (idx : BitVec 6) (arg : Word) (s : State) :
    (buildFrame idx arg s).params = s.params := rfl

/-! OVR set by a write while busy (R38). -/

@[simp] theorem setOvr_regs (s : State) :
    (setOvr s).regs = { s.regs with status := { s.regs.status with ovr := true } } := rfl
@[simp] theorem setOvr_seq (s : State) : (setOvr s).seq = s.seq := rfl
@[simp] theorem setOvr_trace (s : State) : (setOvr s).trace = s.trace := rfl
@[simp] theorem setOvr_mem (s : State) : (setOvr s).mem = s.mem := rfl
@[simp] theorem setOvr_inputs (s : State) : (setOvr s).inputs = s.inputs := rfl
@[simp] theorem setOvr_host (s : State) : (setOvr s).host = s.host := rfl
@[simp] theorem setOvr_turns (s : State) : (setOvr s).turns = s.turns := rfl
@[simp] theorem setOvr_params (s : State) : (setOvr s).params = s.params := rfl

/-! A host write that stores (R37). -/

@[simp] theorem hostStore_regs (r : Reg) (v : Word) (s : State) : (hostStore r v s).regs = storeReg v s.regs r := rfl
@[simp] theorem hostStore_seq (r : Reg) (v : Word) (s : State) : (hostStore r v s).seq = s.seq := rfl
@[simp] theorem hostStore_trace (r : Reg) (v : Word) (s : State) : (hostStore r v s).trace = s.trace := rfl
@[simp] theorem hostStore_mem (r : Reg) (v : Word) (s : State) : (hostStore r v s).mem = s.mem := rfl
@[simp] theorem hostStore_inputs (r : Reg) (v : Word) (s : State) : (hostStore r v s).inputs = s.inputs := rfl
@[simp] theorem hostStore_host (r : Reg) (v : Word) (s : State) : (hostStore r v s).host = s.host := rfl
@[simp] theorem hostStore_turns (r : Reg) (v : Word) (s : State) : (hostStore r v s).turns = s.turns := rfl
@[simp] theorem hostStore_params (r : Reg) (v : Word) (s : State) : (hostStore r v s).params = s.params := rfl

/-! The host's next statement. -/

@[simp] theorem setPc_regs (n : Nat) (s : State) : (setPc n s).regs = s.regs := rfl
@[simp] theorem setPc_seq (n : Nat) (s : State) : (setPc n s).seq = s.seq := rfl
@[simp] theorem setPc_trace (n : Nat) (s : State) : (setPc n s).trace = s.trace := rfl
@[simp] theorem setPc_mem (n : Nat) (s : State) : (setPc n s).mem = s.mem := rfl
@[simp] theorem setPc_inputs (n : Nat) (s : State) : (setPc n s).inputs = s.inputs := rfl
@[simp] theorem setPc_host (n : Nat) (s : State) : (setPc n s).host = { s.host with pc := n } := rfl
@[simp] theorem setPc_turns (n : Nat) (s : State) : (setPc n s).turns = s.turns := rfl
@[simp] theorem setPc_params (n : Nat) (s : State) : (setPc n s).params = s.params := rfl

/-! The value of the host's last read. -/

@[simp] theorem setLast_regs (v : Word) (s : State) : (setLast v s).regs = s.regs := rfl
@[simp] theorem setLast_seq (v : Word) (s : State) : (setLast v s).seq = s.seq := rfl
@[simp] theorem setLast_trace (v : Word) (s : State) : (setLast v s).trace = s.trace := rfl
@[simp] theorem setLast_mem (v : Word) (s : State) : (setLast v s).mem = s.mem := rfl
@[simp] theorem setLast_inputs (v : Word) (s : State) : (setLast v s).inputs = s.inputs := rfl
@[simp] theorem setLast_host (v : Word) (s : State) : (setLast v s).host = { s.host with last := v } := rfl
@[simp] theorem setLast_turns (v : Word) (s : State) : (setLast v s).turns = s.turns := rfl
@[simp] theorem setLast_params (v : Word) (s : State) : (setLast v s).params = s.params := rfl

/-! An exchange (R11). -/

@[simp] theorem State.took_regs (s : State) (tx rx : Byte) (card : List Byte) :
    (s.took tx rx card).regs = s.regs := rfl
@[simp] theorem State.took_seq (s : State) (tx rx : Byte) (card : List Byte) : (s.took tx rx card).seq = s.seq := rfl
@[simp] theorem State.took_trace (s : State) (tx rx : Byte) (card : List Byte) :
    (s.took tx rx card).trace = s.trace ++ [.xchg tx rx] := rfl
@[simp] theorem State.took_mem (s : State) (tx rx : Byte) (card : List Byte) : (s.took tx rx card).mem = s.mem := rfl
@[simp] theorem State.took_inputs (s : State) (tx rx : Byte) (card : List Byte) :
    (s.took tx rx card).inputs = { s.inputs with card := card } := rfl
@[simp] theorem State.took_host (s : State) (tx rx : Byte) (card : List Byte) :
    (s.took tx rx card).host = s.host := rfl
@[simp] theorem State.took_turns (s : State) (tx rx : Byte) (card : List Byte) :
    (s.took tx rx card).turns = s.turns := rfl
@[simp] theorem State.took_params (s : State) (tx rx : Byte) (card : List Byte) :
    (s.took tx rx card).params = s.params := rfl

/-! A reading of the time input (R11). -/

@[simp] theorem State.timed_regs (s : State) (t : Word) (clock : List Word) : (s.timed t clock).regs = s.regs := rfl
@[simp] theorem State.timed_seq (s : State) (t : Word) (clock : List Word) : (s.timed t clock).seq = s.seq := rfl
@[simp] theorem State.timed_trace (s : State) (t : Word) (clock : List Word) :
    (s.timed t clock).trace = s.trace ++ [.now t] := rfl
@[simp] theorem State.timed_mem (s : State) (t : Word) (clock : List Word) : (s.timed t clock).mem = s.mem := rfl
@[simp] theorem State.timed_inputs (s : State) (t : Word) (clock : List Word) :
    (s.timed t clock).inputs = { s.inputs with clock := clock } := rfl
@[simp] theorem State.timed_host (s : State) (t : Word) (clock : List Word) : (s.timed t clock).host = s.host := rfl
@[simp] theorem State.timed_turns (s : State) (t : Word) (clock : List Word) :
    (s.timed t clock).turns = s.turns := rfl
@[simp] theorem State.timed_params (s : State) (t : Word) (clock : List Word) :
    (s.timed t clock).params = s.params := rfl

/-! SEQ at a point of an operation (R21). -/

@[simp] theorem State.goes_regs (s : State) (i : Instr) (p : Pos) : (s.goes i p).regs = s.regs := rfl
@[simp] theorem State.goes_seq (s : State) (i : Instr) (p : Pos) : (s.goes i p).seq = .run (encode i) p := rfl
@[simp] theorem State.goes_trace (s : State) (i : Instr) (p : Pos) : (s.goes i p).trace = s.trace := rfl
@[simp] theorem State.goes_mem (s : State) (i : Instr) (p : Pos) : (s.goes i p).mem = s.mem := rfl
@[simp] theorem State.goes_inputs (s : State) (i : Instr) (p : Pos) : (s.goes i p).inputs = s.inputs := rfl
@[simp] theorem State.goes_host (s : State) (i : Instr) (p : Pos) : (s.goes i p).host = s.host := rfl
@[simp] theorem State.goes_turns (s : State) (i : Instr) (p : Pos) : (s.goes i p).turns = s.turns := rfl
@[simp] theorem State.goes_params (s : State) (i : Instr) (p : Pos) : (s.goes i p).params = s.params := rfl

/-! SEQ advanced to a point of the running operation (R21). -/

@[simp] theorem goto_regs (p : Pos) (s : State) : (goto p s).regs = s.regs := by unfold goto; split <;> rfl
@[simp] theorem goto_seq (p : Pos) (s : State) (w : Word) (q : Pos) (h : s.seq = .run w q) :
    (goto p s).seq = .run w p := by simp [goto, h]
@[simp] theorem goto_trace (p : Pos) (s : State) : (goto p s).trace = s.trace := by unfold goto; split <;> rfl
@[simp] theorem goto_mem (p : Pos) (s : State) : (goto p s).mem = s.mem := by unfold goto; split <;> rfl
@[simp] theorem goto_inputs (p : Pos) (s : State) : (goto p s).inputs = s.inputs := by unfold goto; split <;> rfl
@[simp] theorem goto_host (p : Pos) (s : State) : (goto p s).host = s.host := by unfold goto; split <;> rfl
@[simp] theorem goto_turns (p : Pos) (s : State) : (goto p s).turns = s.turns := by unfold goto; split <;> rfl
@[simp] theorem goto_params (p : Pos) (s : State) : (goto p s).params = s.params := by unfold goto; split <;> rfl

/-! A host read of a register and of a buffer byte: only the counter of free draws may move (R71, R281). -/

@[simp] theorem hostLoad_regs (r : Reg) (s : State) : (hostLoad r s).2.regs = s.regs := by
  unfold hostLoad; split <;> rfl
@[simp] theorem hostLoad_seq (r : Reg) (s : State) : (hostLoad r s).2.seq = s.seq := by
  unfold hostLoad; split <;> rfl
@[simp] theorem hostLoad_trace (r : Reg) (s : State) : (hostLoad r s).2.trace = s.trace := by
  unfold hostLoad; split <;> rfl
@[simp] theorem hostLoad_mem (r : Reg) (s : State) : (hostLoad r s).2.mem = s.mem := by
  unfold hostLoad; split <;> rfl
@[simp] theorem hostLoad_host (r : Reg) (s : State) : (hostLoad r s).2.host = s.host := by
  unfold hostLoad; split <;> rfl
@[simp] theorem hostLoad_turns (r : Reg) (s : State) : (hostLoad r s).2.turns = s.turns := by
  unfold hostLoad; split <;> rfl
@[simp] theorem hostLoad_params (r : Reg) (s : State) : (hostLoad r s).2.params = s.params := by
  unfold hostLoad; split <;> rfl
@[simp] theorem hostLoad_card (r : Reg) (s : State) : (hostLoad r s).2.inputs.card = s.inputs.card := by
  unfold hostLoad; split <;> rfl
@[simp] theorem hostLoad_clock (r : Reg) (s : State) : (hostLoad r s).2.inputs.clock = s.inputs.clock := by
  unfold hostLoad; split <;> rfl

@[simp] theorem bufLoad_regs (a : Word) (s : State) : (bufLoad a s).2.regs = s.regs := by
  unfold bufLoad; split <;> rfl
@[simp] theorem bufLoad_seq (a : Word) (s : State) : (bufLoad a s).2.seq = s.seq := by
  unfold bufLoad; split <;> rfl
@[simp] theorem bufLoad_trace (a : Word) (s : State) : (bufLoad a s).2.trace = s.trace := by
  unfold bufLoad; split <;> rfl
@[simp] theorem bufLoad_mem (a : Word) (s : State) : (bufLoad a s).2.mem = s.mem := by
  unfold bufLoad; split <;> rfl
@[simp] theorem bufLoad_host (a : Word) (s : State) : (bufLoad a s).2.host = s.host := by
  unfold bufLoad; split <;> rfl
@[simp] theorem bufLoad_turns (a : Word) (s : State) : (bufLoad a s).2.turns = s.turns := by
  unfold bufLoad; split <;> rfl
@[simp] theorem bufLoad_params (a : Word) (s : State) : (bufLoad a s).2.params = s.params := by
  unfold bufLoad; split <;> rfl
@[simp] theorem bufLoad_card (a : Word) (s : State) : (bufLoad a s).2.inputs.card = s.inputs.card := by
  unfold bufLoad; split <;> rfl
@[simp] theorem bufLoad_clock (a : Word) (s : State) : (bufLoad a s).2.inputs.clock = s.inputs.clock := by
  unfold bufLoad; split <;> rfl

/-- On a running operation, going to a point is setting SEQ there. -/
theorem goto_of_run {s : State} {w : Word} {q : Pos} (p : Pos) (h : s.seq = .run w q) :
    goto p s = { s with seq := .run w p } := by simp [goto, h]

/-- `finish()` is `raise NONE(NONE)` (R11). -/
theorem finish_eq_endOp (s : State) : finish s = endOp .none .none s := rfl

end Sys2Proof.Machine
end

