-- ==== Sys2Proof/Laws/Memory.lean ====
section
/-! SUPPORT. Buffer memory: read after write, other addresses, and that every write keeps the canonical form
(20_memory.md R61, R66). -/

namespace Sys2Proof.Machine

/-- A memory whose entries start at `lo` also has the form from any lower address on. -/
theorem Memory.wfFrom_mono : ∀ {m : Memory} {lo hi : Nat}, lo ≤ hi → Memory.wfFrom hi m = true →
    Memory.wfFrom lo m = true
  | [], _, _, _, _ => rfl
  | (k, b) :: m, lo, hi, h, hm => by
    simp only [Memory.wfFrom, Bool.and_eq_true, decide_eq_true_eq] at hm ⊢
    exact ⟨⟨⟨by omega, hm.1.1.2⟩, hm.1.2⟩, hm.2⟩

/-- An address below the first entry reads as unlisted. -/
theorem Memory.read_of_lt : ∀ {m : Memory} {lo a : Nat}, Memory.wfFrom lo m = true → a < lo →
    Memory.read m a = unlistedByte
  | [], _, _, _, _ => rfl
  | (k, b) :: m, lo, a, hm, h => by
    simp only [Memory.wfFrom, Bool.and_eq_true, decide_eq_true_eq] at hm
    rw [Memory.read, if_neg (by omega)]
    exact Memory.read_of_lt hm.2 (by omega)

/-- A byte written is read back. -/
theorem Memory.read_write_same : ∀ {m : Memory} {lo : Nat} (a : Nat) (v : Byte), Memory.wfFrom lo m = true →
    Memory.read (Memory.write m a v) a = v
  | [], _, a, v, _ => by
    unfold Memory.write
    split <;> simp_all [Memory.read]
  | (k, b) :: m, lo, a, v, hm => by
    simp only [Memory.wfFrom, Bool.and_eq_true, decide_eq_true_eq] at hm
    have hlow : a ≤ k → Memory.read m a = unlistedByte := fun h => Memory.read_of_lt hm.2 (by omega)
    unfold Memory.write
    split
    · split
      · rename_i hv
        rw [Memory.read, if_neg (by omega), hlow (by omega), hv]
      · rw [Memory.read, if_pos rfl]
    · split
      · split <;> simp_all [Memory.read]
      · rw [Memory.read, if_neg (by omega)]
        exact Memory.read_write_same a v hm.2

/-- A write leaves every other address alone, in every memory. -/
theorem Memory.read_write_other : ∀ (m : Memory) (a : Nat) (v : Byte) {x : Nat}, x ≠ a →
    Memory.read (Memory.write m a v) x = Memory.read m x
  | [], a, v, x, h => by
    unfold Memory.write
    split <;> simp [Memory.read, Ne.symm h]
  | (k, b) :: m, a, v, x, h => by
    unfold Memory.write
    split
    · split <;> simp [Memory.read, Ne.symm h]
    · split
      · rename_i hk
        split <;> simp [Memory.read, ← hk, Ne.symm h]
      · simp only [Memory.read]
        rw [Memory.read_write_other m a v h]

/-- A write keeps the canonical form. -/
theorem Memory.wfFrom_write : ∀ {m : Memory} {lo : Nat} (a : Nat) (v : Byte), Memory.wfFrom lo m = true → lo ≤ a →
    a < 2 ^ 32 → Memory.wfFrom lo (Memory.write m a v) = true
  | [], lo, a, v, _, hl, ha => by
    unfold Memory.write
    split <;> simp_all [Memory.wfFrom]
  | (k, b) :: m, lo, a, v, hm, hl, ha => by
    have hm' := hm
    simp only [Memory.wfFrom, Bool.and_eq_true, decide_eq_true_eq] at hm
    obtain ⟨⟨⟨hlk, hk⟩, hb⟩, ht⟩ := hm
    unfold Memory.write
    split
    · split
      · exact hm'
      · simp_all [Memory.wfFrom]
    · split
      · split
        · exact Memory.wfFrom_mono (by omega) ht
        · simp_all [Memory.wfFrom]
      · have := Memory.wfFrom_write a v ht (by omega) ha
        simp_all [Memory.wfFrom]

/-- Every write of the machine keeps the canonical form: a buffer address has 32 bits (R61). -/
theorem Memory.wf_write {m : Memory} (a : Word) (v : Byte) (h : Memory.wf m = true) :
    Memory.wf (Memory.write m a.toNat v) = true :=
  Memory.wfFrom_write a.toNat v h (Nat.zero_le _) a.isLt

/-- A byte written to a memory in canonical form is read back. -/
theorem Memory.read_write_of_wf {m : Memory} (a : Nat) (v : Byte) (h : Memory.wf m = true) :
    Memory.read (Memory.write m a v) a = v :=
  Memory.read_write_same a v h

/-- Reset's memory lists nothing and has the canonical form (R43). -/
theorem State.reset_mem_wf : Memory.wf State.reset.mem = true := rfl

/-- The empty memory reads as unlisted everywhere. -/
@[simp] theorem Memory.read_nil (a : Nat) : Memory.read [] a = unlistedByte := rfl

/-- Two memories in canonical form that read alike at every address are the same data. -/
theorem Memory.ext_of_wfFrom : ∀ {m n : Memory} {lo : Nat}, Memory.wfFrom lo m = true → Memory.wfFrom lo n = true →
    (∀ a, Memory.read m a = Memory.read n a) → m = n
  | [], [], _, _, _, _ => rfl
  | [], (k, b) :: n, _, _, hn, h => by
    simp only [Memory.wfFrom, Bool.and_eq_true, decide_eq_true_eq, bne_iff_ne] at hn
    have := h k
    simp [Memory.read] at this
    exact absurd this.symm hn.1.2
  | (k, b) :: m, [], _, hm, _, h => by
    simp only [Memory.wfFrom, Bool.and_eq_true, decide_eq_true_eq, bne_iff_ne] at hm
    have := h k
    simp [Memory.read] at this
    exact absurd this hm.1.2
  | (k, b) :: m, (l, c) :: n, lo, hm, hn, h => by
    simp only [Memory.wfFrom, Bool.and_eq_true, decide_eq_true_eq, bne_iff_ne] at hm hn
    obtain ⟨⟨⟨_, _⟩, hb⟩, hm⟩ := hm
    obtain ⟨⟨⟨_, _⟩, hc⟩, hn⟩ := hn
    have hkl : k = l := by
      rcases Nat.lt_trichotomy k l with hlt | heq | hgt
      · have := h k
        rw [Memory.read, if_pos rfl, Memory.read, if_neg (by omega), Memory.read_of_lt hn (by omega)] at this
        exact absurd this hb
      · exact heq
      · have := h l
        rw [Memory.read, if_neg (by omega), Memory.read_of_lt hm (by omega), Memory.read, if_pos rfl] at this
        exact absurd this.symm hc
    subst hkl
    have hbc : b = c := by simpa [Memory.read] using h k
    subst hbc
    have htl : m = n := by
      apply Memory.ext_of_wfFrom hm hn
      intro a
      by_cases ha : a = k
      · subst ha
        rw [Memory.read_of_lt hm (by omega), Memory.read_of_lt hn (by omega)]
      · have := h a
        simpa [Memory.read, Ne.symm ha] using this
    rw [htl]

end Sys2Proof.Machine
end

