-- ==== Sys2Proof/Laws/Ops.lean ====
section
/-! SUPPORT. One lemma per shared operation that says once everything it can do: the events, the buffer accesses, how a
meaning is entered, and one event of each helper procedure. Later proofs cite these and unfold no operation. -/

namespace Sys2Proof.Machine

/-! ### Events -/

/-- A state after one event, with the inputs still to come (R11). -/
def State.after (s : State) (e : Event) (n : Inputs) : State := { s with inputs := n, trace := s.trace ++ [e] }

@[simp] theorem State.after_regs (s : State) (e : Event) (n : Inputs) : (s.after e n).regs = s.regs := rfl
@[simp] theorem State.after_seq (s : State) (e : Event) (n : Inputs) : (s.after e n).seq = s.seq := rfl
@[simp] theorem State.after_trace (s : State) (e : Event) (n : Inputs) : (s.after e n).trace = s.trace ++ [e] := rfl
@[simp] theorem State.after_mem (s : State) (e : Event) (n : Inputs) : (s.after e n).mem = s.mem := rfl
@[simp] theorem State.after_inputs (s : State) (e : Event) (n : Inputs) : (s.after e n).inputs = n := rfl
@[simp] theorem State.after_host (s : State) (e : Event) (n : Inputs) : (s.after e n).host = s.host := rfl
@[simp] theorem State.after_turns (s : State) (e : Event) (n : Inputs) : (s.after e n).turns = s.turns := rfl
@[simp] theorem State.after_params (s : State) (e : Event) (n : Inputs) : (s.after e n).params = s.params := rfl

/-- An exchange is one event, and changes nothing but the trace and the inputs (R11). -/
theorem xchg_eq (t : Byte) (s : State) :
    xchg t s = ((drawCard s.inputs).1, s.after (.xchg t (drawCard s.inputs).1) (drawCard s.inputs).2) := rfl

/-- A reading of the time input is one event, and changes nothing but the trace and the inputs (R11). -/
theorem now_eq (s : State) :
    now s = ((drawTime s.inputs).1, s.after (.now (drawTime s.inputs).1) (drawTime s.inputs).2) := rfl

/-- An exchange is one event, whatever the card answers. -/
theorem xchg_spec (t : Byte) (s : State) : ∃ b n, xchg t s = (b, s.after (.xchg t b) n) := ⟨_, _, rfl⟩

/-- A reading of the time input is one event, whatever its value. -/
theorem now_spec (s : State) : ∃ u n, now s = (u, s.after (.now u) n) := ⟨_, _, rfl⟩

/-- An exchange whose answer is scripted. -/
theorem xchg_of_card {s : State} {b : Byte} {card : List Byte} (t : Byte) (h : s.inputs.card = b :: card) :
    xchg t s = (b, s.took t b card) := by
  simp [xchg_eq, drawCard, h, State.after, State.took]

/-- A reading that is scripted. -/
theorem now_of_clock {s : State} {t : Word} {clock : List Word} (h : s.inputs.clock = t :: clock) :
    now s = (t, s.timed t clock) := by
  simp [now_eq, drawTime, h, State.after, State.timed]

/-! ### Buffer memory -/

/-- A buffer read that answers: the memory admits it, the byte is memory's, and it is one event (R11, R61). -/
theorem memRead_next {a : Word} {s : State} {d : Byte × State} (h : memRead a s = .next d) :
    admits s.params a = true ∧
      d = (Memory.read s.mem a.toNat, s.after (.memRead a (Memory.read s.mem a.toNat)) s.inputs) := by
  unfold memRead at h
  split at h
  · simp only [Host.Outcome.next.injEq] at h
    exact ⟨‹_›, h.symm⟩
  · unfold memStop at h
    split at h <;> simp at h

/-- A buffer write that answers: the memory admits it, one byte is stored, and it is one event (R11, R61). -/
theorem memWrite_next {a : Word} {v : Byte} {s t : State} (h : memWrite a v s = .next t) :
    admits s.params a = true ∧
      t = { s with mem := Memory.write s.mem a.toNat v, trace := s.trace ++ [.memWrite a v] } := by
  unfold memWrite at h
  split at h
  · simp only [Host.Outcome.next.injEq] at h
    exact ⟨‹_›, h.symm⟩
  · unfold memStop at h
    split at h <;> simp at h

/-- A buffer read of an address the memory admits. -/
theorem memRead_of_admits {a : Word} {s : State} (h : admits s.params a = true) :
    memRead a s =
      .next (Memory.read s.mem a.toNat, s.after (.memRead a (Memory.read s.mem a.toNat)) s.inputs) := by
  simp only [memRead, h, if_true]; rfl

/-- A buffer write to an address the memory admits. -/
theorem memWrite_of_admits {a : Word} {s : State} (v : Byte) (h : admits s.params a = true) :
    memWrite a v s =
      .next { s with mem := Memory.write s.mem a.toNat v, trace := s.trace ++ [.memWrite a v] } := by
  simp only [memWrite, h, if_true]; rfl

/-- What a buffer access does that the memory does not admit: no step (R61, R243). -/
theorem memStop_not_next {α : Type} (p : Params) (a : α) : memStop p ≠ .next a := by
  unfold memStop; split <;> simp

/-! ### Entering a meaning -/

/-- On an idle block a meaning accepts its own word and starts (R240). -/
theorem enter_idle {i : Instr} {s : State} (body : Pos → State → Out State) (h : s.seq = .idle) :
    enter i s body = body .start (accept (encode i) s) := by simp [enter, h]

/-- On a block that runs its word a meaning goes on at the point SEQ holds (R21). -/
theorem enter_at {i : Instr} {s : State} {p : Pos} (body : Pos → State → Out State) (h : s.At i p) :
    enter i s body = body p s := by
  have h' : s.seq = .run (encode i) p := h
  simp [enter, h']

/-- A meaning that answers was entered in one of these two ways. -/
theorem enter_next {i : Instr} {s t : State} {body : Pos → State → Out State} (h : enter i s body = .next t) :
    (s.seq = .idle ∧ body .start (accept (encode i) s) = .next t) ∨ ∃ p, s.At i p ∧ body p s = .next t := by
  unfold enter at h
  split at h
  · exact .inl ⟨‹_›, h⟩
  · split at h
    · rename_i w p hs hw
      exact .inr ⟨p, by rw [State.At, hs, hw], h⟩
    · simp at h

/-- Going on with a step that answered. -/
@[simp] theorem onNext_next {α β : Type} (a : α) (f : α → Out β) : onNext (.next a) f = f a := rfl

/-- What goes on has answered first. -/
theorem onNext_eq_next {α β : Type} {o : Out α} {f : α → Out β} {b : β} (h : onNext o f = .next b) :
    ∃ a, o = .next a ∧ f a = .next b := by
  unfold onNext at h
  split at h <;> simp_all

/-! ### The helper procedures -/

/-- One event of the bus-ready wait: whatever the point, the state after it is the one after that event (R131). -/
theorem waitReadyStep_state (T : Word) (p : WaitPos) (s : State) :
    ∃ e n, (waitReadyStep T p s).2 = s.after e n := by
  cases p <;> exact ⟨_, _, rfl⟩

/-- One event of the start-token detector: the state after it, and what it can return (R170). -/
theorem waitTokenStep_spec (T : Word) (p : TokenPos) (s : State) :
    (∃ e n, (waitTokenStep T p s).2 = s.after e n) ∧
      ∀ c, (waitTokenStep T p s).1 = .ret c → c ∈ [Cause.none, .badToken, .tokenTimeout] := by
  cases p
  · exact ⟨⟨_, _, rfl⟩, by simp [waitTokenStep]⟩
  · refine ⟨⟨_, _, rfl⟩, ?_⟩
    simp only [waitTokenStep]
    split
    · simp
    · split <;> simp
  · refine ⟨⟨_, _, rfl⟩, ?_⟩
    simp only [waitTokenStep]
    split <;> simp

/-- What RESPX holds for a class: nothing for R1 and R1b, one byte for R2 (R30). -/
def respxOk (rt : RespType) (x : Word) : Prop :=
  ((rt = .r1 ∨ rt = .r1b) → x = 0) ∧ (rt = .r2 → x.toNat < 256)

/-- The state after one event of a command that goes on: as the event leaves it, or with the R1 of an R1b stored. -/
def cmdWent (c : CmdCall) (s t : State) (e : Event) (n : Inputs) : Prop :=
  t = s.after e n ∨
    (c.rt = .r1b ∧ ∃ r, isResponse r = true ∧ t = putResp 0 r 0 (s.after e n))

/-- The state after the event in which a command returns (R134). -/
def cmdReturned (c : CmdCall) (s t : State) (e : Event) (n : Inputs) : Cause → Prop
  | .none =>
    (c.rt ≠ .r1b ∧ ∃ r x, isResponse r = true ∧ respxOk c.rt x ∧ t = putResp (nextra c.rt) r x (s.after e n)) ∨
      (c.rt = .r1b ∧ t = s.after e n)
  | .notReady => c.chk = true ∧ t = s.after e n
  | .respNotFound => t = s.after e n
  | .busyTimeout => c.rt = .r1b ∧ t = s.after e n
  | _ => False

/-- What one event of a command can do. -/
def cmdMoved (c : CmdCall) (s : State) (d : Progress CmdPos Cause × State) : Prop :=
  ∃ e n, match d.1 with
    | .more q => q.Ok s.params c ∧ cmdWent c s d.2 e n
    | .ret k => cmdReturned c s d.2 e n k

/-- The search may start: the budget is at least 8 (R8). -/
theorem respPollMax_pos (m : PollMax) : 0 < m.toNat := by cases m <;> simp [PollMax.toNat]

/-- The point after the last frame byte is one the call can reach (R134). -/
theorem afterFrame_ok (c : CmdCall) (p : Params) : (afterFrame c).Ok p c := by
  unfold afterFrame
  split
  · exact respPollMax_pos _
  · simp only [CmdPos.Ok]; omega

/-- Dropping the first of at least two bytes leaves a suffix of the frame. -/
theorem suffix_of_cons {α : Type} {b b' : α} {r l : List α} (h : (b :: b' :: r) <:+ l) : (b' :: r) <:+ l :=
  (List.suffix_cons b (b' :: r)).trans h

/-- The extra byte of an R2 fills RESPX alone. -/
theorem respx_first_byte (b : Byte) : (((0 : Word) <<< 8) ||| b.setWidth 32).toNat < 256 := by
  have := b.isLt
  simp [BitVec.toNat_setWidth]
  omega

/-- A command that goes on. -/
theorem cmdMoved_more {c : CmdCall} {s t : State} {q : CmdPos} {e : Event} {n : Inputs} (hq : q.Ok s.params c)
    (ht : cmdWent c s t e n) : cmdMoved c s (.more q, t) := ⟨e, n, hq, ht⟩

/-- A command that returns. -/
theorem cmdMoved_ret {c : CmdCall} {s t : State} {k : Cause} {e : Event} {n : Inputs}
    (ht : cmdReturned c s t e n k) : cmdMoved c s (.ret k, t) := ⟨e, n, ht⟩

/-- What storing a whole response does (R134). -/
theorem storeResp_moved {c : CmdCall} {r : Byte} {x : Word} {s : State} (e : Event) (n : Inputs)
    (hr : isResponse r = true) (hx : respxOk c.rt x) : cmdMoved c s (storeResp c r x (s.after e n)) := by
  unfold storeResp
  by_cases h : c.rt = .r1b
  · rw [if_pos h, hx.1 (.inr h), h]
    exact cmdMoved_more h (.inr ⟨h, r, hr, rfl⟩)
  · rw [if_neg h]
    exact cmdMoved_ret (.inl ⟨h, r, x, hr, hx, rfl⟩)

/-- One event of `command` from a point it can reach: it stays at such a point or returns one of its four results, and
RESP and RESPX are written only when a response has been collected (R134). -/
theorem commandStep_spec {c : CmdCall} {p : CmdPos} {s : State} (hp : p.Ok s.params c) :
    cmdMoved c s (commandStep c p s) := by
  cases p with
  | probe =>
    obtain ⟨rx, n, hx⟩ := xchg_spec filler s
    simp only [commandStep, hx]
    by_cases h : busReady rx = true
    · rw [if_pos h]; exact cmdMoved_more List.suffix_rfl (.inl rfl)
    · rw [if_neg h]; exact cmdMoved_ret ⟨hp, rfl⟩
  | frame b rest =>
    obtain ⟨rx, n, hx⟩ := xchg_spec b s
    simp only [commandStep, hx]
    cases rest with
    | nil => exact cmdMoved_more (afterFrame_ok c s.params) (.inl rfl)
    | cons b' rest' => exact cmdMoved_more (suffix_of_cons hp) (.inl rfl)
  | stuff more =>
    obtain ⟨rx, n, hx⟩ := xchg_spec filler s
    simp only [commandStep, hx]
    simp only [CmdPos.Ok] at hp
    cases more with
    | zero => exact cmdMoved_more (respPollMax_pos _) (.inl rfl)
    | succ m => exact cmdMoved_more (by simp only [CmdPos.Ok]; omega) (.inl rfl)
  | search k =>
    obtain ⟨rx, n, hx⟩ := xchg_spec filler s
    simp only [commandStep, hx, State.after_params]
    by_cases hr : isResponse rx = true
    · rw [if_pos hr]
      cases hm : nextra c.rt with
      | zero => simpa only [afterFound, hm] using storeResp_moved _ _ hr ⟨fun _ => rfl, fun _ => by simp⟩
      | succ m =>
        simp only [afterFound, hm]
        exact cmdMoved_more ⟨hr, by rw [hm]; omega, fun _ => rfl⟩ (.inl rfl)
    · rw [if_neg hr]
      by_cases hk : k + 1 < s.params.respPollMax.toNat
      · rw [if_pos hk]; exact cmdMoved_more hk (.inl rfl)
      · rw [if_neg hk]; exact cmdMoved_ret rfl
  | extra r x more =>
    obtain ⟨rx, n, h⟩ := xchg_spec filler s
    simp only [commandStep, h]
    obtain ⟨hr, hm, hx⟩ := hp
    cases more with
    | zero =>
      refine storeResp_moved _ _ hr ⟨fun h => ?_, fun h => ?_⟩
      · rcases h with h | h <;> simp [h, nextra] at hm
      · rw [hx h]; exact respx_first_byte _
    | succ m =>
      refine cmdMoved_more ⟨hr, by omega, fun h => ?_⟩ (.inl rfl)
      simp [h, nextra] at hm
  | busy w =>
    obtain ⟨e, n, h⟩ := waitReadyStep_state c.tbusy w s
    simp only [commandStep, h]
    cases (waitReadyStep c.tbusy w s).1 with
    | more w' => exact cmdMoved_more hp (.inl rfl)
    | ret b => cases b with
      | true => exact cmdMoved_ret (.inr ⟨hp, rfl⟩)
      | false => exact cmdMoved_ret ⟨hp, rfl⟩

/-- One event of `command` from any point: the state after the event, or with a response stored in it (R134). -/
theorem commandStep_state (c : CmdCall) (p : CmdPos) (s : State) :
    ∃ e n, (commandStep c p s).2 = s.after e n ∨
      ∃ r x, (commandStep c p s).2 = putResp (nextra c.rt) r x (s.after e n) := by
  cases p with
  | probe => exact ⟨_, _, .inl rfl⟩
  | frame b rest => exact ⟨_, _, .inl rfl⟩
  | stuff more => exact ⟨_, _, .inl rfl⟩
  | search k =>
    obtain ⟨rx, n, hx⟩ := xchg_spec filler s
    simp only [commandStep, hx]
    refine ⟨.xchg filler rx, n, ?_⟩
    by_cases hr : isResponse rx = true
    · rw [if_pos hr]
      unfold afterFound
      split
      · exact .inr ⟨_, _, rfl⟩
      · exact .inl rfl
    · rw [if_neg hr]
      exact .inl rfl
  | extra r x more =>
    obtain ⟨rx, n, hx⟩ := xchg_spec filler s
    simp only [commandStep, hx]
    refine ⟨.xchg filler rx, n, ?_⟩
    cases more with
    | zero => exact .inr ⟨_, _, rfl⟩
    | succ m => exact .inl rfl
  | busy w =>
    obtain ⟨e, n, h⟩ := waitReadyStep_state c.tbusy w s
    exact ⟨e, n, .inl (by simpa only [commandStep] using h)⟩

/-- What one event of a read packet can do: the state after the event, with one payload byte stored when the point is a
store; a further point of the packet, or one of its three results (R172, R174). -/
def readMoved (len : Nat) (base : Word) (p : ReadPos) (s : State) (d : Progress ReadPos Cause × State) : Prop :=
  ((∃ e n, (∀ j b, p ≠ .store j b) ∧ d.2 = s.after e n) ∨
    ∃ j b, p = .store j b ∧ admits s.params (byteAddr base j) = true ∧
      d.2 = { s with mem := Memory.write s.mem (byteAddr base j).toNat b,
                     trace := s.trace ++ [.memWrite (byteAddr base j) b] }) ∧
    match d.1 with
    | .more q => p.Ok len → q.Ok len
    | .ret c => c ∈ [Cause.none, .badToken, .tokenTimeout] ∧ ∃ e n, d.2 = s.after e n

/-- The next payload byte, or the CRC bytes: a point of the packet (R172). -/
theorem recvFrom_ok (len j : Nat) : (recvFrom len j).Ok len := by
  unfold recvFrom
  split
  · exact ‹_›
  · trivial

/-- One event of `read_packet` (R172). -/
theorem readPacketStep_spec {len : Nat} {base T : Word} {p : ReadPos} {s : State} {d : Progress ReadPos Cause × State}
    (h : readPacketStep len base T p s = .next d) : readMoved len base p s d := by
  cases p with
  | token q =>
    obtain ⟨⟨e, n, hs⟩, hc⟩ := waitTokenStep_spec T q s
    simp only [readPacketStep, Host.Outcome.next.injEq] at h
    subst h
    refine ⟨.inl ⟨e, n, by simp, hs⟩, ?_⟩
    cases hd : (waitTokenStep T q s).1 with
    | more q' => exact fun _ => trivial
    | ret c =>
      have := hc c hd
      cases c <;> first | exact fun _ => recvFrom_ok len 0 | exact ⟨this, e, n, hs⟩
  | recv j =>
    simp only [readPacketStep, Host.Outcome.next.injEq] at h
    subst h
    exact ⟨.inl ⟨_, _, by simp, rfl⟩, fun hp => hp⟩
  | store j b =>
    simp only [readPacketStep] at h
    obtain ⟨s', hw, h⟩ := onNext_eq_next h
    obtain ⟨ha, rfl⟩ := memWrite_next hw
    simp only [Host.Outcome.next.injEq] at h
    subst h
    exact ⟨.inr ⟨j, b, rfl, ha, rfl⟩, fun _ => recvFrom_ok len (j + 1)⟩
  | crc1 =>
    simp only [readPacketStep, Host.Outcome.next.injEq] at h
    subst h
    exact ⟨.inl ⟨_, _, by simp, rfl⟩, fun _ => trivial⟩
  | crc2 =>
    simp only [readPacketStep, Host.Outcome.next.injEq] at h
    subst h
    exact ⟨.inl ⟨_, _, by simp, rfl⟩, by simp, _, _, rfl⟩

/-- What one event of a write packet can do: memory is only read; a further point of the packet, or one of its three
results (R177). -/
def writeMoved (p : WritePos) (s : State) (d : Progress WritePos Cause × State) : Prop :=
  (∃ e n, d.2 = s.after e n) ∧
    match d.1 with
    | .more q => p.Ok → q.Ok
    | .ret c => c ∈ [Cause.none, .busyTimeout, .dataRejected]

/-- The next payload byte, or the dummy CRC bytes: a point of the packet (R177). -/
theorem fetchFrom_ok (j : Nat) : (fetchFrom j).Ok := by
  unfold fetchFrom
  split
  · exact ‹_›
  · trivial

/-- One event of `write_packet` (R177). -/
theorem writePacketStep_spec {tok : Byte} {base T : Word} {p : WritePos} {s : State}
    {d : Progress WritePos Cause × State} (h : writePacketStep tok base T p s = .next d) : writeMoved p s d := by
  cases p with
  | ready q =>
    obtain ⟨e, n, hs⟩ := waitReadyStep_state T q s
    simp only [writePacketStep, Host.Outcome.next.injEq] at h
    subst h
    refine ⟨⟨e, n, hs⟩, ?_⟩
    cases (waitReadyStep T q s).1 with
    | more q' => exact fun _ => trivial
    | ret b => cases b <;> simp [WritePos.Ok]
  | token =>
    simp only [writePacketStep, Host.Outcome.next.injEq] at h
    subst h
    exact ⟨⟨_, _, rfl⟩, fun _ => fetchFrom_ok 0⟩
  | fetch j =>
    simp only [writePacketStep] at h
    obtain ⟨d', hr, h⟩ := onNext_eq_next h
    obtain ⟨_, rfl⟩ := memRead_next hr
    simp only [Host.Outcome.next.injEq] at h
    subst h
    exact ⟨⟨_, _, rfl⟩, fun hp => hp⟩
  | send j b =>
    simp only [writePacketStep, Host.Outcome.next.injEq] at h
    subst h
    exact ⟨⟨_, _, rfl⟩, fun _ => fetchFrom_ok (j + 1)⟩
  | crc1 =>
    simp only [writePacketStep, Host.Outcome.next.injEq] at h
    subst h
    exact ⟨⟨_, _, rfl⟩, fun _ => trivial⟩
  | crc2 =>
    simp only [writePacketStep, Host.Outcome.next.injEq] at h
    subst h
    exact ⟨⟨_, _, rfl⟩, fun _ => trivial⟩
  | resp =>
    obtain ⟨rx, n, hx⟩ := xchg_spec filler s
    simp only [writePacketStep, hx, Host.Outcome.next.injEq] at h
    subst h
    refine ⟨⟨_, _, rfl⟩, ?_⟩
    dsimp only
    split <;> simp

/-- What one event of the stop sequence can do (R179). -/
def stopMoved (s : State) (d : Progress StopPos Cause × State) : Prop :=
  (∃ e n, d.2 = s.after e n) ∧
    match d.1 with
    | .more q => q.Ok s.params
    | .ret c => c ∈ [Cause.none, .busyTimeout]

/-- The skip bytes still to follow, or the second wait: a point of the sequence (R179). -/
theorem skipFrom_ok (w1 : Bool) {k : Nat} {p : Params} (h : k ≤ p.stopTranSkip) : (skipFrom w1 k).Ok p := by
  cases k with
  | zero => trivial
  | succ m => exact h

/-- One event of `stop_write`, from a point it can reach (R179). -/
theorem stopWriteStep_spec {T : Word} {p : StopPos} {s : State} (hp : p.Ok s.params) :
    stopMoved s (stopWriteStep T p s) := by
  cases p with
  | ready1 q =>
    obtain ⟨e, n, hs⟩ := waitReadyStep_state T q s
    simp only [stopWriteStep]
    refine ⟨⟨e, n, hs⟩, ?_⟩
    cases (waitReadyStep T q s).1 <;> trivial
  | token w1 =>
    obtain ⟨rx, n, hx⟩ := xchg_spec stopToken s
    simp only [stopWriteStep, hx]
    exact ⟨⟨_, _, rfl⟩, skipFrom_ok w1 (Nat.le_refl _)⟩
  | skip w1 more =>
    exact ⟨⟨_, _, rfl⟩, skipFrom_ok w1 (Nat.le_of_lt hp)⟩
  | ready2 w1 q =>
    obtain ⟨e, n, hs⟩ := waitReadyStep_state T q s
    simp only [stopWriteStep]
    refine ⟨⟨e, n, hs⟩, ?_⟩
    cases (waitReadyStep T q s).1 with
    | more q' => trivial
    | ret b => cases b <;> cases w1 <;> simp

/-- One event of `stop_write` from any point: the state after the event (R179). -/
theorem stopWriteStep_state (T : Word) (p : StopPos) (s : State) : ∃ e n, (stopWriteStep T p s).2 = s.after e n := by
  cases p with
  | ready1 q => exact waitReadyStep_state T q s
  | token w1 => exact ⟨_, _, rfl⟩
  | skip w1 more => exact ⟨_, _, rfl⟩
  | ready2 w1 q => exact waitReadyStep_state T q s

/-- What one event of a data command can do: nothing but the event, the frame built and RESP cleared when the wait before
it ends ready, or the R1 stored (R202). -/
def dataCmdState (idx : BitVec 6) (s t : State) : Prop :=
  ∃ e n, t = s.after e n ∨ t = clearResp (buildFrame idx (cardAddr s.regs) (s.after e n)) ∨
    ∃ r x, t = putResp 0 r x (s.after e n)

/-- One event of `seq_command` from any point (R202). -/
theorem seqCommandStep_state (idx : BitVec 6) (p : SeqCmdPos) (s : State) :
    dataCmdState idx s (seqCommandStep idx p s).2 := by
  cases p with
  | ready q =>
    obtain ⟨e, n, hs⟩ := waitReadyStep_state s.regs.tmoBusy q s
    refine ⟨e, n, ?_⟩
    simp only [seqCommandStep]
    cases hd : (waitReadyStep s.regs.tmoBusy q s).1 with
    | more q' => exact .inl hs
    | ret b => cases b with
      | true => exact .inr (.inl (by simp only [commandStart, hs]; rfl))
      | false => exact .inl hs
  | cmd q =>
    obtain ⟨e, n, hs | ⟨r, x, hs⟩⟩ := commandStep_state (dataCall idx s.regs) q s
    · exact ⟨e, n, .inl hs⟩
    · exact ⟨e, n, .inr (.inr ⟨r, x, hs⟩)⟩

/-- What a data command can return, and the points it goes on to, from a point it can reach (R202, R203). -/
theorem seqCommandStep_spec {idx : BitVec 6} {p : SeqCmdPos} {s : State} (hp : p.Ok s.params (dataCall idx s.regs)) :
    (∃ e n, (seqCommandStep idx p s).2 = s.after e n ∨
      (seqCommandStep idx p s).2 = clearResp (buildFrame idx (cardAddr s.regs) (s.after e n)) ∨
      ∃ r, isResponse r = true ∧ (seqCommandStep idx p s).2 = putResp 0 r 0 (s.after e n)) ∧
    match (seqCommandStep idx p s).1 with
    | .more q => q.Ok s.params (dataCall idx s.regs)
    | .ret c => c ∈ [Cause.none, .notReady, .respNotFound, .r1Error] ∧
        (c = .none → (seqCommandStep idx p s).2.regs.byte0 = 0x00) := by
  cases p with
  | ready q =>
    obtain ⟨e, n, hs⟩ := waitReadyStep_state s.regs.tmoBusy q s
    simp only [seqCommandStep]
    cases hd : (waitReadyStep s.regs.tmoBusy q s).1 with
    | more q' => exact ⟨⟨e, n, .inl hs⟩, trivial⟩
    | ret b => cases b with
      | true =>
        refine ⟨⟨e, n, .inr (.inl (by simp only [commandStart, hs]; rfl))⟩, ?_⟩
        simp only [commandStart]
        exact List.suffix_rfl
      | false => exact ⟨⟨e, n, .inl hs⟩, by simp⟩
  | cmd q =>
    have hspec := commandStep_spec hp
    simp only [seqCommandStep]
    obtain ⟨e, n, h⟩ := hspec
    cases hd : (commandStep (dataCall idx s.regs) q s).1 with
    | more q' =>
      rw [hd] at h
      obtain ⟨hq, hs | ⟨hb, _⟩⟩ := h
      · exact ⟨⟨e, n, .inl hs⟩, hq⟩
      · cases hb
    | ret k =>
      rw [hd] at h
      cases k with
      | none =>
        rcases h with ⟨_, r, x, hr, hx, hs⟩ | ⟨hb, _⟩
        · have hx0 : x = 0 := hx.1 (.inl rfl)
          refine ⟨⟨e, n, .inr (.inr ⟨r, hr, by rw [hs, hx0]; rfl⟩)⟩, ?_⟩
          dsimp only
          split <;> simp_all
        · cases hb
      | respNotFound => exact ⟨⟨e, n, .inl h⟩, by simp⟩
      | notReady => exact absurd h.1 (by simp [dataCall])
      | busyTimeout => exact absurd h.1 (by simp [dataCall])
      | _ => exact h.elim

/-- OP reads as it stands when its reserved bits are 0, as in every legal word (R23, R90). -/
theorem opWord_of_reserved_zero {g : Regs} (h : g.op &&& reservedMask = 0) : opWord g = g.op := by
  refine BitVec.eq_of_getLsbD_eq fun k hk => ?_
  have hb : (g.op &&& reservedMask).getLsbD k = false := by simp [h]
  rw [BitVec.getLsbD_and, Bool.and_eq_false_iff] at hb
  rw [opWord, BitVec.getLsbD_and, BitVec.getLsbD_not]
  rcases hb with hb | hb <;> simp only [hb, hk, Bool.false_and, decide_true, Bool.not_false, Bool.and_true]

end Sys2Proof.Machine
end

