-- ==== Sys2Proof/Laws/PerInstr.lean ====
section
/-! SUPPORT. Statements about every operation as syntax, one lemma per constructor. -/

namespace Sys2Proof.Laws.TableRow

-- One proof at a time: each kernel decision would otherwise hold a thread of its own.
set_option Elab.async false

/-- The word of an operation stands in its own row of R95: the row is one of the table, the word matches it under its
mask, and no reserved bit of R96 is set. -/
def Statement (i : Instr) : Prop :=
  rowOf i ∈ opTable ∧ (rowOf i).matchesWord (encode i) = true ∧ encode i &&& reservedMask = 0

theorem sendCmdR1 (idx : BitVec 6) (nochk : Bool) : Statement (.sendCmdR1 idx nochk) := by
  unfold Statement; revert idx nochk; decide +kernel

theorem sendCmdR1b (idx : BitVec 6) (nochk : Bool) : Statement (.sendCmdR1b idx nochk) := by
  unfold Statement; revert idx nochk; decide +kernel

theorem sendCmdR2 (idx : BitVec 6) (nochk : Bool) : Statement (.sendCmdR2 idx nochk) := by
  unfold Statement; revert idx nochk; decide +kernel

theorem sendCmdR3 (idx : BitVec 6) (nochk : Bool) : Statement (.sendCmdR3 idx nochk) := by
  unfold Statement; revert idx nochk; decide +kernel

theorem sendCmdR7 (idx : BitVec 6) (nochk : Bool) : Statement (.sendCmdR7 idx nochk) := by
  unfold Statement; revert idx nochk; decide +kernel

theorem crc7 (idx : BitVec 6) : Statement (.crc7 idx) := by
  unfold Statement; revert idx; decide +kernel

theorem waitReady : Statement .waitReady := by unfold Statement; decide +kernel

theorem fill : Statement .fill := by unfold Statement; decide +kernel

theorem readData : Statement .readData := by unfold Statement; decide +kernel

theorem readBlocks : Statement .readBlocks := by unfold Statement; decide +kernel

theorem writeBlocks : Statement .writeBlocks := by unfold Statement; decide +kernel

end Sys2Proof.Laws.TableRow
end

