-- ==== Sys2Proof/Laws/Step.lean ====
section
/-! SUPPORT. What one step of an operation can do, said once for all operations: which state it leaves before SEQ moves,
and that SEQ then moves to a point of the operation or the operation ends. -/

namespace Sys2Proof.Machine

/-- The body of an operation, from a point of it to the next. -/
def codeOf : Instr → Pos → State → Out State
  | .sendCmdR1 idx nochk => sendCmdAt .r1 idx nochk
  | .sendCmdR1b idx nochk => sendCmdAt .r1b idx nochk
  | .sendCmdR2 idx nochk => sendCmdAt .r2 idx nochk
  | .sendCmdR3 idx nochk => sendCmdAt .r3 idx nochk
  | .sendCmdR7 idx nochk => sendCmdAt .r7 idx nochk
  | .crc7 idx => crc7At idx
  | .waitReady => waitReadyAt
  | .fill => fillAt
  | .readData => readDataAt
  | .readBlocks => readBlocksAt
  | .writeBlocks => writeBlocksAt

/-- Every meaning is its body, entered. -/
theorem exec_eq_enter (i : Instr) (s : State) : exec i s = enter i s (codeOf i) := by cases i <;> rfl

/-- On an idle block an operation's word is accepted and its body starts (R240). -/
theorem exec_idle {i : Instr} {s : State} (h : s.seq = .idle) :
    exec i s = codeOf i .start (accept (encode i) s) := by rw [exec_eq_enter, enter_idle _ h]

/-- On a block that runs it an operation goes on at the point SEQ holds (R21). -/
theorem exec_at {i : Instr} {s : State} {p : Pos} (h : s.At i p) : exec i s = codeOf i p s := by
  rw [exec_eq_enter, enter_at _ h]

/-- A step of an operation starts it or goes on with it. -/
theorem exec_next {i : Instr} {s t : State} (h : exec i s = .next t) :
    (s.seq = .idle ∧ codeOf i .start (accept (encode i) s) = .next t) ∨ ∃ p, s.At i p ∧ codeOf i p s = .next t := by
  rw [exec_eq_enter] at h
  exact enter_next h

/-- Frames are built by every operation but WAIT_READY, FILL and READ_DATA. -/
def framesNothing (i : Instr) : Prop := i = .waitReady ∨ i = .fill ∨ i = .readData

/-- What the code of an operation may change in a step, before SEQ moves: OP, STATUS, the operands, the host, the schedule
and the parameters stay; one event is recorded, none at the start; one byte of memory is stored when the point says so. -/
structure Went (i : Instr) (p : Pos) (s u : State) : Prop where
  seq : u.seq = s.seq
  status : u.regs.status = s.regs.status
  op : u.regs.op = s.regs.op
  operands : sameOperands s.regs u.regs
  host : u.host = s.host
  turns : u.turns = s.turns
  params : u.params = s.params
  start : p = .start → u.trace = s.trace ∧ u.inputs = s.inputs ∧ u.mem = s.mem
  trace : p ≠ .start → ∃ e, u.trace = s.trace ++ [e]
  mem : (storeAddr s = none ∧ u.mem = s.mem) ∨
    ∃ a v, storeAddr s = some a ∧ admits s.params a = true ∧ u.mem = Memory.write s.mem a.toNat v
  reads : i ≠ .readData → i ≠ .readBlocks → u.mem = s.mem
  resp : (framesNothing i ∨ ∃ idx, i = .crc7 idx) → sameResp s.regs u.regs
  crc : framesNothing i → sameCrc s.regs u.regs
  blkdone : i ≠ .readBlocks → i ≠ .writeBlocks → u.regs.blkdone = s.regs.blkdone

/-- A step of an operation: its code, then SEQ moves on or the operation ends (R21, R244). -/
def Moved (i : Instr) (p : Pos) (s t : State) : Prop :=
  ∃ u, Went i p s u ∧ ((∃ q, t = goto q u) ∨ ∃ e c, t = endOp e c u)

/-- Nothing happens before the first event but the accept. -/
theorem went_start (i : Instr) (s : State) (h : storeAddr s = none) : Went i .start s s where
  seq := rfl
  status := rfl
  op := rfl
  operands := ⟨rfl, rfl, rfl, rfl, rfl, rfl, rfl, rfl⟩
  host := rfl
  turns := rfl
  params := rfl
  start := fun _ => ⟨rfl, rfl, rfl⟩
  trace := fun h => absurd rfl h
  mem := .inl ⟨h, rfl⟩
  reads := fun _ _ => rfl
  resp := fun _ => ⟨rfl, rfl, rfl⟩
  crc := fun _ => ⟨rfl, rfl⟩
  blkdone := fun _ _ => rfl

/-- One event that stores nothing. -/
theorem went_after (i : Instr) {p : Pos} {s : State} (e : Event) (n : Inputs) (hp : p ≠ .start)
    (h : storeAddr s = none) : Went i p s (s.after e n) where
  seq := rfl
  status := rfl
  op := rfl
  operands := ⟨rfl, rfl, rfl, rfl, rfl, rfl, rfl, rfl⟩
  host := rfl
  turns := rfl
  params := rfl
  start := fun h => absurd h hp
  trace := fun _ => ⟨e, rfl⟩
  mem := .inl ⟨h, rfl⟩
  reads := fun _ _ => rfl
  resp := fun _ => ⟨rfl, rfl, rfl⟩
  crc := fun _ => ⟨rfl, rfl⟩
  blkdone := fun _ _ => rfl

/-- One event that stores a byte. -/
theorem went_store {i : Instr} {p : Pos} {s : State} {a : Word} (v : Byte) (hp : p ≠ .start)
    (hi : i = .readData ∨ i = .readBlocks) (h : storeAddr s = some a) (ha : admits s.params a = true) :
    Went i p s { s with mem := Memory.write s.mem a.toNat v, trace := s.trace ++ [.memWrite a v] } where
  seq := rfl
  status := rfl
  op := rfl
  operands := ⟨rfl, rfl, rfl, rfl, rfl, rfl, rfl, rfl⟩
  host := rfl
  turns := rfl
  params := rfl
  start := fun h => absurd h hp
  trace := fun _ => ⟨_, rfl⟩
  mem := .inr ⟨a, v, h, ha, rfl⟩
  reads := fun h1 h2 => by rcases hi with rfl | rfl <;> contradiction
  resp := fun _ => ⟨rfl, rfl, rfl⟩
  crc := fun _ => ⟨rfl, rfl⟩
  blkdone := fun _ _ => rfl

/-- A response stored after that. -/
theorem Went.putResp {i : Instr} {p : Pos} {s u : State} (k : Nat) (r : Byte) (x : Word) (h : Went i p s u)
    (hi : ¬ (framesNothing i ∨ ∃ idx, i = .crc7 idx)) : Went i p s (putResp k r x u) :=
  ⟨h.seq, h.status, h.op, h.operands, h.host, h.turns, h.params, h.start, h.trace, h.mem, h.reads,
    fun hf => absurd hf hi, h.crc, h.blkdone⟩

/-- A frame built after that. -/
theorem Went.buildFrame {i : Instr} {p : Pos} {s u : State} (idx : BitVec 6) (arg : Word) (h : Went i p s u)
    (hi : ¬ framesNothing i) : Went i p s (buildFrame idx arg u) :=
  ⟨h.seq, h.status, h.op, h.operands, h.host, h.turns, h.params, h.start, h.trace, h.mem, h.reads, h.resp,
    fun hf => absurd hf hi, h.blkdone⟩

/-- RESP and RESPX cleared after that. -/
theorem Went.clearResp {i : Instr} {p : Pos} {s u : State} (h : Went i p s u)
    (hi : ¬ (framesNothing i ∨ ∃ idx, i = .crc7 idx)) : Went i p s (clearResp u) :=
  ⟨h.seq, h.status, h.op, h.operands, h.host, h.turns, h.params, h.start, h.trace, h.mem, h.reads,
    fun hf => absurd hf hi, h.crc, h.blkdone⟩

/-- BLKDONE set after that. -/
theorem Went.setBlkdone {i : Instr} {p : Pos} {s u : State} (n : Nat) (h : Went i p s u)
    (hi : i = .readBlocks ∨ i = .writeBlocks) : Went i p s (setBlkdone n u) :=
  ⟨h.seq, h.status, h.op, h.operands, h.host, h.turns, h.params, h.start, h.trace, h.mem, h.reads, h.resp, h.crc,
    fun h1 h2 => by rcases hi with rfl | rfl <;> contradiction⟩

/-- SEQ moves on. -/
theorem Went.goes {i : Instr} {p : Pos} {s u : State} (h : Went i p s u) (q : Pos) : Moved i p s (goto q u) :=
  ⟨u, h, .inl ⟨q, rfl⟩⟩

/-- The operation ends. -/
theorem Went.ends {i : Instr} {p : Pos} {s u : State} (h : Went i p s u) (e : Err) (c : Cause) :
    Moved i p s (endOp e c u) := ⟨u, h, .inr ⟨e, c, rfl⟩⟩

/-- The operation ends with success. -/
theorem Went.finishes {i : Instr} {p : Pos} {s u : State} (h : Went i p s u) : Moved i p s (finish u) :=
  h.ends .none .none

/-- The state after one event of a command is one the code may leave. -/
theorem went_command {i : Instr} {p : Pos} {s : State} (c : CmdCall) (q : CmdPos) (hp : p ≠ .start)
    (hst : storeAddr s = none) (hi : ¬ (framesNothing i ∨ ∃ idx, i = .crc7 idx)) :
    Went i p s (commandStep c q s).2 := by
  obtain ⟨e, n, h | ⟨r, x, h⟩⟩ := commandStep_state c q s
  · rw [h]; exact went_after i e n hp hst
  · rw [h]; exact (went_after i e n hp hst).putResp _ _ _ hi

/-- The state after one event of a data command is one the code may leave. -/
theorem went_seqCommand {i : Instr} {p : Pos} {s : State} (idx : BitVec 6) (q : SeqCmdPos) (hp : p ≠ .start)
    (hst : storeAddr s = none) (hi : ¬ (framesNothing i ∨ ∃ idx, i = .crc7 idx)) :
    Went i p s (seqCommandStep idx q s).2 := by
  have hf : ¬ framesNothing i := fun h => hi (.inl h)
  obtain ⟨e, n, h | h | ⟨r, x, h⟩⟩ := seqCommandStep_state idx q s <;> rw [h]
  · exact went_after i e n hp hst
  · exact ((went_after i e n hp hst).buildFrame _ _ hf).clearResp hi
  · exact (went_after i e n hp hst).putResp _ _ _ hi

/-- SEND_CMD frames a command. -/
theorem sendInstr_frames (rt : RespType) (idx : BitVec 6) (nochk : Bool) :
    ¬ (framesNothing (sendInstr rt idx nochk) ∨ ∃ k, sendInstr rt idx nochk = .crc7 k) := by
  cases rt <;> simp [sendInstr, framesNothing]

/-- One step of SEND_CMD's body. -/
theorem sendCmdAt_moved {rt : RespType} {idx : BitVec 6} {nochk : Bool} {p : Pos} {s t : State} {w : Word}
    (hs : s.seq = .run w p) (h : sendCmdAt rt idx nochk p s = .next t) :
    Moved (sendInstr rt idx nochk) p s t := by
  have hi := sendInstr_frames rt idx nochk
  have hst : storeAddr s = none ∨ (∀ q, p ≠ .sendCmd q) ∧ p ≠ .start := by
    cases p <;> simp [storeAddr, hs]
  unfold sendCmdAt at h
  split at h
  · simp only [Host.Outcome.next.injEq] at h
    subst h
    rcases hst with hst | hst
    · exact (((went_start _ s hst).buildFrame _ _ (fun h => hi (.inl h))).clearResp hi).goes _
    · exact absurd rfl hst.2
  · rcases hst with hst | hst
    · have hw := went_command (i := sendInstr rt idx nochk) (sendCall rt idx nochk s.regs) ‹_›
        (p := .sendCmd ‹_›) (by simp) hst hi
      dsimp only at h
      split at h <;> (simp only [Host.Outcome.next.injEq] at h; subst h)
      · exact hw.goes _
      · exact hw.ends _ _
    · exact absurd rfl (hst.1 _)
  · simp at h

/-- One step of CRC7's body. -/
theorem crc7At_moved {idx : BitVec 6} {p : Pos} {s t : State} {w : Word} (hs : s.seq = .run w p)
    (h : crc7At idx p s = .next t) : Moved (.crc7 idx) p s t := by
  unfold crc7At at h
  split at h
  · simp only [Host.Outcome.next.injEq] at h
    subst h
    exact ((went_start _ s (by simp [storeAddr, hs])).buildFrame _ _ (by simp [framesNothing])).finishes
  · simp at h

/-- One step of WAIT_READY's body. -/
theorem waitReadyAt_moved {p : Pos} {s t : State} {w : Word} (hs : s.seq = .run w p)
    (h : waitReadyAt p s = .next t) : Moved .waitReady p s t := by
  unfold waitReadyAt at h
  split at h
  · simp only [Host.Outcome.next.injEq] at h
    subst h
    exact (went_start _ s (by simp [storeAddr, hs])).goes _
  · rename_i q
    obtain ⟨e, n, he⟩ := waitReadyStep_state s.regs.tmoCmd q s
    have hw := went_after .waitReady e n (p := .waitReady q) (by simp) (s := s) (by simp [storeAddr, hs])
    simp only [he] at h
    split at h <;> (simp only [Host.Outcome.next.injEq] at h; subst h)
    · exact hw.goes _
    · exact hw.finishes
    · exact hw.ends _ _
  · simp at h

/-- FILL goes on or ends. -/
theorem Went.fills {p : Pos} {s u : State} (h : Went .fill p s u) (n : Nat) : Moved .fill p s (fillFrom n u) := by
  cases n with
  | zero => exact h.finishes
  | succ m => exact h.goes _

/-- One step of FILL's body. -/
theorem fillAt_moved {p : Pos} {s t : State} {w : Word} (hs : s.seq = .run w p)
    (h : fillAt p s = .next t) : Moved .fill p s t := by
  unfold fillAt at h
  split at h
  · simp only [Host.Outcome.next.injEq] at h
    subst h
    exact (went_start _ s (by simp [storeAddr, hs])).fills _
  · simp only [Host.Outcome.next.injEq] at h
    subst h
    exact (went_after .fill _ _ (by simp) (by simp [storeAddr, hs])).fills _
  · simp at h

/-- The state after one event of a read packet is one the code may leave: `a` is the address of each byte. -/
theorem went_readPacket {i : Instr} {p : Pos} {s : State} {len : Nat} {base T : Word} {q : ReadPos}
    {d : Progress ReadPos Cause × State} (hp : p ≠ .start) (hi : i = .readData ∨ i = .readBlocks)
    (hst : ∀ j b, q = .store j b → storeAddr s = some (byteAddr base j))
    (hno : (∀ j b, q ≠ .store j b) → storeAddr s = none) (h : readPacketStep len base T q s = .next d) :
    Went i p s d.2 := by
  obtain ⟨⟨e, n, hq, he⟩ | ⟨j, b, hq, ha, he⟩, _⟩ := readPacketStep_spec h
  · rw [he]; exact went_after i e n hp (hno hq)
  · rw [he]; exact went_store b hp hi (hst j b hq) ha

/-- One step of READ_DATA's body. -/
theorem readDataAt_moved {p : Pos} {s t : State} {w : Word} (hs : s.seq = .run w p)
    (h : readDataAt p s = .next t) : Moved .readData p s t := by
  unfold readDataAt at h
  split at h
  · have hw := went_start .readData s (by simp [storeAddr, hs])
    simp only [Host.Outcome.next.injEq] at h
    subst h
    split
    · exact hw.ends _ _
    · exact hw.goes _
  · rename_i q
    obtain ⟨d, hd, h⟩ := onNext_eq_next h
    have hw : Went .readData (.readData q) s d.2 := by
      refine went_readPacket (by simp) (.inl rfl) ?_ ?_ hd
      · rintro j b rfl; simp [storeAddr, hs]
      · intro hq; cases q <;> simp_all [storeAddr]
    split at h <;> (simp only [Host.Outcome.next.injEq] at h; subst h)
    · exact hw.goes _
    · exact hw.finishes
    · exact hw.ends _ _
  · simp at h

/-- READ_BLOCKS frames commands. -/
theorem readBlocks_frames : ¬ (framesNothing .readBlocks ∨ ∃ k, Instr.readBlocks = .crc7 k) := by simp [framesNothing]

/-- WRITE_BLOCKS frames commands. -/
theorem writeBlocks_frames : ¬ (framesNothing .writeBlocks ∨ ∃ k, Instr.writeBlocks = .crc7 k) := by
  simp [framesNothing]

/-- The CMD12 of a read stream is framed. -/
theorem Went.startsStop {p : Pos} {s u : State} (h : Went .readBlocks p s u) (e : Cause) :
    Moved .readBlocks p s (startStop e u) :=
  ((h.buildFrame _ _ (fun hf => readBlocks_frames (.inl hf))).clearResp readBlocks_frames).goes _

/-- The next block of a read stream, or its CMD12. -/
theorem Went.nextReads {p : Pos} {s u : State} (h : Went .readBlocks p s u) (n : Nat) :
    Moved .readBlocks p s (nextReadBlock n u) := by
  unfold nextReadBlock
  split
  · exact h.goes _
  · exact h.startsStop _

/-- The end of a stream. -/
theorem Went.endsStream {i : Instr} {p : Pos} {s u : State} (h : Went i p s u) (err : Err) (e : Cause) :
    Moved i p s (endStream err e u) := by
  unfold endStream
  split
  · exact h.finishes
  · exact h.ends _ _

/-- One step of READ_BLOCKS' body past its start. -/
theorem readBlocksStep_moved {q : RbPos} {s t : State} {w : Word} (hs : s.seq = .run w (.readBlocks q))
    (h : readBlocksStep q s = .next t) : Moved .readBlocks (.readBlocks q) s t := by
  have hp : Pos.readBlocks q ≠ .start := by simp
  unfold readBlocksStep at h
  split at h
  · rename_i q
    have hw := went_seqCommand (s := s) (readIdx s.regs) q hp (by simp [storeAddr, hs]) readBlocks_frames
    dsimp only at h
    split at h <;> (simp only [Host.Outcome.next.injEq] at h; subst h)
    · exact hw.goes _
    · split
      · exact hw.goes _
      · exact hw.nextReads _
    · exact hw.ends _ _
  · rename_i q
    obtain ⟨d, hd, h⟩ := onNext_eq_next h
    have hw : Went .readBlocks (.readBlocks (.single q)) s d.2 := by
      refine went_readPacket hp (.inr rfl) ?_ ?_ hd
      · rintro j b rfl; simp [storeAddr, hs]
      · intro hq; cases q <;> simp_all [storeAddr]
    split at h <;> (simp only [Host.Outcome.next.injEq] at h; subst h)
    · exact hw.goes _
    · exact (hw.setBlkdone 1 (.inl rfl)).finishes
    · exact hw.ends _ _
  · rename_i i q
    obtain ⟨d, hd, h⟩ := onNext_eq_next h
    have hw : Went .readBlocks (.readBlocks (.block i q)) s d.2 := by
      refine went_readPacket hp (.inr rfl) ?_ ?_ hd
      · rintro j b rfl; simp [storeAddr, hs]
      · intro hq; cases q <;> simp_all [storeAddr]
    split at h <;> (simp only [Host.Outcome.next.injEq] at h; subst h)
    · exact hw.goes _
    · exact (hw.setBlkdone (i + 1) (.inl rfl)).nextReads _
    · exact hw.startsStop _
  · rename_i e q
    have hw := went_command (s := s) (stopCall s.params s.regs) q hp (by simp [storeAddr, hs]) readBlocks_frames
    dsimp only at h
    split at h <;> (simp only [Host.Outcome.next.injEq] at h; subst h)
    · exact hw.goes _
    · exact hw.endsStream _ _

/-- One step of READ_BLOCKS' body. -/
theorem readBlocksAt_moved {p : Pos} {s t : State} {w : Word} (hs : s.seq = .run w p)
    (h : readBlocksAt p s = .next t) : Moved .readBlocks p s t := by
  unfold readBlocksAt at h
  split at h
  · have hw := went_start .readBlocks s (by simp [storeAddr, hs])
    simp only [Host.Outcome.next.injEq] at h
    subst h
    unfold readBlocksStart
    split
    · exact hw.finishes
    · split
      · exact hw.ends _ _
      · exact hw.goes _
  · exact readBlocksStep_moved hs h
  · simp at h

/-- One step of WRITE_BLOCKS' body past its start. -/
theorem writeBlocksStep_moved {q : WbPos} {s t : State} {w : Word} (hs : s.seq = .run w (.writeBlocks q))
    (h : writeBlocksStep q s = .next t) : Moved .writeBlocks (.writeBlocks q) s t := by
  have hp : Pos.writeBlocks q ≠ .start := by simp
  have hst : storeAddr s = none := by simp [storeAddr, hs]
  have hafter : ∀ {v : State}, (∃ e n, v = s.after e n) → Went .writeBlocks (.writeBlocks q) s v := by
    rintro v ⟨e, n, rfl⟩
    exact went_after _ e n hp hst
  unfold writeBlocksStep at h
  split at h
  · rename_i q
    have hw := went_seqCommand (writeIdx s.regs) q hp hst writeBlocks_frames
    dsimp only at h
    split at h <;> (simp only [Host.Outcome.next.injEq] at h; subst h)
    · exact hw.goes _
    · split
      · exact hw.goes _
      · unfold nextWriteBlock
        split <;> exact hw.goes _
    · exact hw.ends _ _
  · obtain ⟨d, hd, h⟩ := onNext_eq_next h
    have hw := hafter (writePacketStep_spec hd).1
    split at h <;> (simp only [Host.Outcome.next.injEq] at h; subst h)
    · exact hw.goes _
    · unfold afterSinglePacket
      split
      · exact hw.ends _ _
      · split
        · exact (hw.setBlkdone 1 (.inr rfl)).goes _
        · exact hw.goes _
  · have hw := hafter (waitReadyStep_state s.regs.tmoBusy ‹_› s)
    dsimp only at h
    split at h <;> (simp only [Host.Outcome.next.injEq] at h; subst h)
    · exact hw.goes _
    · unfold endSingleWrite
      split
      · exact hw.ends _ _
      · split
        · exact hw.finishes
        · exact hw.ends _ _
  · rename_i i q
    obtain ⟨d, hd, h⟩ := onNext_eq_next h
    have hw := hafter (writePacketStep_spec hd).1
    split at h <;> (simp only [Host.Outcome.next.injEq] at h; subst h)
    · exact hw.goes _
    · have hb := hw.setBlkdone (i + 1) (.inr rfl)
      unfold nextWriteBlock
      split <;> exact hb.goes _
    · exact hw.goes _
  · rename_i e q
    have hw := hafter (stopWriteStep_state s.regs.tmoBusy q s)
    dsimp only at h
    split at h <;> (simp only [Host.Outcome.next.injEq] at h; subst h)
    · exact hw.goes _
    · exact hw.endsStream _ _

/-- One step of WRITE_BLOCKS' body. -/
theorem writeBlocksAt_moved {p : Pos} {s t : State} {w : Word} (hs : s.seq = .run w p)
    (h : writeBlocksAt p s = .next t) : Moved .writeBlocks p s t := by
  unfold writeBlocksAt at h
  split at h
  · have hw := went_start .writeBlocks s (by simp [storeAddr, hs])
    simp only [Host.Outcome.next.injEq] at h
    subst h
    unfold writeBlocksStart
    split
    · exact hw.ends _ _
    · split
      · exact hw.finishes
      · split
        · exact hw.ends _ _
        · exact hw.goes _
  · exact writeBlocksStep_moved hs h
  · simp at h

/-- One step of any operation's body: what it can do (R21, R244). -/
theorem codeOf_moved {i : Instr} {p : Pos} {s t : State} {w : Word} (hs : s.seq = .run w p)
    (h : codeOf i p s = .next t) : Moved i p s t := by
  cases i with
  | sendCmdR1 idx nochk => exact sendCmdAt_moved (rt := .r1) hs h
  | sendCmdR1b idx nochk => exact sendCmdAt_moved (rt := .r1b) hs h
  | sendCmdR2 idx nochk => exact sendCmdAt_moved (rt := .r2) hs h
  | sendCmdR3 idx nochk => exact sendCmdAt_moved (rt := .r3) hs h
  | sendCmdR7 idx nochk => exact sendCmdAt_moved (rt := .r7) hs h
  | crc7 idx => exact crc7At_moved hs h
  | waitReady => exact waitReadyAt_moved hs h
  | fill => exact fillAt_moved hs h
  | readData => exact readDataAt_moved hs h
  | readBlocks => exact readBlocksAt_moved hs h
  | writeBlocks => exact writeBlocksAt_moved hs h

/-- One step of any operation, inverted: on an idle block it starts from the accepted state, otherwise it goes on. -/
theorem exec_moved {i : Instr} {s t : State} (h : exec i s = .next t) :
    (s.seq = .idle ∧ Moved i .start (accept (encode i) s) t) ∨ ∃ p, s.At i p ∧ Moved i p s t := by
  rcases exec_next h with ⟨hi, h⟩ | ⟨p, hp, h⟩
  · exact .inl ⟨hi, codeOf_moved rfl h⟩
  · exact .inr ⟨p, hp, codeOf_moved hp h⟩

end Sys2Proof.Machine
end

