-- ==== Sys2Proof/Tests/Slice0.lean ====
section
/-! SUPPORT. The model's own tests: the well-formedness smoke tests, words written out from 30_encoding.md, single steps
with the values of 95_test_vectors.md (each names its vector), and for every statement with hypotheses a witness that
meets them. -/

namespace Sys2Proof.Tests

-- One proof at a time: each kernel decision would otherwise hold a thread of its own.
set_option Elab.async false

open Sys2Proof.Machine

/-! ### Helpers -/

/-- The machine after reset, with what the card and the time input will answer. -/
def idleWith (g : Regs) (card : List Byte) (clock : List Word) : State :=
  { State.reset with regs := g, inputs := { card := card, clock := clock, drawn := 0 } }

/-- The block running operation `i` at point `p`. -/
def busyAt (i : Instr) (p : Pos) (g : Regs) (card : List Byte) (clock : List Word) : State :=
  { State.reset with
    regs := { g with
      op := encode i
      status := { busy := true, done := false, ovr := false, err := .none, cause := .none } }
    seq := .run (encode i) p
    inputs := { card := card, clock := clock, drawn := 0 } }

/-- The outcome is a next state that passes a check. -/
def nextIs (o : Out State) (p : State → Bool) : Bool :=
  match o with
  | .next t => p t
  | .fault _ => false
  | .refused _ => false

theorem nextIs_next {o : Out State} {p : State → Bool} (h : nextIs o p = true) : ∃ t, o = .next t ∧ p t = true := by
  cases o with
  | next t => exact ⟨t, rfl, h⟩
  | fault r => cases h
  | refused r => cases h

/-- STATUS after a step. -/
def statusIs (v : Word) (s : State) : Bool := regWord s.regs .status == v

theorem reset_regs_ok : RespOk Regs.reset ∧ CrcOk Regs.reset := by
  refine ⟨⟨?_, ?_, ?_, ?_, ?_⟩, ?_⟩
  · decide
  · exact fun _ => ⟨rfl, rfl⟩
  · exact fun h => absurd rfl h
  · exact fun _ => rfl
  · exact fun h => absurd h (by decide)
  · exact .inr ⟨rfl, rfl⟩

/-- The invariant of a running block, from its point. -/
theorem busyAt_inv {i : Instr} {p : Pos} {g : Regs} {card : List Byte} {clock : List Word}
    (hd : decode (encode i) = .op i) (hp : PosOk i (busyAt i p g card clock) p) (hr : RespOk g) (hc : CrcOk g) :
    (busyAt i p g card clock).Inv where
  mem_wf := rfl
  seq_ok := ⟨rfl, i, hd, hp⟩
  status_ok := ⟨⟨fun _ h => (nomatch h), fun _ => rfl⟩, fun h => Bool.noConfusion h, fun _ => ⟨rfl, rfl⟩⟩
  resp_ok := hr
  crc_ok := hc

/-- The registers of a stream of `n` blocks, `done` of them completed. -/
def streamRegs (n done : Word) : Regs := { Regs.reset with count := n, hc := true, blkdone := done }

/-! ### Well-formedness: a term each check refuses -/

theorem test_wf_index_63 : Instr.wf (.sendCmdR1 63 true) = true := by decide
theorem test_wf_field_reversed : Field.wf ⟨.status, 4, 6⟩ = false := by decide
theorem test_wf_field_too_high : Field.wf ⟨.resp, 32, 0⟩ = false := by decide
theorem test_wf_field_whole : Field.wf ⟨.resp, 31, 0⟩ = true := by decide
theorem test_wf_goto_outside : HostStmt.wf 3 (.goto 4) = false := by decide
theorem test_wf_br_outside : HostStmt.wf 3 (.br statusErr true 0 4) = false := by decide
theorem test_wf_br_bad_field : HostStmt.wf 3 (.br ⟨.crc, 7, 8⟩ true 0 1) = false := by decide
theorem test_wf_busWrite_width : HostStmt.wf 3 (.busWrite 0 0 0) = false := by decide
theorem test_wf_busRead_width : HostStmt.wf 3 (.busRead 0 0) = false := by decide
theorem test_wf_sendCmd_index : AsmStmt.wf [] (.sendCmd 64 0 .r1 false) = false := by decide
theorem test_wf_acmd_index : AsmStmt.wf [] (.acmd 64 0 .r1) = false := by decide
theorem test_wf_crc7_index : AsmStmt.wf [] (.crc7 64 0) = false := by decide
theorem test_wf_goto_undefined : AsmStmt.wf [1] (.goto 2) = false := by decide
theorem test_wf_br_undefined : AsmStmt.wf [1] (.br statusErr true 0 2) = false := by decide
theorem test_wf_asm_bad_field : AsmStmt.wf [1] (.br ⟨.status, 4, 6⟩ true 0 1) = false := by decide
theorem test_wf_label_twice : AsmStmt.programWf [.label 1, .halt, .label 1] = false := by decide
theorem test_assemble_refuses_index_64 : assemble [.sendCmd 64 0 .r1 false] = none := by decide
theorem test_assemble_refuses_label_twice : assemble [.label 1, .halt, .label 1] = none := by decide

/-! ### Encoding: words of 30_encoding.md R101 and of LC1 to LC6, written out -/

theorem test_decode_sendCmdR1 : decode 0b00000000000_0_0_000_00_010000_0000_0001 = .op (.sendCmdR1 16 false) := by decide
theorem test_decode_sendCmdR1b : decode 0b00000000000_1_0_001_00_001100_0000_0001 = .op (.sendCmdR1b 12 true) := by decide
theorem test_decode_sendCmdR2 : decode 0b00000000000_0_0_010_00_001101_0000_0001 = .op (.sendCmdR2 13 false) := by decide
theorem test_decode_sendCmdR3 : decode 0b00000000000_0_0_011_00_111010_0000_0001 = .op (.sendCmdR3 58 false) := by decide
theorem test_decode_sendCmdR7 : decode 0b00000000000_0_0_100_00_001000_0000_0001 = .op (.sendCmdR7 8 false) := by decide
theorem test_decode_crc7 : decode 0b00000000000_0_0_000_00_111111_0000_0010 = .op (.crc7 63) := by decide
theorem test_decode_waitReady : decode 0x00000003 = .op .waitReady := by decide
theorem test_decode_fill : decode 0x00000004 = .op .fill := by decide
theorem test_decode_readData : decode 0x00000005 = .op .readData := by decide
theorem test_decode_readBlocks : decode 0x00000006 = .op .readBlocks := by decide
theorem test_decode_writeBlocks : decode 0x00000007 = .op .writeBlocks := by decide
/-- LC1. -/
theorem test_decode_opcode : decode 0 = .illegal .unassignedOpcode ∧ decode 0x8 = .illegal .unassignedOpcode ∧
    decode 0xF = .illegal .unassignedOpcode := by decide
/-- LC2. -/
theorem test_decode_class : decode 0x00050001 = .illegal .respClass ∧ decode 0x00070001 = .illegal .respClass := by decide
/-- LC3, LC4. -/
theorem test_decode_unused_field : decode 0x00000103 = .illegal .unusedField ∧ decode 0x00100007 = .illegal .unusedField ∧
    decode 0x00100002 = .illegal .unusedField ∧ decode 0x00010002 = .illegal .unusedField := by decide
/-- LC5. -/
theorem test_decode_reserved_bit : decode 0x00000011 = .illegal .reservedBit ∧ decode 0x00004001 = .illegal .reservedBit ∧
    decode 0x00080001 = .illegal .reservedBit ∧ decode 0x80000001 = .illegal .reservedBit := by decide
/-- LC6. -/
theorem test_decode_nochk : decode 0x00143F01 = .op (.sendCmdR7 63 true) := by decide
theorem test_decodeTableWord : decodeTableWord 32 0x00040801 = some (.sendCmdR7 8 false) ∧ decodeTableWord 32 0 = none ∧
    decodeTableWord 32 0x100000003 = none := by decide
/-- CR10, from the OP write of a machine just reset. -/
theorem test_withFetchWord_runs : nextIs (step (State.reset.withFetchWord 32 2))
    (fun t => regWord t.regs .crc == 0x0000954A && statusIs 0x2 t && t.trace == []) = true := by decide +kernel

/-! ### Frames and CRC7: section 2 of 95_test_vectors.md -/

theorem test_frame_cmd8 : frameBytes 8 0x1AA = [0x48, 0x00, 0x00, 0x01, 0xAA, 0x87] := by decide +kernel
theorem test_frame_cmd17 : frameBytes 17 0xFFFFFE00 = [0x51, 0xFF, 0xFF, 0xFE, 0x00, 0x9B] := by decide +kernel
/-- CR6, CR7. -/
theorem test_crc7_short : crc7 [0x40] = 0x64 ∧ crc7 [0x40, 0x00] = 0x6D := by decide +kernel

/-! ### The assembler: R99 to R101, R104 -/

theorem test_asm_send : assemble [.sendCmd 58 0 .r3 false] = some [.w .arg 0, .w .op 0x00033A01, .waitDone] := by
  decide +kernel
theorem test_asm_acmd : assemble [.acmd 41 0x40000000 .r1] = some
    [.w .arg 0, .w .op 0x00003701, .waitDone, .w .arg 0x40000000, .w .op 0x00002901, .waitDone] := by decide +kernel
theorem test_asm_fill : assemble [.fill 10] = some [.w .count 10, .w .op 4, .waitDone] := by decide +kernel
theorem test_asm_read_blocks : assemble [.readBlocks 3 1 0x1000] = some
    [.w .arg 3, .w .count 1, .w .bufaddr 0x1000, .w .op 6, .waitDone] := by decide +kernel
theorem test_asm_label : assemble [.label 7, .waitReady, .br statusErr false 0 9, .goto 7, .label 9, .halt] = some
    [.w .op 3, .waitDone, .br statusErr false 0 4, .goto 0, .halt] := by decide +kernel

/-! ### One step each -/

/-- SC1: the search takes 0x01. -/
theorem test_sendCmdR1_found :
    nextIs (exec (.sendCmdR1 0 false) (busyAt (.sendCmdR1 0 false) (.sendCmd (.search 1)) Regs.reset [0x01] []))
      (fun t => regWord t.regs .resp == 0x101 && statusIs 0x2 t && t.trace == [.xchg 0xFF 0x01]) = true := by
  decide +kernel
/-- SC3: the eighth search exchange finds nothing. -/
theorem test_sendCmdR1_not_found :
    nextIs (exec (.sendCmdR1 0 false) (busyAt (.sendCmdR1 0 false) (.sendCmd (.search 7)) Regs.reset [0xFF] []))
      (fun t => regWord t.regs .resp == 0xFF && statusIs 0x112 t) = true := by decide +kernel
/-- SC13: the busy wait ends on 0xFF. -/
theorem test_sendCmdR1b_ready :
    nextIs (exec (.sendCmdR1b 12 true) (busyAt (.sendCmdR1b 12 true) (.sendCmd (.busy (.poll 0))) Regs.reset [0xFF] []))
      (statusIs 0x2) = true := by decide +kernel
/-- SC14: the third test, 10 - 0 >= 10. -/
theorem test_sendCmdR1b_timeout :
    nextIs (exec (.sendCmdR1b 12 false) (busyAt (.sendCmdR1b 12 false) (.sendCmd (.busy (.test 0)))
      { Regs.reset with tmoCmd := 10 } [] [10])) (statusIs 0x212) = true := by decide +kernel
/-- R143: RESP = 0x00000200 | R1, RESPX = response[1]. -/
theorem test_sendCmdR2_last :
    nextIs (exec (.sendCmdR2 13 false) (busyAt (.sendCmdR2 13 false) (.sendCmd (.extra 0x01 0 0)) Regs.reset [0x5A] []))
      (fun t => regWord t.regs .resp == 0x201 && t.regs.respx == 0x5A) = true := by decide +kernel
/-- SC11. -/
theorem test_sendCmdR3_last :
    nextIs (exec (.sendCmdR3 58 false) (busyAt (.sendCmdR3 58 false) (.sendCmd (.extra 0x00 0xC0FF80 0)) Regs.reset [0x00] []))
      (fun t => regWord t.regs .resp == 0x500 && t.regs.respx == 0xC0FF8000) = true := by decide +kernel
/-- SC9. -/
theorem test_sendCmdR7_last :
    nextIs (exec (.sendCmdR7 8 false) (busyAt (.sendCmdR7 8 false) (.sendCmd (.extra 0x01 1 0)) Regs.reset [0xAA] []))
      (fun t => regWord t.regs .resp == 0x501 && t.regs.respx == 0x1AA && statusIs 0x2 t) = true := by decide +kernel
/-- SC2: the probe finds the bus busy. -/
theorem test_sendCmdR7_busy :
    nextIs (exec (.sendCmdR7 8 false) (busyAt (.sendCmdR7 8 false) (.sendCmd .probe) Regs.reset [0x00] []))
      (statusIs 0x322) = true := by decide +kernel
/-- CR11. -/
theorem test_crc7_63 : nextIs (exec (.crc7 63) (idleWith { Regs.reset with arg := 0xFFFFFFFF } [] []))
    (fun t => regWord t.regs .crc == 0x190C && statusIs 0x2 t && regWord t.regs .resp == 0xFF) = true := by decide +kernel
/-- WR4: the time wraps, 0x00000004 - 0xFFFFFFF0 = 20. -/
theorem test_waitReady_wrap :
    nextIs (exec .waitReady (busyAt .waitReady (.waitReady (.test 0xFFFFFFF0)) { Regs.reset with tmoCmd := 20 } [] [4]))
      (statusIs 0x212) = true := by decide +kernel
/-- WR5: a difference of 19 goes on. -/
theorem test_waitReady_goes_on :
    nextIs (exec .waitReady (busyAt .waitReady (.waitReady (.test 0xFFFFFFF0)) { Regs.reset with tmoCmd := 20 } [] [3]))
      (fun t => t.seq == .run 3 (.waitReady (.poll 0xFFFFFFF0))) = true := by decide +kernel
/-- FI2. -/
theorem test_fill_zero : nextIs (exec .fill (idleWith Regs.reset [] [])) (fun t => statusIs 0x2 t && t.trace == []) = true := by
  decide +kernel
/-- FI1: COUNT = 10 stands before the first of ten exchanges. -/
theorem test_fill_ten : nextIs (exec .fill (idleWith { Regs.reset with count := 10 } [] []))
    (fun t => t.seq == .run 4 (.fill 9) && statusIs 0x1 t) = true := by decide +kernel
/-- RD2: one byte at the top of buffer space. -/
theorem test_readData_store :
    nextIs (exec .readData (busyAt .readData (.readData (.store 0 0xAB))
      { Regs.reset with count := 1, bufaddr := 0xFFFFFFFF } [] []))
      (fun t => t.mem == [(0xFFFFFFFF, 0xAB)] && t.seq == .run 5 (.readData .crc1)) = true := by decide +kernel
/-- RD8. -/
theorem test_readData_513 : nextIs (exec .readData (idleWith { Regs.reset with count := 513 } [] []))
    (fun t => statusIs 0xB62 t && t.trace == []) = true := by decide +kernel
/-- RB2. -/
theorem test_readBlocks_overflow :
    nextIs (exec .readBlocks (idleWith { Regs.reset with count := 1, arg := 0x800000 } [] []))
      (fun t => statusIs 0x832 t && regWord t.regs .crc == 0) = true := by decide +kernel
/-- RB11: a bad token in block 1 of 3; CMD12 is framed and 0x00006130 stands in CRC. -/
theorem test_readBlocks_bad_token :
    nextIs (exec .readBlocks (busyAt .readBlocks (.readBlocks (.block 1 (.token (.poll 0)))) (streamRegs 3 1) [0x0B] []))
      (fun t => regWord t.regs .crc == 0x6130 && t.regs.blkdone == 1 &&
        t.seq == .run 6 (.readBlocks (.stop .badToken (.frame 0x4C [0x00, 0x00, 0x00, 0x00, 0x61])))) = true := by
  decide +kernel
/-- WB1, program P5: CFG.WP is checked before the zero count. -/
theorem test_writeBlocks_protected : nextIs (exec .writeBlocks (idleWith { Regs.reset with wp := true } [] []))
    (fun t => statusIs 0x952 t && t.trace == []) = true := by decide +kernel
/-- WB6: response 0x0D in the single form; the final wait still runs. -/
theorem test_writeBlocks_rejected :
    nextIs (exec .writeBlocks (busyAt .writeBlocks (.writeBlocks (.single .resp)) (streamRegs 1 0) [0x0D] []))
      (fun t => t.seq == .run 7 (.writeBlocks (.lastWait .dataRejected .start)) && t.regs.blkdone == 0) = true := by
  decide +kernel
/-- LC1: OP holds the word; R37: its reserved bits 31 and 4 read 0. -/
theorem test_op_reads :
    nextIs (hostWrite .op 0x0000000F State.reset) (fun t => regWord t.regs .op == 0x0000000F && statusIs 0xA62 t) = true ∧
    nextIs (hostWrite .op 0x80000011 State.reset) (fun t => regWord t.regs .op == 0x00000001 && statusIs 0xA62 t) = true := by
  decide +kernel
/-- The status words of WB14, RD4, RD3, WB6 and WB9: the codes of ERR and CAUSE (R27, R28). -/
theorem test_status_codes :
    let ended (e : Err) (c : Cause) := statusWord { busy := false, done := true, ovr := false, err := e, cause := c }
    ended .writeFailed .r1Error = 0x442 ∧ ended .readFailed .tokenTimeout = 0x532 ∧
    ended .readFailed .badToken = 0x632 ∧ ended .writeFailed .dataRejected = 0x742 ∧
    ended .writeFailed .busyTimeout = 0x242 := by decide +kernel
/-- LC7: a write of ARG while busy is ignored and sets OVR. -/
theorem test_host_write_busy :
    nextIs (hostWrite .arg 5 (busyAt (.sendCmdR1 0 false) (.sendCmd .probe) Regs.reset [] []))
      (fun t => t.regs.arg == 0 && statusIs 0x5 t) = true := by decide +kernel
/-- LC10: reset during READ_BLOCKS keeps the buffer. -/
theorem test_reset_keeps_buffer :
    nextIs (step { busyAt .readBlocks (.readBlocks (.single .crc1)) (streamRegs 1 0) [] [] with
      mem := [(3, 9)], turns := [.reset] })
      (fun t => statusIs 0 t && t.mem == [(3, 9)] && regWord t.regs .tmoToken == 100 && t.trace == []) = true := by
  decide +kernel
/-- LC11: a write of BLKSIZE is ignored. -/
theorem test_blksize_constant : nextIs (hostWrite .blksize 7 State.reset) (fun t => regWord t.regs .blksize == 512) = true := by
  decide +kernel
/-- A stored byte that is written back to 0x00 leaves the list, and a lower address goes in front. -/
theorem test_memory_canonical : Memory.write (Memory.write (Memory.write [] 9 5) 2 7) 9 0 = [(2, 7)] := by decide +kernel

/-! ### Witnesses: for every statement with hypotheses, a state and operands that meet them -/

/-- Idle blocks with an input script. -/
theorem idleWith_idle (g : Regs) (card : List Byte) (clock : List Word) (h : g.status.busy = false) :
    (idleWith g card clock).Idle := ⟨rfl, h⟩

theorem busyAt_at (i : Instr) (p : Pos) (g : Regs) (card : List Byte) (clock : List Word) :
    (busyAt i p g card clock).At i p := rfl

/-- The invariant right after reset, with any input script. -/
theorem idleWith_inv (card : List Byte) (clock : List Word) : (idleWith Regs.reset card clock).Inv where
  mem_wf := rfl
  seq_ok := trivial
  status_ok := ⟨⟨fun h => Bool.noConfusion h, fun h => absurd rfl h⟩, fun h => Bool.noConfusion h, fun _ => ⟨rfl, rfl⟩⟩
  resp_ok := reset_regs_ok.1
  crc_ok := reset_regs_ok.2

theorem streamRegs_ok (n k : Word) : RespOk (streamRegs n k) ∧ CrcOk (streamRegs n k) := reset_regs_ok

theorem witness_DecodeAndEncodeAgree : decode 0x00040801 = .op (.sendCmdR7 8 false) := by decide

theorem witness_LegalExactlyWhenARowMatches :
    decode 0x00100001 = .op (.sendCmdR1 0 true) ∧ (∀ r ∈ opTable, r.matchesWord 0x00050001 = false) ∧ State.reset.Idle :=
  ⟨by decide, by decide, rfl, rfl⟩

theorem witness_IllegalWordEndsAtOnce :
    (∃ why, decode 0 = .illegal why) ∧ (∃ why, decode 0x8 = .illegal why) ∧ (∃ why, decode 0x13 = .illegal why) ∧
    (∃ why, decode 0x00050001 = .illegal why) ∧ (∃ why, decode 0x00100002 = .illegal why) ∧
    (∃ why, decode 0x00000107 = .illegal why) ∧ State.reset.Idle :=
  ⟨⟨_, rfl⟩, ⟨_, rfl⟩, ⟨_, rfl⟩, ⟨_, rfl⟩, ⟨_, rfl⟩, ⟨_, rfl⟩, rfl, rfl⟩

theorem witness_Crc7MeetsTheSourcesVector : ([0x48, 0, 0, 0x01, 0xAA] : List Byte).length = 5 := rfl

theorem witness_Crc7IsLinear : ([0x40, 0] : List Byte).length = ([0xFF, 0x01] : List Byte).length := rfl

theorem witness_Crc7OperationCompletes : State.reset.Idle ∧ State.reset.regs.arg = 0 := ⟨⟨rfl, rfl⟩, rfl⟩

/-- SEND_CMD R1 before its probe, with the bus ready. -/
def probing : State := busyAt (.sendCmdR1 0 false) (.sendCmd .probe) Regs.reset [0xFF] []

theorem probing_inv : probing.Inv :=
  busyAt_inv rfl (show _ = true from rfl) reset_regs_ok.1 reset_regs_ok.2

theorem witness_OpWriteIsAccepted : State.reset.Idle ∧
    (probing.Inv ∧ probing.regs.status.busy = true ∧ ∃ t, blockStep probing = .next t) :=
  ⟨⟨rfl, rfl⟩, probing_inv, rfl, let ⟨t, h, _⟩ := nextIs_next (o := blockStep probing) (p := fun _ => true) (by decide +kernel); ⟨t, h⟩⟩

/-- FILL before its last exchange. -/
def lastFill : State := busyAt .fill (.fill 0) { Regs.reset with count := 1 } [0x5A] []

theorem lastFill_inv : lastFill.Inv := busyAt_inv rfl (by decide : 0 < (1 : Word).toNat) reset_regs_ok.1 reset_regs_ok.2

theorem witness_EndOfOperationIsPrecise :
    (lastFill.Inv ∧ ∃ t, exec .fill lastFill = .next t ∧ t.regs.status.busy = false) ∧
    (State.reset.Inv ∧ ∃ t, exec (.crc7 0) State.reset = .next t ∧ t.regs.status.busy = false) := by
  refine ⟨⟨lastFill_inv, ?_⟩, idleWith_inv [] [], ?_⟩
  · obtain ⟨t, h, hb⟩ := nextIs_next (o := exec .fill lastFill) (p := fun t => !t.regs.status.busy) (by decide +kernel)
    exact ⟨t, h, by simpa using hb⟩
  · obtain ⟨t, h, hb⟩ := nextIs_next (o := exec (.crc7 0) State.reset) (p := fun t => !t.regs.status.busy) (by decide +kernel)
    exact ⟨t, h, by simpa using hb⟩

theorem witness_OperationRecordsOnlyItsOutcomes :
    (lastFill.Inv ∧ ∃ t, exec .fill lastFill = .next t ∧ t.regs.status.busy = false) ∧
    (decode 0 = .illegal .unassignedOpcode ∧ ∃ t, startOp 0 State.reset = .next t) :=
  ⟨witness_EndOfOperationIsPrecise.1, by decide, _, rfl⟩

theorem witness_StepRunsTheDecodedOperation :
    decode (BitVec.ofNat 32 3) = .op .waitReady ∧
    (let s := { State.reset with host := { prog := [.w .op 3], pc := 0, last := 0 } }
     s.regs.status.busy = false ∧ s.turns = [] ∧ s.host.prog[s.host.pc]? = some (.w .op 3)) ∧
    (let s := { State.reset with host := { prog := [.w .op 3], pc := 0, last := 0 }, turns := [.host, .block] }
     s.regs.status.busy = false ∧ s.turns = .host :: [.block] ∧ s.host.prog[s.host.pc]? = some (.w .op 3)) ∧
    (decode 4 = .op .fill ∧ lastFill.seq = .run 4 (.fill 0) ∧ lastFill.regs.status.busy = true ∧ lastFill.turns = []) ∧
    (let s := { lastFill with turns := [.block] }
     s.seq = .run 4 (.fill 0) ∧ s.turns = .block :: []) ∧
    State.reset.seq = .idle := by decide +kernel

/-- READ_DATA about to store its only byte, with memory that does not admit the address. -/
def storingInHole : State :=
  { busyAt .readData (.readData (.store 0 7)) { Regs.reset with count := 1, bufaddr := 0x100 } [] [] with
    params := { Params.default with holes := [⟨0x100, 1⟩] } }

/-- WRITE_BLOCKS about to read payload byte 511, which lies in a hole. -/
def fetchingInHole : State :=
  { busyAt .writeBlocks (.writeBlocks (.single (.fetch 511))) (streamRegs 1 0) [] [] with
    params := { Params.default with holes := [⟨511, 1⟩] } }

theorem storingInHole_inv : storingInHole.Inv where
  mem_wf := rfl
  seq_ok := ⟨rfl, .readData, rfl, by decide, (by decide : 0 < 1)⟩
  status_ok := ⟨⟨fun _ h => (nomatch h), fun _ => rfl⟩, fun h => Bool.noConfusion h, fun _ => ⟨rfl, rfl⟩⟩
  resp_ok := reset_regs_ok.1
  crc_ok := reset_regs_ok.2

theorem fetchingInHole_inv : fetchingInHole.Inv where
  mem_wf := rfl
  seq_ok := ⟨rfl, .writeBlocks, rfl, rfl, ⟨by decide, rfl⟩, rfl, rfl, (by decide : 511 < 512)⟩
  status_ok := ⟨⟨fun _ h => (nomatch h), fun _ => rfl⟩, fun h => Bool.noConfusion h, fun _ => ⟨rfl, rfl⟩⟩
  resp_ok := reset_regs_ok.1
  crc_ok := reset_regs_ok.2

theorem witness_EveryOperationAnswersANextState :
    (State.reset.Inv ∧ State.reset.seq = .idle ∧ accessAdmitted State.reset) ∧
    (lastFill.Inv ∧ lastFill.At .fill (.fill 0) ∧ accessAdmitted lastFill) ∧
    (storingInHole.At .readData (.readData (.store 0 7)) ∧ storingInHole.Inv ∧ storeAddr storingInHole = some 0x100 ∧
      admits storingInHole.params 0x100 = false ∧ storingInHole.params.memErr = .stuck) ∧
    (fetchingInHole.At .writeBlocks (.writeBlocks (.single (.fetch 511))) ∧ fetchingInHole.Inv ∧
      loadAddr fetchingInHole = some 511 ∧ admits fetchingInHole.params 511 = false ∧
      fetchingInHole.params.memErr = .stuck) := by
  refine ⟨⟨idleWith_inv [] [], rfl, ?_, ?_⟩, ⟨lastFill_inv, rfl, ?_, ?_⟩,
    ⟨rfl, storingInHole_inv, by decide +kernel, by decide +kernel, rfl⟩,
    ⟨rfl, fetchingInHole_inv, by decide +kernel, by decide +kernel, rfl⟩⟩ <;> exact fun a h => nomatch h

theorem witness_SendCmdStarts : State.reset.Idle := ⟨rfl, rfl⟩

theorem witness_SendCmdCompletes :
    (let s := busyAt (.sendCmdR1 0 true) (.sendCmd (.search 7)) Regs.reset [0x7F] []
     s.inputs.card = 0x7F :: [] ∧ s.At (.sendCmdR1 0 true) (.sendCmd (.search 7)) ∧ isResponse 0x7F = true) ∧
    (let s := busyAt (.sendCmdR1b 12 true) (.sendCmd (.busy (.poll 5))) Regs.reset [0xFF] []
     s.inputs.card = 0xFF :: [] ∧ s.At (.sendCmdR1b 12 true) (.sendCmd (.busy (.poll 5)))) ∧
    (let s := busyAt (.sendCmdR2 13 false) (.sendCmd (.extra 0 0 0)) Regs.reset [0x5A] []
     s.inputs.card = 0x5A :: [] ∧ s.At (.sendCmdR2 13 false) (.sendCmd (.extra 0 0 0))) ∧
    (let s := busyAt (.sendCmdR3 58 false) (.sendCmd (.extra 0 0xC0FF80 0)) Regs.reset [0x00] []
     s.inputs.card = 0x00 :: [] ∧ s.At (.sendCmdR3 58 false) (.sendCmd (.extra 0 0xC0FF80 0))) ∧
    (let s := busyAt (.sendCmdR7 8 false) (.sendCmd (.extra 1 1 0)) Regs.reset [0xAA] []
     s.inputs.card = 0xAA :: [] ∧ s.At (.sendCmdR7 8 false) (.sendCmd (.extra 1 1 0))) :=
  ⟨⟨rfl, rfl, by decide⟩, ⟨rfl, rfl⟩, ⟨rfl, rfl⟩, ⟨rfl, rfl⟩, rfl, rfl⟩

theorem witness_BusyProbeEndsSendCmd :
    let s := idleWith Regs.reset [0x00] []
    s.Idle ∧ s.inputs.card = 0x00 :: [] ∧ (0x00 : Byte) ≠ 0xFF := ⟨⟨rfl, rfl⟩, rfl, by decide⟩

theorem witness_FrameAndStuffAnswersAreIgnored : (idleWith Regs.reset [0x00] []).inputs.card = 0x00 :: [] := rfl

/-- R7 with NOCHK = 0: the response on the last allowed search exchange (SC5), and none at all. -/
theorem witness_SendCmdCollectsItsResponse :
    let frx : List Byte := [0xFF, 0x00, 0x00, 0x00, 0x00, 0xFF]
    (let noise : List Byte := List.replicate 7 0xFF
     let xs : List Byte := [0x00, 0x00, 0x01, 0xAA]
     let s := idleWith Regs.reset ([0xFF] ++ frx ++ noise ++ [0x01] ++ xs ++ [0x33]) []
     s.Idle ∧ RespType.r7 ≠ .r1b ∧ frx.length = 6 ∧ noise.length < s.params.respPollMax.toNat ∧
     (∀ b ∈ noise, isResponse b = false) ∧ isResponse 0x01 = true ∧ xs.length = nextra .r7 ∧
     s.inputs.card = (if false then [] else [0xFF]) ++ frx ++ noise ++ [0x01] ++ xs ++ [0x33]) ∧
    (let quiet : List Byte := List.replicate 8 0xFF
     let s := idleWith Regs.reset ([0xFF] ++ frx ++ quiet ++ [0x01]) []
     s.Idle ∧ frx.length = 6 ∧ quiet.length = s.params.respPollMax.toNat ∧ (∀ b ∈ quiet, isResponse b = false) ∧
     s.inputs.card = (if false then [] else [0xFF]) ++ frx ++ quiet ++ [0x01]) :=
  ⟨⟨⟨rfl, rfl⟩, by decide, rfl, by decide, by decide, by decide, rfl, rfl⟩, ⟨rfl, rfl⟩, rfl, rfl, by decide, rfl⟩

theorem witness_SendCmdR1bWaitsForBusReady :
    let frx : List Byte := List.replicate 6 0xFF
    let quiet : List Byte := List.replicate 8 0xFF
    (let s := idleWith Regs.reset ([] ++ frx ++ [0xFF] ++ [0x00] ++ [0x00] ++ [0xFF] ++ []) (0 :: [499] ++ [])
     s.Idle ∧ frx.length = 6 ∧ ([0xFF] : List Byte).length < s.params.respPollMax.toNat ∧
     (∀ b ∈ ([0xFF] : List Byte), isResponse b = false) ∧ isResponse 0x00 = true ∧
     (∀ b ∈ ([0x00] : List Byte), b ≠ 0xFF) ∧ ([0x00] : List Byte).length = ([499] : List Word).length ∧
     (∀ t ∈ ([499] : List Word), deadlinePassed s.regs.tmoCmd 0 t = false) ∧
     s.inputs.card = (if true then [] else [0xFF]) ++ frx ++ [0xFF] ++ [0x00] ++ [0x00] ++ [0xFF] ++ [] ∧
     s.inputs.clock = 0 :: [499] ++ []) ∧
    (let s := idleWith Regs.reset ([] ++ frx ++ [0xFF] ++ [0x00] ++ [0x00] ++ [0x01] ++ []) (0 :: [499] ++ [500] ++ [])
     s.Idle ∧ (0x01 : Byte) ≠ 0xFF ∧ deadlinePassed s.regs.tmoCmd 0 500 = true ∧
     s.inputs.card = (if true then [] else [0xFF]) ++ frx ++ [0xFF] ++ [0x00] ++ [0x00] ++ [0x01] ++ [] ∧
     s.inputs.clock = 0 :: [499] ++ [500] ++ []) ∧
    (let s := idleWith Regs.reset ([] ++ frx ++ quiet ++ []) []
     s.Idle ∧ quiet.length = s.params.respPollMax.toNat ∧ (∀ b ∈ quiet, isResponse b = false) ∧
     s.inputs.card = (if true then [] else [0xFF]) ++ frx ++ quiet ++ []) := by
  refine ⟨⟨⟨rfl, rfl⟩, rfl, by decide, by decide, by decide, by decide, rfl, fun t ht => ?_, rfl, rfl⟩,
    ⟨⟨rfl, rfl⟩, by decide, by decide, rfl, rfl⟩, ⟨rfl, rfl⟩, rfl, by decide, rfl⟩
  rw [List.mem_singleton.mp ht]
  decide

theorem witness_NoResponseEndsSendCmd :
    let frx : List Byte := List.replicate 6 0x00
    let noise : List Byte := List.replicate 8 0x80
    let s := idleWith Regs.reset ([0xFF] ++ frx ++ noise ++ []) []
    s.Idle ∧ frx.length = 6 ∧ noise.length = s.params.respPollMax.toNat ∧ (∀ b ∈ noise, isResponse b = false) ∧
    s.inputs.card = (if false then [] else [0xFF]) ++ frx ++ noise ++ [] := by
  refine ⟨⟨rfl, rfl⟩, ?_⟩
  decide +kernel

theorem witness_WaitReadyPollsUntilReadyOrDeadline :
    (let s := idleWith Regs.reset ([0x00] ++ [0xFF] ++ []) (0xFFFFFFF0 :: [0xFFFFFFFA] ++ [])
     s.Idle ∧ (∀ b ∈ ([0x00] : List Byte), b ≠ 0xFF) ∧
     ([0x00] : List Byte).length = ([0xFFFFFFFA] : List Word).length ∧
     (∀ t ∈ ([0xFFFFFFFA] : List Word), deadlinePassed s.regs.tmoCmd 0xFFFFFFF0 t = false) ∧
     s.inputs.card = [0x00] ++ [0xFF] ++ [] ∧ s.inputs.clock = 0xFFFFFFF0 :: [0xFFFFFFFA] ++ []) ∧
    (let s := idleWith Regs.reset ([] ++ [0x00] ++ []) (0xFFFFFFF0 :: [] ++ [0x1E4] ++ [])
     s.Idle ∧ (0x00 : Byte) ≠ 0xFF ∧ deadlinePassed s.regs.tmoCmd 0xFFFFFFF0 0x1E4 = true ∧
     s.inputs.card = [] ++ [0x00] ++ [] ∧ s.inputs.clock = 0xFFFFFFF0 :: [] ++ [0x1E4] ++ []) := by
  refine ⟨⟨⟨rfl, rfl⟩, by decide, rfl, fun t ht => ?_, rfl, rfl⟩, ⟨rfl, rfl⟩, by decide, by decide, rfl, rfl⟩
  rw [List.mem_singleton.mp ht]
  decide

theorem witness_DeadlineTestToleratesWrap :
    4294967295 < 2 ^ 32 ∧
    (let s := idleWith Regs.reset [0x00] [7]
     (0x00 : Byte) ≠ 0xFF ∧ s.inputs.card = 0x00 :: [] ∧ s.inputs.clock = 7 :: []) := by decide +kernel

theorem witness_SendCmdAndWaitReadyEnd :
    (State.reset.Idle ∧ RespType.r3 ≠ .r1b) ∧
    (let s := idleWith Regs.reset [] (0 :: [1] ++ [500] ++ [])
     s.Idle ∧ s.inputs.clock = 0 :: [1] ++ [500] ++ [] ∧ deadlinePassed s.regs.tmoCmd 0 500 = true) :=
  ⟨⟨⟨rfl, rfl⟩, by decide⟩, ⟨rfl, rfl⟩, rfl, by decide⟩

theorem witness_FillClocksCountFillerBytes : (idleWith { Regs.reset with count := 0xFFFFFFFF } [] []).Idle := ⟨rfl, rfl⟩

theorem witness_WaitFillAndReadDataComplete :
    (let s := busyAt .waitReady (.waitReady (.poll 3)) Regs.reset [0xFF] []
     s.inputs.card = 0xFF :: [] ∧ s.At .waitReady (.waitReady (.poll 3))) ∧
    (lastFill.inputs.card = 0x5A :: [] ∧ lastFill.At .fill (.fill 0)) ∧
    (let s := busyAt .readData (.readData .crc2) { Regs.reset with count := 8 } [0x34] []
     s.inputs.card = 0x34 :: [] ∧ s.At .readData (.readData .crc2)) := ⟨⟨rfl, rfl⟩, ⟨rfl, rfl⟩, rfl, rfl⟩

theorem witness_ReadDataChecksItsLength :
    (idleWith { Regs.reset with count := 512 } [] []).Idle ∧ (idleWith { Regs.reset with count := 513 } [] []).Idle :=
  ⟨⟨rfl, rfl⟩, rfl, rfl⟩

theorem witness_StartTokenIsClassified :
    (idleWith Regs.reset [0xFE] [9]).inputs.card = 0xFE :: [] ∧
    (idleWith Regs.reset [0xFF] [9]).inputs.card = 0xFF :: [] ∧
    (idleWith Regs.reset [0xFD] [9]).inputs.card = 0xFD :: [] ∧ (0xFD : Byte) ≠ 0xFE ∧ (0xFD : Byte) ≠ 0xFF ∧
    (idleWith Regs.reset [0xFF] [9]).inputs.clock = 9 :: [] := by decide +kernel

/-- READ_DATA in its token wait, with a byte that is no token. -/
def badToken : State := busyAt .readData (.readData (.token (.poll 0))) { Regs.reset with count := 16 } [0x09] []

/-- READ_DATA before its first payload byte. -/
def firstByte : State := busyAt .readData (.readData (.recv 0)) { Regs.reset with count := 16 } [] []

/-- READ_BLOCKS with `n` blocks at a point of its data phase, `k` blocks completed, and the card about to return a byte
that is neither filler nor the start token. -/
def reading (n k : Word) (q : RbPos) : State := busyAt .readBlocks (.readBlocks q) (streamRegs n k) [0x08] []

theorem reading_single_inv {q : ReadPos} (h : q.Ok blockSize) : (reading 1 0 (.single q)).Inv :=
  busyAt_inv rfl ⟨⟨(by decide : (1 : Word) ≠ 0), rfl⟩, rfl, rfl, h⟩ reset_regs_ok.1 reset_regs_ok.2

theorem reading_block_inv {q : ReadPos} (h : q.Ok blockSize) : (reading 2 1 (.block 1 q)).Inv :=
  busyAt_inv rfl ⟨⟨(by decide : (2 : Word) ≠ 0), rfl⟩, (by decide : 2 ≤ 2), (by decide : 1 < 2), rfl, h⟩
    reset_regs_ok.1 reset_regs_ok.2

theorem witness_ReadPacketFailsOnlyOnItsToken :
    (badToken.Inv ∧ badToken.At .readData (.readData (.token (.poll 0))) ∧
      (waitTokenStep badToken.regs.tmoToken (.poll 0) badToken).1 = .ret .badToken ∧ Cause.badToken ≠ .none ∧
      ∃ t, exec .readData badToken = .next t) ∧
    (firstByte.Inv ∧ firstByte.At .readData (.readData (.recv 0)) ∧
      ∀ j < firstByte.regs.count.toNat, admits firstByte.params (byteAddr firstByte.regs.bufaddr j) = true) ∧
    (∀ p ∈ [((1 : Word), (0 : Word), (RbPos.single (.token (.poll 0)))), (2, 1, .block 1 (.token (.poll 0)))],
      let s := reading p.1 p.2.1 p.2.2
      s.Inv ∧ s.At .readBlocks (.readBlocks p.2.2) ∧
        (waitTokenStep s.regs.tmoToken (.poll 0) s).1 = .ret .badToken ∧ ∃ t, exec .readBlocks s = .next t) ∧
    (let s := reading 1 0 (.single (.recv 0))
     s.Inv ∧ s.At .readBlocks (.readBlocks (.single (.recv 0))) ∧
       ∀ j < 512, admits s.params (byteAddr s.regs.bufaddr j) = true) ∧
    (let s := reading 2 1 (.block 1 (.recv 0))
     s.Inv ∧ s.At .readBlocks (.readBlocks (.block 1 (.recv 0))) ∧
       ∀ j < 512, admits s.params (s.regs.bufaddr + BitVec.ofNat 32 (512 * 1) + BitVec.ofNat 32 j) = true) := by
  refine ⟨⟨busyAt_inv rfl ⟨by decide, trivial⟩ reset_regs_ok.1 reset_regs_ok.2, rfl, by decide +kernel, by decide, ?_⟩,
    ⟨busyAt_inv rfl ⟨by decide, (by decide : 0 < 16)⟩ reset_regs_ok.1 reset_regs_ok.2, rfl, fun _ _ => rfl⟩,
    fun p hp => ?_, ⟨reading_single_inv (by decide : 0 < 512), rfl, fun _ _ => rfl⟩,
    reading_block_inv (by decide : 0 < 512), rfl, fun _ _ => rfl⟩
  · obtain ⟨t, h, _⟩ := nextIs_next (o := exec .readData badToken) (p := fun _ => true) (by decide +kernel)
    exact ⟨t, h⟩
  · obtain ⟨t, h, _⟩ := nextIs_next (o := exec .readBlocks (reading p.1 p.2.1 p.2.2)) (p := fun _ => true)
      (by revert p; decide +kernel)
    refine ⟨?_, rfl, by clear h; revert p; decide +kernel, t, h⟩
    simp only [List.mem_cons, List.not_mem_nil, or_false] at hp
    rcases hp with rfl | rfl
    · exact reading_single_inv trivial
    · exact reading_block_inv trivial

theorem witness_ReadDataStoresThePayload :
    let s := idleWith { Regs.reset with count := 2, bufaddr := 0xFFFFFFFF }
      ([0xFF] ++ [0xFE] ++ [0xAB, 0xCD] ++ [0x00, 0x00] ++ []) (0 :: [99] ++ [])
    s.Idle ∧ Memory.wf s.mem = true ∧ ([0xAB, 0xCD] : List Byte).length = s.regs.count.toNat ∧
    (∀ b ∈ ([0xFF] : List Byte), b = 0xFF) ∧ (∀ t ∈ ([99] : List Word), deadlinePassed s.regs.tmoToken 0 t = false) ∧
    (∀ j < 2, admits s.params (byteAddr s.regs.bufaddr j) = true) ∧
    s.inputs.card = [0xFF] ++ [0xFE] ++ [0xAB, 0xCD] ++ [0x00, 0x00] ++ [] ∧ s.inputs.clock = 0 :: [99] ++ [] := by
  refine ⟨⟨rfl, rfl⟩, rfl, rfl, by decide, fun t ht => ?_, fun _ _ => rfl, rfl, rfl⟩
  rw [List.mem_singleton.mp ht]
  decide

theorem witness_BlockOperationsCheckBeforeAnyEvent :
    (idleWith Regs.reset [] []).Idle ∧
    (let s := idleWith { Regs.reset with count := 1, arg := 0x800000 } [] []
     s.Idle ∧ s.regs.count ≠ 0 ∧ s.regs.hc = false ∧ 2 ^ 23 ≤ s.regs.arg.toNat ∧ s.regs.wp = false) ∧
    (let s := idleWith { Regs.reset with count := 1, arg := 0x7FFFFF } [] []
     s.Idle ∧ s.regs.count ≠ 0 ∧ s.regs.arg.toNat < 2 ^ 23 ∧ s.regs.wp = false) ∧
    (let s := idleWith { Regs.reset with wp := true } [] []
     s.Idle ∧ s.regs.wp = true) :=
  ⟨⟨rfl, rfl⟩, ⟨⟨rfl, rfl⟩, by decide, rfl, by decide, rfl⟩, ⟨⟨rfl, rfl⟩, by decide, by decide, rfl⟩, ⟨rfl, rfl⟩, rfl⟩

/-- A block operation in the wait before its data command. -/
def waiting (i : Instr) (p : Pos) (hc : Bool) : State :=
  busyAt i p { Regs.reset with count := 2, arg := 0x7FFFFF, hc := hc } [0xFF] [501]

theorem waiting_read_inv (hc : Bool) : (waiting .readBlocks (.readBlocks (.cmd (.ready (.poll 1)))) hc).Inv := by
  refine busyAt_inv rfl ⟨⟨(by decide : (2 : Word) ≠ 0), ?_⟩, rfl, trivial⟩ reset_regs_ok.1 reset_regs_ok.2
  cases hc <;> decide +kernel

theorem waiting_write_inv (hc : Bool) : (waiting .writeBlocks (.writeBlocks (.cmd (.ready (.poll 1)))) hc).Inv := by
  refine busyAt_inv rfl ⟨rfl, ⟨(by decide : (2 : Word) ≠ 0), ?_⟩, rfl, trivial⟩ reset_regs_ok.1 reset_regs_ok.2
  cases hc <;> decide +kernel

theorem witness_DataCommandCarriesTheCardAddress :
    (∀ hc, let s := waiting .readBlocks (.readBlocks (.cmd (.ready (.poll 1)))) hc
      s.Inv ∧ s.inputs.card = 0xFF :: [] ∧ s.At .readBlocks (.readBlocks (.cmd (.ready (.poll 1)))) ∧
      (if hc then (0x7FFFFF : Word) else 0xFFFFFE00).toNat =
        (if s.regs.hc then s.regs.arg.toNat else 512 * s.regs.arg.toNat)) ∧
    (∀ hc, let s := waiting .writeBlocks (.writeBlocks (.cmd (.ready (.poll 1)))) hc
      s.Inv ∧ s.inputs.card = 0xFF :: [] ∧ s.At .writeBlocks (.writeBlocks (.cmd (.ready (.poll 1)))) ∧
      (if hc then (0x7FFFFF : Word) else 0xFFFFFE00).toNat =
        (if s.regs.hc then s.regs.arg.toNat else 512 * s.regs.arg.toNat)) ∧
    (let s := waiting .readBlocks (.readBlocks (.cmd (.ready (.test 1)))) false
     s.inputs.clock = 501 :: [] ∧ deadlinePassed s.regs.tmoBusy 1 501 = true ∧
       s.At .readBlocks (.readBlocks (.cmd (.ready (.test 1))))) ∧
    (let s := waiting .writeBlocks (.writeBlocks (.cmd (.ready (.test 1)))) false
     s.inputs.clock = 501 :: [] ∧ deadlinePassed s.regs.tmoBusy 1 501 = true ∧
       s.At .writeBlocks (.writeBlocks (.cmd (.ready (.test 1))))) := by
  refine ⟨fun hc => ⟨waiting_read_inv hc, rfl, rfl, ?_⟩, fun hc => ⟨waiting_write_inv hc, rfl, rfl, ?_⟩,
    ⟨rfl, by decide, rfl⟩, rfl, by decide, rfl⟩ <;> cases hc <;> decide +kernel

theorem witness_DataCommandNeedsR1Zero :
    (∀ n : Word, ∀ r : Byte, let s := busyAt .readBlocks (.readBlocks (.cmd (.cmd (.search 0)))) (streamRegs n 0) [r] []
      s.inputs.card = r :: [] ∧ s.regs.count = n ∧ s.At .readBlocks (.readBlocks (.cmd (.cmd (.search 0))))) ∧
    (∀ n : Word, ∀ r : Byte, let s := busyAt .writeBlocks (.writeBlocks (.cmd (.cmd (.search 0)))) (streamRegs n 0) [r] []
      s.inputs.card = r :: [] ∧ s.regs.count = n ∧ s.At .writeBlocks (.writeBlocks (.cmd (.cmd (.search 0))))) ∧
    isResponse 0x00 = true ∧ isResponse 0x04 = true ∧ (0x04 : Byte) ≠ 0x00 ∧ 2 ≤ (2 : Word).toNat :=
  ⟨fun _ _ => ⟨rfl, rfl, rfl⟩, fun _ _ => ⟨rfl, rfl, rfl⟩, by decide, by decide, by decide, by decide⟩

theorem witness_ReceivedByteIsStored :
    (let s := busyAt .readData (.readData (.store 15 1)) { Regs.reset with count := 16, bufaddr := 0xFFFFFFF8 } [] []
     Memory.wf s.mem = true ∧ 15 < 512 ∧ admits s.params (byteAddr s.regs.bufaddr 15) = true ∧
       15 < s.regs.count.toNat ∧ s.At .readData (.readData (.store 15 1))) ∧
    (let s := busyAt .readBlocks (.readBlocks (.single (.store 511 1))) (streamRegs 1 0) [] []
     Memory.wf s.mem = true ∧ 511 < 512 ∧ admits s.params (byteAddr s.regs.bufaddr 511) = true ∧
       s.At .readBlocks (.readBlocks (.single (.store 511 1)))) ∧
    (let s := busyAt .readBlocks (.readBlocks (.block 1 (.store 0 1))) (streamRegs 2 1) [] []
     Memory.wf s.mem = true ∧
       admits s.params (s.regs.bufaddr + BitVec.ofNat 32 (512 * 1) + BitVec.ofNat 32 0) = true ∧
       s.At .readBlocks (.readBlocks (.block 1 (.store 0 1)))) :=
  ⟨⟨rfl, by decide, rfl, by decide, rfl⟩, ⟨rfl, by decide, rfl, rfl⟩, rfl, rfl, rfl⟩

theorem witness_SingleBlockReadCompletes :
    (let s := busyAt .readBlocks (.readBlocks (.single .crc2)) (streamRegs 1 0) [0xBB] []
     s.inputs.card = 0xBB :: [] ∧ s.At .readBlocks (.readBlocks (.single .crc2))) ∧
    (let s := busyAt .readBlocks (.readBlocks (.single (.token (.poll 0)))) (streamRegs 1 0) [0x08] []
     s.inputs.card = 0x08 :: [] ∧ (0x08 : Byte) ≠ 0xFE ∧ (0x08 : Byte) ≠ 0xFF ∧
       s.At .readBlocks (.readBlocks (.single (.token (.poll 0))))) ∧
    (let s := busyAt .readBlocks (.readBlocks (.single (.token (.test 0)))) (streamRegs 1 0) [0xFF] [100]
     s.inputs.card = 0xFF :: [] ∧ s.inputs.clock = 100 :: [] ∧ deadlinePassed s.regs.tmoToken 0 100 = true ∧
       s.At .readBlocks (.readBlocks (.single (.token (.test 0))))) :=
  ⟨⟨rfl, rfl⟩, ⟨rfl, by decide, by decide, rfl⟩, rfl, rfl, by decide, rfl⟩

theorem witness_MultiBlockReadAlwaysSendsCmd12 :
    (let s := busyAt .readBlocks (.readBlocks (.block 0 .crc2)) (streamRegs 2 0) [0x02] []
     s.inputs.card = 0x02 :: [] ∧ 0 < s.regs.count.toNat ∧ 0 + 1 < s.regs.count.toNat ∧
       s.At .readBlocks (.readBlocks (.block 0 .crc2))) ∧
    (let s := busyAt .readBlocks (.readBlocks (.block 1 .crc2)) (streamRegs 2 1) [0x04] []
     s.inputs.card = 0x04 :: [] ∧ 1 < s.regs.count.toNat ∧ 1 + 1 = s.regs.count.toNat ∧
       s.At .readBlocks (.readBlocks (.block 1 .crc2))) ∧
    (let s := busyAt .readBlocks (.readBlocks (.block 1 (.token (.poll 0)))) (streamRegs 3 1) [0x0B] []
     s.inputs.card = 0x0B :: [] ∧ 1 < s.regs.count.toNat ∧ (0x0B : Byte) ≠ 0xFE ∧ (0x0B : Byte) ≠ 0xFF ∧
       s.At .readBlocks (.readBlocks (.block 1 (.token (.poll 0))))) ∧
    (let s := busyAt .readBlocks (.readBlocks (.block 1 (.token (.test 0)))) (streamRegs 3 1) [0xFF] [100]
     s.inputs.card = 0xFF :: [] ∧ 1 < s.regs.count.toNat ∧ s.inputs.clock = 100 :: [] ∧
       deadlinePassed s.regs.tmoToken 0 100 = true ∧ s.At .readBlocks (.readBlocks (.block 1 (.token (.test 0))))) :=
  ⟨⟨rfl, by decide, by decide, rfl⟩, ⟨rfl, by decide, by decide, rfl⟩, ⟨rfl, by decide, by decide, by decide, rfl⟩,
    rfl, by decide, rfl, by decide, rfl⟩

/-- READ_BLOCKS in the busy wait of its CMD12, with the first error `e` recorded. -/
def stopping (e : Cause) (k : Word) : State :=
  busyAt .readBlocks (.readBlocks (.stop e (.busy (.poll 0)))) (streamRegs 2 k) [0xFF] []

/-- WRITE_BLOCKS in the final wait of its stop sequence, with the first error `e` recorded. -/
def stoppingWrite (e : Cause) (k : Word) : State :=
  busyAt .writeBlocks (.writeBlocks (.stop e (.ready2 true (.poll 0)))) (streamRegs 2 k) [0xFF] []

theorem witness_FirstErrorWinsInAStream :
    (∀ p ∈ [(Cause.none, (2 : Word)), (.badToken, 1)],
      (stopping p.1 p.2).Inv ∧ (stopping p.1 p.2).At .readBlocks (.readBlocks (.stop p.1 (.busy (.poll 0)))) ∧
      ∃ t, exec .readBlocks (stopping p.1 p.2) = .next t ∧ t.regs.status.busy = false) ∧
    (∀ p ∈ [(Cause.none, (2 : Word)), (.dataRejected, 0)],
      (stoppingWrite p.1 p.2).Inv ∧
      (stoppingWrite p.1 p.2).At .writeBlocks (.writeBlocks (.stop p.1 (.ready2 true (.poll 0)))) ∧
      ∃ t, exec .writeBlocks (stoppingWrite p.1 p.2) = .next t ∧ t.regs.status.busy = false) := by
  refine ⟨fun p hp => ⟨?_, rfl, ?_⟩, fun p hp => ⟨?_, rfl, ?_⟩⟩
  · refine busyAt_inv rfl ⟨⟨(by decide : (2 : Word) ≠ 0), rfl⟩, (by decide : 2 ≤ 2), ?_, ?_, rfl⟩ reset_regs_ok.1 reset_regs_ok.2
    · revert p; decide
    · simp only [List.mem_cons, List.not_mem_nil, or_false] at hp
      rcases hp with rfl | rfl
      · exact (rfl : (streamRegs 2 2).blkdone = (streamRegs 2 2).count)
      · exact (by decide : (streamRegs 2 1).blkdone.toNat < (streamRegs 2 1).count.toNat)
  · obtain ⟨t, h, hb⟩ := nextIs_next (o := exec .readBlocks (stopping p.1 p.2)) (p := fun t => !t.regs.status.busy)
      (by revert p; decide +kernel)
    exact ⟨t, h, by simpa using hb⟩
  · refine busyAt_inv rfl ⟨rfl, ⟨(by decide : (2 : Word) ≠ 0), rfl⟩, (by decide : 2 ≤ 2), ?_, ?_, trivial⟩
      reset_regs_ok.1 reset_regs_ok.2
    · revert p; decide
    · simp only [List.mem_cons, List.not_mem_nil, or_false] at hp
      rcases hp with rfl | rfl
      · exact (rfl : (streamRegs 2 2).blkdone = (streamRegs 2 2).count)
      · exact (by decide : (streamRegs 2 0).blkdone.toNat < (streamRegs 2 0).count.toNat)
  · obtain ⟨t, h, hb⟩ := nextIs_next (o := exec .writeBlocks (stoppingWrite p.1 p.2))
      (p := fun t => !t.regs.status.busy) (by revert p; decide +kernel)
    exact ⟨t, h, by simpa using hb⟩

theorem witness_PayloadIsReadAndSent :
    (∀ q ∈ [WritePos.token, .fetch 511, .send 511 9], ∀ b : WbPos, b = .single q ∨ b = .block 1 q →
      let s := busyAt .writeBlocks (.writeBlocks b) (streamRegs 2 1) [0xFF] []
      s.inputs.card = 0xFF :: [] ∧ 511 < 512 ∧ s.At .writeBlocks (.writeBlocks b) ∧
        admits s.params (byteAddr s.regs.bufaddr 511) = true ∧
        admits s.params (s.regs.bufaddr + BitVec.ofNat 32 (512 * 1) + BitVec.ofNat 32 511) = true) :=
  fun _ _ _ _ => ⟨rfl, by decide, rfl, rfl, rfl⟩

theorem witness_DataResponseDecidesThePacket :
    (∀ d : Byte, ∀ b ∈ [WbPos.single .crc2, .single .resp, .block 0 .crc2, .block 0 .resp, .block 1 .resp],
      let s := busyAt .writeBlocks (.writeBlocks b) (streamRegs 2 0) [d] []
      s.inputs.card = d :: [] ∧ s.At .writeBlocks (.writeBlocks b) ∧ 0 + 1 < s.regs.count.toNat ∧
        1 + 1 = s.regs.count.toNat) ∧
    (0xE5 : Byte).toNat % 32 = 5 ∧ (0x0D : Byte).toNat % 32 ≠ 5 :=
  ⟨fun _ _ _ => ⟨rfl, rfl, (by decide : 0 + 1 < 2), (by decide : 1 + 1 = 2)⟩, by decide, by decide⟩

theorem witness_SingleBlockWriteCompletes :
    (∀ b ∈ [WbPos.single (.ready (.test 0)), .lastWait .none (.test 0), .lastWait .dataRejected (.test 0),
        .lastWait .none (.poll 0), .lastWait .dataRejected (.poll 0)],
      let s := busyAt .writeBlocks (.writeBlocks b) (streamRegs 1 0) [0xFF] [500]
      s.inputs.clock = 500 :: [] ∧ deadlinePassed s.regs.tmoBusy 0 500 = true ∧ s.inputs.card = 0xFF :: [] ∧
        s.At .writeBlocks (.writeBlocks b)) := fun _ _ => ⟨rfl, (by decide : deadlinePassed 500 0 500 = true), rfl, rfl⟩

theorem witness_StopTokenIsSentWhateverTheWait :
    (let s := idleWith Regs.reset [0xFF] [500]
     s.inputs.card = 0xFF :: [] ∧ s.inputs.clock = 500 :: [] ∧ deadlinePassed 500 0 500 = true) := by decide +kernel

/-- Every operation of the framer runs whole: SC1 with an R1, SC13 with an R1b, CRC7, WAIT_READY and FILL. -/
theorem witness_FramerRunsItsPseudocode :
    ∀ q ∈ [(Instr.sendCmdR1 0 false, [0xFF] ++ List.replicate 6 0xFF ++ [0xFF, 0x01], ([] : List Word)),
        (.sendCmdR1b 12 true, List.replicate 6 0xFF ++ [0x00, 0x00, 0xFF], [0, 1]),
        (.sendCmdR2 13 true, List.replicate 6 0xFF ++ [0x00, 0x5A], []),
        (.sendCmdR3 58 true, List.replicate 6 0xFF ++ [0x00, 0xC0, 0xFF, 0x80, 0x00], []),
        (.sendCmdR7 8 true, List.replicate 6 0xFF ++ [0x01, 0x00, 0x00, 0x01, 0xAA], []),
        (.crc7 0, [], []), (.waitReady, [0x00, 0xFF], [0, 1]), (.fill, [0x5A, 0x00], [])],
      let s := idleWith { Regs.reset with count := 2 } q.2.1 q.2.2
      q.1 ≠ .readData ∧ q.1 ≠ .readBlocks ∧ q.1 ≠ .writeBlocks ∧ s.seq = .idle ∧ s.regs.status.busy = false ∧
        (wholeRun 3 q.1 s).isSome = true := by decide +kernel

theorem witness_ReadDataRunsItsPseudocode :
    (idleWith { Regs.reset with count := 1 } [0xFF, 0xFE, 0x77, 0, 0] [0, 4]).Idle ∧
    (wholeRun 2 .readData (idleWith { Regs.reset with count := 1 } [0xFF, 0xFE, 0x77, 0, 0] [0, 4])).isSome = true :=
  ⟨⟨rfl, rfl⟩, by decide +kernel⟩

/-- RB9: the data command succeeds and the token is bad. -/
theorem witness_ReadBlocksRunsItsPseudocode :
    let s := idleWith { Regs.reset with count := 1 } ([0xFF] ++ List.replicate 6 0xFF ++ [0x00, 0xFF, 0x08]) [0, 0, 0]
    s.Idle ∧ (wholeRun 2 .readBlocks s).isSome = true := ⟨⟨rfl, rfl⟩, by decide +kernel⟩

/-- WB14: CMD25 is refused. -/
theorem witness_WriteBlocksRunsItsPseudocode :
    let s := idleWith { Regs.reset with count := 2, hc := true } ([0xFF] ++ List.replicate 6 0xFF ++ [0x40]) [0]
    s.Idle ∧ (wholeRun 2 .writeBlocks s).isSome = true := ⟨⟨rfl, rfl⟩, by decide +kernel⟩

theorem witness_OperationsKeepTheirOperands :
    (∃ t, exec .fill lastFill = .next t) ∧ (∃ t, exec (.crc7 9) State.reset = .next t) ∧
    Instr.fill ≠ .readBlocks ∧ Instr.fill ≠ .writeBlocks := by
  obtain ⟨t, h, _⟩ := nextIs_next (o := exec .fill lastFill) (p := fun _ => true) (by decide +kernel)
  obtain ⟨u, h', _⟩ := nextIs_next (o := exec (.crc7 9) State.reset) (p := fun _ => true) (by decide +kernel)
  exact ⟨⟨t, h⟩, ⟨u, h'⟩, by decide, by decide⟩

/-- READ_DATA about to store its only byte. -/
def storing : State := busyAt .readData (.readData (.store 0 7)) { Regs.reset with count := 1, bufaddr := 0x100 } [] []

theorem storing_inv : storing.Inv := busyAt_inv rfl ⟨by decide, (by decide : 0 < 1)⟩ reset_regs_ok.1 reset_regs_ok.2

theorem witness_OperationsWriteOnlyTheirStoredByte :
    (∃ t, exec .readData storing = .next t) ∧ storeAddr storing = some 0x100 ∧
    (∃ t, exec .fill lastFill = .next t) ∧ storeAddr lastFill = none := by
  obtain ⟨t, h, _⟩ := nextIs_next (o := exec .readData storing) (p := fun _ => true) (by decide +kernel)
  exact ⟨⟨t, h⟩, by decide +kernel, witness_OperationsKeepTheirOperands.1, rfl⟩

theorem witness_BufferIsWrittenOnlyInTheNamedRange :
    storing.Inv ∧ ∃ t, exec .readData storing = .next t ∧ Memory.read t.mem 0x100 ≠ Memory.read storing.mem 0x100 := by
  obtain ⟨t, h, hr⟩ := nextIs_next (o := exec .readData storing) (p := fun t => Memory.read t.mem 0x100 == 7) (by decide +kernel)
  refine ⟨storing_inv, t, h, ?_⟩
  rw [eq_of_beq hr]
  decide +kernel

theorem no_reset {s : State} (h : s.turns = []) (ts : List Turn) : s.turns ≠ .reset :: ts := by simp [h]

theorem witness_WritesWhileBusyAreIgnored :
    probing.Inv ∧ probing.regs.status.busy = true ∧ (∀ ts, probing.turns ≠ .reset :: ts) ∧
      ∃ t, step probing = .next t := by
  obtain ⟨t, h, _⟩ := nextIs_next (o := step probing) (p := fun _ => true) (by decide +kernel)
  exact ⟨probing_inv, rfl, no_reset rfl, t, h⟩

theorem witness_WritesWhileIdleStore : State.reset.regs.status.busy = false ∧ Reg.cfg ≠ .op := by decide

theorem witness_ReadsAreExactExceptWhileBusy :
    (State.reset.regs.status.busy = false ∨ Reg.resp ∉ [Reg.resp, .respx, .crc, .blkdone]) ∧
    (probing.regs.status.busy = true ∧ Reg.crc ∈ [Reg.resp, .respx, .crc, .blkdone]) := by decide +kernel

theorem witness_OnlyAlignedWordAccessesNameARegister :
    regAt State.reset.params.regBase 0x40 4 = none ∧ regAt State.reset.params.regBase 0x3E 4 = none ∧
    regAt State.reset.params.regBase 0x3C 2 = none ∧ State.reset.params.busErr = .refuse ∧
    ({ State.reset with params := { Params.default with busErr := .busError } } : State).params.busErr = .busError := by
  decide +kernel

theorem witness_ResetValues : ∃ s : State, (resetBlock s).regs = (resetBlock probing).regs := ⟨lastFill, rfl⟩

theorem witness_ResetAbortsAndRestores : ({ probing with turns := [.reset] } : State).turns = .reset :: [] := rfl

theorem witness_StepKeepsInvariant : storing.Inv ∧ ∃ t, step storing = .next t := by
  obtain ⟨t, h, _⟩ := nextIs_next (o := step storing) (p := fun _ => true) (by decide +kernel)
  exact ⟨storing_inv, t, h⟩

theorem witness_OneEventPerStep :
    (storing.Inv ∧ storing.regs.status.busy = true ∧ BlockTurn storing ∧ (∀ ts, storing.turns ≠ .reset :: ts) ∧
      ∃ t, step storing = .next t) ∧
    (let s := { storing with turns := [.block, .host] }
     s.regs.status.busy = true ∧ BlockTurn s ∧ ∃ t, step s = .next t) := by
  obtain ⟨t, h, _⟩ := nextIs_next (o := step { storing with turns := [.block, .host] }) (p := fun _ => true)
    (by decide +kernel)
  exact ⟨⟨storing_inv, rfl, .inl ⟨rfl, rfl⟩, no_reset rfl, witness_StepKeepsInvariant.2⟩, rfl, .inr ⟨_, rfl⟩, t, h⟩

/-- A machine in front of one host statement, on an idle block with no schedule. -/
def hostAt (st : HostStmt) : State := { State.reset with host := { prog := [st], pc := 0, last := 0 } }

/-- READ_DATA about to store its byte at 0x100, the host in front of one statement and next to move. -/
def racing (st : HostStmt) : State :=
  { storing with host := { prog := [st], pc := 0, last := 0 }, turns := [.host, .block] }

theorem hostAt_turn (st : HostStmt) : HostTurn (hostAt st) (hostAt st) ∧ (hostAt st).host.prog[(hostAt st).host.pc]? = some st ∧
    (hostAt st).regs.status.busy = false := ⟨.inl ⟨rfl, rfl, rfl⟩, rfl, rfl⟩

theorem racing_turn (st : HostStmt) : HostTurn (racing st) { racing st with turns := [.block] } ∧
    (racing st).host.prog[(racing st).host.pc]? = some st ∧ (racing st).regs.status.busy = true :=
  ⟨.inr ⟨[.block], rfl, rfl⟩, rfl, rfl⟩

/-- The machine after reset in front of one host statement, on a platform with its policies set and a hole at 0x100. -/
def hostInHole (b : BusErrPolicy) (st : HostStmt) : State :=
  { hostAt st with params := { Params.default with busErr := b, holes := [⟨0x100, 1⟩] } }

theorem hostInHole_inv (b : BusErrPolicy) (st : HostStmt) : (hostInHole b st).Inv where
  mem_wf := rfl
  seq_ok := trivial
  status_ok := (idleWith_inv [] []).status_ok
  resp_ok := reset_regs_ok.1
  crc_ok := reset_regs_ok.2

/-- Each stop, in a state that meets its condition: a store into a hole under both policies, a misaligned and a narrow
register access under both policies, a host access to the hole. -/
theorem witness_SafeStepsStopOnlyWhereTheSpecDoes :
    (storingInHole.Inv ∧ (match step storingInHole with | .fault .bufferStuck => true | _ => false) = true) ∧
    (match step { storingInHole with params := { storingInHole.params with memErr := .other } } with
      | .refused .memErrPolicyOpen => true | _ => false) = true ∧
    (∀ b st, (hostInHole b st).Inv ∧ HostAt (hostInHole b st) st) ∧
    (match step (hostInHole .busError (.busRead 0x2 4)) with | .fault .registerBusError => true | _ => false) = true ∧
    (match step (hostInHole .refuse (.busWrite 0x4 2 9)) with
      | .refused .undefinedRegisterAccess => true | _ => false) = true ∧
    (match step (hostInHole .refuse (.bufRead 0x100)) with
      | .refused .hostBufferUnmapped => true | _ => false) = true ∧
    (State.reset.Inv ∧ ∃ t, step State.reset = .next t) :=
  ⟨⟨storingInHole_inv, by decide +kernel⟩, by decide +kernel,
    fun b st => ⟨hostInHole_inv b st, ⟨_, .inl ⟨rfl, rfl, rfl⟩⟩, rfl⟩, by decide +kernel, by decide +kernel,
    by decide +kernel, idleWith_inv [] [], _, rfl⟩

/-- A statement of each kind, on an idle and on a busy block (`hostAt_turn`, `racing_turn` hold for every statement); a
platform address at each end of the window; a byte the operation uses, the one after it, and an address without memory. -/
theorem witness_HostStatementsMoveTheHost :
    (∀ st : HostStmt, HostTurn (hostAt st) (hostAt st) ∧
      HostTurn (racing st) { racing st with turns := [.block] }) ∧
    writesReg (hostAt (.w .op 3)) (.w .op 3) .op 3 ∧ writesReg (hostAt (.w .arg 5)) (.w .arg 5) .arg 5 ∧
    writesReg (hostAt (.busWrite 0 4 3)) (.busWrite 0 4 3) .op 3 ∧
    writesReg (racing (.busWrite 0x3C 4 7)) (.busWrite 0x3C 4 7) .rsv3c 7 ∧
    readsReg (racing (.r .resp)) (.r .resp) .resp ∧ readsReg (hostAt (.busRead 0xC 4)) (.busRead 0xC 4) .status ∧
    (admits (racing (.bufRead 0x100)).params 0x100 = true ∧ usesByte (racing (.bufRead 0x100)) 0x100 = true) ∧
    usesByte (racing (.bufRead 0x101)) 0x101 = false ∧ usesByte (racing (.bufRead 0xFF)) 0xFF = false ∧
    (admits storingInHole.params 0x100 = false ∧ admits storingInHole.params 0x101 = true) ∧
    (decode 5 = .op .readData ∧ storing.seq = .run 5 (.readData (.store 0 7))) ∧
    (let s := busyAt .readBlocks (.readBlocks (.single .crc1)) (streamRegs 1 0) [] []
     s.seq = .run 6 (.readBlocks (.single .crc1)) ∧ decode 6 = .op .readBlocks ∧
       usesByte s 511 = true ∧ usesByte s 512 = false) ∧
    (∃ t, step (racing (.bufRead 0x100)) = .next t) := by
  refine ⟨fun st => ⟨(hostAt_turn st).1, (racing_turn st).1⟩, .inl rfl, .inl rfl, .inr ⟨0, 4, rfl, rfl⟩,
    .inr ⟨0x3C, 4, rfl, by decide +kernel⟩, .inl rfl, .inr ⟨0xC, 4, rfl, by decide +kernel⟩, by decide +kernel,
    by decide +kernel, by decide +kernel, by decide +kernel, ⟨rfl, rfl⟩, by decide +kernel, ?_⟩
  obtain ⟨t, h, _⟩ := nextIs_next (o := step (racing (.bufRead 0x100))) (p := fun _ => true) (by decide +kernel)
  exact ⟨t, h⟩

end Sys2Proof.Tests
end

section
/-! The event trace: what each agent's step does to it (00_scope.md R11, R15, 10_state.md R21, 60_exceptions.md R246). -/

namespace Sys2Proof.Machine

/-! ### Whose turn it is -/

/-- In every state the host moves, the block moves, or reset does (R246, R270). -/
theorem turn_cases (s : State) : (∃ u, HostTurn s u) ∨ BlockTurn s ∨ ∃ ts, s.turns = .reset :: ts := by
  cases ht : s.turns with
  | nil =>
    cases hb : s.regs.status.busy with
    | false => exact .inl ⟨s, .inl ⟨ht, hb, rfl⟩⟩
    | true => exact .inr (.inl (.inl ⟨ht, hb⟩))
  | cons a ts =>
    cases a with
    | host => exact .inl ⟨_, .inr ⟨ts, ht, rfl⟩⟩
    | block => exact .inr (.inl (.inr ⟨ts, ht⟩))
    | reset => exact .inr (.inr ⟨ts, rfl⟩)

/-- Where the host moves, the step is the host agent's. -/
theorem step_of_hostTurn {s u : State} (h : HostTurn s u) : step s = hostStep u := by
  obtain ⟨ht, hb, rfl⟩ | ⟨ts, ht, rfl⟩ := h
  · simp [step, ht, hb]
  · simp only [step, ht, turnStep]

/-- Where the block moves, the step is the sequencer's. -/
theorem step_of_blockTurn {s : State} (h : BlockTurn s) : ∃ ts, step s = blockStep { s with turns := ts } := by
  obtain ⟨ht, hb⟩ | ⟨ts, ht⟩ := h
  · have hs : { s with turns := [] } = s := by rw [← ht]
    exact ⟨[], by simp [step, ht, hb, hs]⟩
  · exact ⟨ts, by simp only [step, ht, turnStep]⟩

/-- Taking a turn off the schedule leaves the trace. -/
theorem HostTurn.trace {s u : State} (h : HostTurn s u) : u.trace = s.trace := by
  obtain ⟨-, -, rfl⟩ | ⟨ts, -, rfl⟩ := h <;> rfl

/-! ### The events of an operation -/

/-- The start of an operation records no event. -/
theorem Moved.trace_of_start {i : Instr} {s t : State} (h : Moved i .start s t) : t.trace = s.trace := by
  obtain ⟨u, hu, ⟨q, rfl⟩ | ⟨e, c, rfl⟩⟩ := h
  · rw [goto_trace, (hu.start rfl).1]
  · rw [endOp_trace, (hu.start rfl).1]

/-- Past the start every step records exactly one event. -/
theorem Moved.trace_of_ne_start {i : Instr} {p : Pos} {s t : State} (h : Moved i p s t) (hp : p ≠ .start) :
    ∃ e : Event, t.trace = s.trace ++ [e] := by
  obtain ⟨u, hu, ht⟩ := h
  obtain ⟨e, he⟩ := hu.trace hp
  obtain ⟨q, rfl⟩ | ⟨err, c, rfl⟩ := ht
  · exact ⟨e, by rw [goto_trace, he]⟩
  · exact ⟨e, by rw [endOp_trace, he]⟩

/-- A running operation past its start records exactly one event a step. -/
theorem exec_trace_of_run {i : Instr} {s t : State} {w : Word} {p : Pos} (hs : s.seq = .run w p) (hp : p ≠ .start)
    (h : exec i s = .next t) : ∃ e : Event, t.trace = s.trace ++ [e] := by
  obtain ⟨hi, -⟩ | ⟨q, hq, hm⟩ := exec_moved h
  · simp [hs] at hi
  · obtain ⟨-, rfl⟩ : w = encode i ∧ p = q := by simpa [State.At, hs] using hq
    exact hm.trace_of_ne_start hp

/-- An operation at its start, accepted now or before, records no event (R240). -/
theorem exec_trace_of_start {i : Instr} {s t : State} {w : Word} (hs : s.seq = .run w .start)
    (h : exec i s = .next t) : t.trace = s.trace := by
  obtain ⟨hi, -⟩ | ⟨q, hq, hm⟩ := exec_moved h
  · simp [hs] at hi
  · obtain ⟨-, rfl⟩ : w = encode i ∧ .start = q := by simpa [State.At, hs] using hq
    exact hm.trace_of_start

/-- At most one event was added to the trace, and none taken away. -/
def AtMostOneEvent (s t : State) : Prop := ∃ es : List Event, es.length ≤ 1 ∧ t.trace = s.trace ++ es

/-- A step that leaves the trace adds no event. -/
theorem AtMostOneEvent.of_trace_eq {s t : State} (h : t.trace = s.trace) : AtMostOneEvent s t :=
  ⟨[], by simp, by rw [h, List.append_nil]⟩

/-- A step that records one event adds no more. -/
theorem AtMostOneEvent.of_event {s t : State} (h : ∃ e : Event, t.trace = s.trace ++ [e]) : AtMostOneEvent s t := by
  obtain ⟨e, he⟩ := h
  exact ⟨[e], by simp, he⟩

/-- On a running block the sequencer's step is the operation's (R21). -/
theorem blockStep_of_run {s : State} {w : Word} {p : Pos} {i : Instr} (hs : s.seq = .run w p)
    (hw : decode w = .op i) : blockStep s = exec i s := by simp only [blockStep, hs, hw]

/-- The sequencer's step in any state: no event on an idle block (R257) or at an operation's start, one event past it. -/
theorem blockStep_atMostOneEvent {s t : State} (h : blockStep s = .next t) : AtMostOneEvent s t := by
  unfold blockStep at h
  split at h
  · cases h
    exact .of_trace_eq rfl
  · rename_i w p hs
    split at h
    · by_cases hp : p = .start
      · subst hp
        exact .of_trace_eq (exec_trace_of_start hs h)
      · exact .of_event (exec_trace_of_run hs hp h)
    · cases h

/-- A point an operation stands at between two steps is past its start. -/
theorem PosOk.ne_start {i : Instr} {s : State} {p : Pos} (h : PosOk i s p) : p ≠ .start := by
  rintro rfl
  cases i <;> exact h

/-- Under the invariant a busy block runs a legal word, at a point past its start (R21). -/
theorem State.Inv.run_of_busy {s : State} (h : s.Inv) (hb : s.regs.status.busy = true) :
    ∃ w p i, s.seq = .run w p ∧ decode w = .op i ∧ p ≠ .start := by
  have hrun : s.seq ≠ .idle := h.status_ok.1.mp hb
  have hseq := h.seq_ok
  unfold SeqOk at hseq
  split at hseq
  · contradiction
  · obtain ⟨-, i, hi, hp⟩ := hseq
    exact ⟨_, _, i, ‹_›, hi, hp.ne_start⟩

/-! ### The host records no event -/

/-- A host read is no event of the block (R71). -/
@[simp] theorem hostRead_trace (r : Reg) (s : State) : (hostRead r s).2.trace = s.trace := by simp [hostRead]

/-- Accepting a word and running it to its first event records none (R240, R247). -/
theorem startOp_trace {w : Word} {s t : State} (h : startOp w s = .next t) : t.trace = s.trace := by
  unfold startOp at h
  split at h
  · exact (exec_trace_of_start (accept_seq w s) h).trans (accept_trace w s)
  · cases h
    simp

/-- A host register write is no event of the block. -/
theorem hostWrite_trace {r : Reg} {v : Word} {s t : State} (h : hostWrite r v s = .next t) : t.trace = s.trace := by
  unfold hostWrite at h
  split at h
  · cases h
    simp
  · split at h
    · exact startOp_trace h
    · cases h
      simp

/-- An undefined register access has no next state (R69). -/
theorem undefinedAccess_not_next (p : Params) (t : State) : undefinedAccess p ≠ .next t := by
  unfold undefinedAccess
  split <;> simp

/-- No host statement is an event of the block (R15, R98, R104). -/
theorem hostStmt_trace {st : HostStmt} {pc : Nat} {s t : State} (h : hostStmt st pc s = .next t) :
    t.trace = s.trace := by
  cases st with
  | w r v => simpa using hostWrite_trace h
  | r r => cases h; simp
  | waitDone => cases h; simp
  | goto n => cases h; simp
  | br f eq v n => cases h; simp
  | halt => cases h; rfl
  | busWrite a n v =>
    simp only [hostStmt] at h
    split at h
    · simpa using hostWrite_trace h
    · exact absurd h (undefinedAccess_not_next _ _)
  | busRead a n =>
    simp only [hostStmt] at h
    split at h
    · cases h; simp
    · exact absurd h (undefinedAccess_not_next _ _)
  | bufWrite a v =>
    simp only [hostStmt] at h
    split at h <;> cases h
    simp
  | bufRead a =>
    simp only [hostStmt] at h
    split at h <;> cases h
    simp

/-- The host agent's step is no event of the block. -/
theorem hostStep_trace {s t : State} (h : hostStep s = .next t) : t.trace = s.trace := by
  unfold hostStep at h
  split at h
  · exact hostStmt_trace h
  · cases h
    rfl

/-! ### One event a step -/

/-- Settles O58: the host's step records no event, and the block's step is one step of the operation it runs, which records
one event at every point but the start; under the invariant a busy block is past it. -/
theorem oneEventPerStep : Obligations.OneEventPerStep := by
  unfold Obligations.OneEventPerStep
  constructor
  · intro s t h hreset
    obtain ⟨u, hu⟩ | hblock | ⟨ts, hts⟩ := turn_cases s
    · rw [step_of_hostTurn hu] at h
      exact AtMostOneEvent.of_trace_eq ((hostStep_trace h).trans hu.trace)
    · obtain ⟨ts, hstep⟩ := step_of_blockTurn hblock
      rw [hstep] at h
      exact blockStep_atMostOneEvent (s := { s with turns := ts }) h
    · exact absurd hts (hreset ts)
  · intro s t hinv hbusy hblock h
    obtain ⟨w, p, i, hseq, hdec, hp⟩ := hinv.run_of_busy hbusy
    obtain ⟨ts, hstep⟩ := step_of_blockTurn hblock
    rw [hstep, blockStep_of_run (s := { s with turns := ts }) hseq hdec] at h
    exact exec_trace_of_run (s := { s with turns := ts }) hseq hp h

end Sys2Proof.Machine
end

section
/-! Operations that end: SEND_CMD without a busy wait by its count, WAIT_READY by its deadline (00_scope.md R16,
41_command_framer.md R131, R132, R134). -/

namespace Sys2Proof.Machine

/-! ### Running an operation to its end -/

/-- Operation `i`, run from `s`, has ended after at most `n` steps (R17). -/
def EndsWithin (i : Instr) (n : Nat) (s : State) : Prop :=
  ∃ t, runOp i n s = .next t ∧ t.seq = .idle ∧ t.regs.status.done = true

/-- An operation whose next step ends it. -/
theorem EndsWithin.of_endOp {i : Instr} {s u : State} {e : Err} {c : Cause} (n : Nat)
    (h : exec i s = .next (endOp e c u)) : EndsWithin i (n + 1) s :=
  ⟨endOp e c u, by simp [runOp, h], by simp⟩

/-- An operation whose next step leaves it busy in a state from which it ends. -/
theorem EndsWithin.of_step {i : Instr} {n : Nat} {s t : State} (h : exec i s = .next t)
    (hb : t.regs.status.busy = true) (ht : EndsWithin i n t) : EndsWithin i (n + 1) s := by
  obtain ⟨v, hv, hend⟩ := ht
  exact ⟨v, by simp [runOp, h, hb, hv], hend⟩

/-! ### SEND_CMD -/

/-- The body of SEND_CMD, for every class. -/
theorem codeOf_sendInstr (rt : RespType) (idx : BitVec 6) (nochk : Bool) :
    codeOf (sendInstr rt idx nochk) = sendCmdAt rt idx nochk := by cases rt <;> rfl

/-- How many events `command` may still need from a point of it, the R1b busy wait left out: the probe, the frame and stuff
bytes, the searches still in the budget, and at most four extra bytes (R133, R134). -/
def CmdPos.eventsLeft (p : Params) (c : CmdCall) : CmdPos → Nat
  | .probe => 1 + 6 + c.stuff + p.respPollMax.toNat + 4
  | .frame _ rest => 1 + rest.length + c.stuff + p.respPollMax.toNat + 4
  | .stuff more => 1 + more + p.respPollMax.toNat + 4
  | .search k => p.respPollMax.toNat - k + 4
  | .extra _ _ more => 1 + more
  | .busy _ => 0

/-- No class has more than four extra bytes (R133). -/
theorem nextra_le_four (rt : RespType) : nextra rt ≤ 4 := by cases rt <;> decide

/-- Five bytes follow a frame's first (R80). -/
@[simp] theorem frameTail_length (idx : BitVec 6) (arg : Word) : (frameTail idx arg).length = 5 := rfl

/-- After the last frame byte, the stuff bytes, the search and the extra bytes are left (R134). -/
theorem afterFrame_eventsLeft (p : Params) (c : CmdCall) :
    (afterFrame c).eventsLeft p c = c.stuff + p.respPollMax.toNat + 4 := by
  unfold afterFrame
  split <;> simp only [CmdPos.eventsLeft] <;> omega

/-- Without a busy wait a command does not go on once its response is stored. -/
theorem storeResp_not_more {c : CmdCall} (hc : c.rt ≠ .r1b) (r : Byte) (x : Word) (s : State) (q : CmdPos) :
    (storeResp c r x s).1 ≠ .more q := by simp [storeResp, hc]

/-- Each event of a command without a busy wait that goes on uses one of the events left. -/
theorem commandStep_eventsLeft {c : CmdCall} {p q : CmdPos} {s : State} (hc : c.rt ≠ .r1b)
    (hp : p.Ok s.params c) (h : (commandStep c p s).1 = .more q) :
    q.eventsLeft s.params c + 1 ≤ p.eventsLeft s.params c := by
  cases p with
  | probe =>
    simp only [commandStep] at h
    split at h <;> cases h
    simp only [CmdPos.eventsLeft, frameTail_length]
    omega
  | frame b rest =>
    cases rest with
    | nil =>
      cases h
      rw [afterFrame_eventsLeft]
      simp only [CmdPos.eventsLeft, List.length_nil]
      omega
    | cons b' rest' =>
      cases h
      simp only [CmdPos.eventsLeft, List.length_cons]
      omega
  | stuff more =>
    cases more <;> cases h <;> simp only [CmdPos.eventsLeft] <;> omega
  | search k =>
    have hk : k < s.params.respPollMax.toNat := hp
    have hx := nextra_le_four c.rt
    simp only [commandStep] at h
    split at h
    · unfold afterFound at h
      split at h
      · exact absurd h (storeResp_not_more hc _ _ _ _)
      · cases h
        simp only [CmdPos.eventsLeft]
        omega
    · dsimp only at h
      split at h <;> cases h
      simp only [CmdPos.eventsLeft]
      omega
  | extra r x more =>
    cases more with
    | zero => exact absurd h (storeResp_not_more hc _ _ _ _)
    | succ m =>
      cases h
      simp only [CmdPos.eventsLeft]
      omega
  | busy w => exact absurd hp hc

/-- Outside the busy wait a command needs at least one more event. -/
theorem eventsLeft_pos {c : CmdCall} {p : CmdPos} {m : Params} (hc : c.rt ≠ .r1b) (hp : p.Ok m c) :
    0 < p.eventsLeft m c := by
  cases p with
  | busy w => exact absurd hp hc
  | _ => simp only [CmdPos.eventsLeft]; omega

/-- A command goes on only to points its call can reach. -/
theorem commandStep_more_ok {c : CmdCall} {p q : CmdPos} {s : State} (hp : p.Ok s.params c)
    (h : (commandStep c p s).1 = .more q) : q.Ok s.params c := by
  obtain ⟨e, n, hm⟩ := commandStep_spec hp
  rw [h] at hm
  exact hm.1

/-- SEND_CMD's call depends on ARG and TMO_CMD alone, which its steps keep. -/
theorem sendCall_congr {g g' : Regs} (rt : RespType) (idx : BitVec 6) (nochk : Bool) (h : sameOperands g g') :
    sendCall rt idx nochk g' = sendCall rt idx nochk g := by
  obtain ⟨harg, -, -, -, htmo, -⟩ := h
  simp only [sendCall, harg, htmo]

/-- SEND_CMD without a busy wait, at a point of its command, ends within the events left there. -/
theorem sendCmd_endsWithin {rt : RespType} {idx : BitVec 6} {nochk : Bool} (hrt : rt ≠ .r1b) :
    ∀ (n : Nat) (q : CmdPos) (s : State), s.At (sendInstr rt idx nochk) (.sendCmd q) →
      s.regs.status.busy = true → q.Ok s.params (sendCall rt idx nochk s.regs) →
      q.eventsLeft s.params (sendCall rt idx nochk s.regs) ≤ n → EndsWithin (sendInstr rt idx nochk) n s
  | 0, q, s, _, _, hok, hn => absurd (eventsLeft_pos (c := sendCall rt idx nochk s.regs) hrt hok) (by omega)
  | n + 1, q, s, hat, hb, hok, hn => by
    have hw : Went (sendInstr rt idx nochk) (.sendCmd q) s (commandStep (sendCall rt idx nochk s.regs) q s).2 :=
      went_command _ q (by simp) (by simp [storeAddr, show s.seq = _ from hat]) (sendInstr_frames rt idx nochk)
    have hexec := exec_at hat
    simp only [codeOf_sendInstr, sendCmdAt] at hexec
    cases hd : (commandStep (sendCall rt idx nochk s.regs) q s).1 with
    | ret e =>
      simp only [hd] at hexec
      exact .of_endOp n hexec
    | more q' =>
      simp only [hd] at hexec
      have hcall := sendCall_congr rt idx nochk hw.operands
      refine .of_step hexec (by rw [goto_regs, hw.status, hb]) (sendCmd_endsWithin hrt n q' _ ?_ ?_ ?_ ?_)
      · exact goto_seq _ _ _ _ (hw.seq.trans hat)
      · rw [goto_regs, hw.status, hb]
      · rw [goto_regs, goto_params, hcall, hw.params]
        exact commandStep_more_ok hok hd
      · rw [goto_regs, goto_params, hcall, hw.params]
        have := commandStep_eventsLeft hrt hok hd
        omega

/-- The code of a command before its first event leads to a point its call can reach (R134). -/
theorem commandStart_ok (c : CmdCall) (m : Params) (s : State) : (commandStart c s).1.Ok m c := by
  unfold commandStart
  dsimp only
  split
  · assumption
  · exact List.suffix_rfl

/-- A command needs at most the probe, six frame bytes, the stuff bytes, the whole search and four extra bytes. -/
theorem commandStart_eventsLeft (c : CmdCall) (m : Params) (s : State) :
    (commandStart c s).1.eventsLeft m c ≤ 1 + 6 + c.stuff + m.respPollMax.toNat + 4 := by
  unfold commandStart
  dsimp only
  split <;> simp only [CmdPos.eventsLeft, frameTail_length] <;> omega

/-- SEND_CMD without a busy wait, written to an idle block, ends whatever the card returns (R16, R132). -/
theorem sendCmd_endsWithin_of_idle {rt : RespType} (idx : BitVec 6) (nochk : Bool) {s : State} (hs : s.Idle)
    (hrt : rt ≠ .r1b) : EndsWithin (sendInstr rt idx nochk) (11 + s.params.respPollMax.toNat + 1) s := by
  have hexec := exec_idle (i := sendInstr rt idx nochk) hs.1
  rw [codeOf_sendInstr] at hexec
  have hleft := commandStart_eventsLeft (sendCall rt idx nochk s.regs) s.params
    (accept (encode (sendInstr rt idx nochk)) s)
  refine .of_step hexec (by simp [commandStart]) (sendCmd_endsWithin hrt _ _ _ (goto_seq _ _ _ _ rfl) ?_ ?_ ?_)
  · simp [commandStart]
  · rw [goto_regs, goto_params]
    exact commandStart_ok _ _ _
  · rw [goto_regs, goto_params]
    exact hleft.trans (by simp only [sendCall]; omega)

/-! ### WAIT_READY -/

/-- An exchange takes nothing from the time input (R15). -/
@[simp] theorem xchg_clock (b : Byte) (s : State) : (xchg b s).2.inputs.clock = s.inputs.clock := by
  simp only [xchg_eq, State.after_inputs, drawCard]
  split <;> rfl

/-- WAIT_READY runs, stands at a point of its wait, and has these readings of the time input to come. -/
structure WaitsAt (q : WaitPos) (T : Word) (clock : List Word) (s : State) : Prop where
  pos : s.At .waitReady (.waitReady q)
  busy : s.regs.status.busy = true
  tmo : s.regs.tmoCmd = T
  clock : s.inputs.clock = clock

/-- After one event WAIT_READY has ended or stands at the wait's next point: it ends within one step more than from there. -/
theorem WaitsAt.endsWithin {q : WaitPos} {T : Word} {clock : List Word} {s : State} {n : Nat}
    (h : WaitsAt q T clock s)
    (hnext : ∀ q' t, (waitReadyStep T q s).1 = .more q' → WaitsAt q' T (waitReadyStep T q s).2.inputs.clock t →
      EndsWithin .waitReady n t) : EndsWithin .waitReady (n + 1) s := by
  obtain ⟨e, m, hafter⟩ := waitReadyStep_state T q s
  have hexec : exec .waitReady s = waitReadyAt (.waitReady q) s := exec_at h.pos
  simp only [waitReadyAt, h.tmo] at hexec
  cases hd : (waitReadyStep T q s).1 with
  | ret b =>
    simp only [hd] at hexec
    cases b with
    | true => exact .of_endOp n hexec
    | false => exact .of_endOp n hexec
  | more q' =>
    simp only [hd] at hexec
    have hw : WaitsAt q' T (waitReadyStep T q s).2.inputs.clock (goto (.waitReady q') (waitReadyStep T q s).2) := by
      rw [hafter]
      exact ⟨goto_seq _ _ _ _ h.pos, by simp [h.busy], by simp [h.tmo], by simp⟩
    exact .of_step hexec hw.busy (hnext q' _ hd hw)

/-- The first reading of the wait is its `t0` (R131). -/
theorem WaitsAt.endsWithin_start {T t0 : Word} {clock : List Word} {s : State} {n : Nat}
    (h : WaitsAt .start T (t0 :: clock) s)
    (hnext : ∀ t, WaitsAt (.poll t0) T clock t → EndsWithin .waitReady n t) : EndsWithin .waitReady (n + 1) s := by
  refine h.endsWithin fun q t hq ht => ?_
  simp only [waitReadyStep, now_of_clock h.clock, Progress.more.injEq] at hq ht
  subst hq
  exact hnext t ht

/-- A busy byte leads to the test's reading, and the exchange takes no reading (R131). -/
theorem WaitsAt.endsWithin_poll {T t0 : Word} {clock : List Word} {s : State} {n : Nat}
    (h : WaitsAt (.poll t0) T clock s)
    (hnext : ∀ t, WaitsAt (.test t0) T clock t → EndsWithin .waitReady n t) : EndsWithin .waitReady (n + 1) s := by
  refine h.endsWithin fun q t hq ht => ?_
  simp only [waitReadyStep, xchg_clock, h.clock] at hq ht
  split at hq <;> cases hq
  exact hnext t ht

/-- A reading that has not reached the deadline leads to the next exchange (R131). -/
theorem WaitsAt.endsWithin_test {T t0 u : Word} {clock : List Word} {s : State} {n : Nat}
    (h : WaitsAt (.test t0) T (u :: clock) s)
    (hnext : deadlinePassed T t0 u = false → ∀ t, WaitsAt (.poll t0) T clock t → EndsWithin .waitReady n t) :
    EndsWithin .waitReady (n + 1) s := by
  refine h.endsWithin fun q t hq ht => ?_
  simp only [waitReadyStep, now_of_clock h.clock] at hq ht
  split at hq <;> cases hq
  exact hnext (Bool.eq_false_iff.mpr ‹_›) t ht

/-- WAIT_READY before an exchange ends once one of the readings to come reaches the deadline, whatever bytes the card
returns: each reading before that one costs an exchange and a reading at most (R131). -/
theorem waitReady_endsWithin {T t0 u : Word} {clock : List Word} (hu : deadlinePassed T t0 u = true) :
    ∀ (ts : List Word) (s : State), WaitsAt (.poll t0) T (ts ++ u :: clock) s →
      EndsWithin .waitReady (2 * ts.length + 2) s
  | [], s, h => h.endsWithin_poll fun t ht => ht.endsWithin_test fun hnot => by simp [hu] at hnot
  | t1 :: ts, s, h => h.endsWithin_poll fun t ht => ht.endsWithin_test fun _ => waitReady_endsWithin hu ts

/-- WAIT_READY, written to an idle block, ends once a reading after the first reaches the deadline (R16, R131, R150). -/
theorem waitReady_endsWithin_of_idle {s : State} {t0 u : Word} {ts clock : List Word} (hs : s.Idle)
    (hclock : s.inputs.clock = t0 :: (ts ++ u :: clock)) (hu : deadlinePassed s.regs.tmoCmd t0 u = true) :
    EndsWithin .waitReady (2 * ts.length + 2 + 1 + 1) s := by
  have hstart : WaitsAt .start s.regs.tmoCmd (t0 :: (ts ++ u :: clock))
      (goto (.waitReady .start) (accept (encode .waitReady) s)) :=
    ⟨goto_seq _ _ _ _ rfl, by simp, by simp, by simpa using hclock⟩
  exact .of_step (exec_idle hs.1) hstart.busy (hstart.endsWithin_start (waitReady_endsWithin hu ts))

/-! ### Both end -/

/-- Settles O24: SEND_CMD by counting the events its command has left, WAIT_READY by induction on the readings before the
one that reaches the deadline. -/
theorem sendCmdAndWaitReadyEnd : Obligations.SendCmdAndWaitReadyEnd := by
  unfold Obligations.SendCmdAndWaitReadyEnd
  constructor
  · intro rt idx nochk s hs hrt
    have h := sendCmd_endsWithin_of_idle idx nochk hs hrt
    rwa [show 11 + s.params.respPollMax.toNat + 1 = 12 + s.params.respPollMax.toNat by omega] at h
  · intro s t0 u ts clock hs hclock hu
    exact waitReady_endsWithin_of_idle hs (by simpa using hclock) hu

end Sys2Proof.Machine
end

section
/-! The invariant under one step of an operation: what its code keeps before SEQ moves, and that SEQ then stands at a point
of the operation or the operation has ended with a pair of its row (10_state.md R21, R26, R29 to R36, 60_exceptions.md
R241). -/

namespace Sys2Proof.Machine

/-! ### RESP and CRC -/

/-- Cleared, RESP and RESPX hold no response (R134). -/
theorem respOk_clearResp (s : State) : RespOk (clearResp s).regs :=
  ⟨by simp, fun _ => ⟨rfl, rfl⟩, fun h => absurd rfl h, fun _ => rfl, fun _ => by simp⟩

/-- A whole response stored is one of its class (R29, R30, R134). -/
theorem respOk_putResp {rt : RespType} {r : Byte} {x : Word} (hr : isResponse r = true) (hx : respxOk rt x) (s : State) :
    RespOk (putResp (nextra rt) r x s).regs := by
  obtain ⟨h1, h2⟩ := hx
  refine ⟨?_, ?_, fun _ => hr, ?_, ?_⟩ <;> cases rt <;> simp_all [nextra]

/-! ### What the code of an operation keeps before SEQ moves -/

/-- From `s`, a running block whose step has come to `u`: the operands, BLKDONE and the parameters are as they were, and
RESP and CRC are consistent. -/
structure Kept (s u : State) : Prop where
  run : ∃ w p, u.seq = .run w p
  params : u.params = s.params
  operands : sameOperands s.regs u.regs
  blkdone : u.regs.blkdone = s.regs.blkdone
  resp : RespOk u.regs
  crc : CrcOk u.regs

/-- A running block with RESP and CRC consistent, before its step. -/
theorem Kept.refl {s : State} {w : Word} {p : Pos} (hs : s.seq = .run w p) (hr : RespOk s.regs) (hc : CrcOk s.regs) :
    Kept s s := ⟨⟨w, p, hs⟩, rfl, ⟨rfl, rfl, rfl, rfl, rfl, rfl, rfl, rfl⟩, rfl, hr, hc⟩

/-- An event. -/
theorem Kept.after {s u : State} (h : Kept s u) (e : Event) (n : Inputs) : Kept s (u.after e n) :=
  ⟨h.run, h.params, h.operands, h.blkdone, h.resp, h.crc⟩

/-- A byte stored. -/
theorem Kept.store {s u : State} (h : Kept s u) (m : Memory) (es : List Event) :
    Kept s { u with mem := m, trace := es } := ⟨h.run, h.params, h.operands, h.blkdone, h.resp, h.crc⟩

/-- A frame built. -/
theorem Kept.buildFrame {s u : State} (h : Kept s u) (idx : BitVec 6) (arg : Word) : Kept s (buildFrame idx arg u) :=
  ⟨h.run, h.params, h.operands, h.blkdone, h.resp, .inl rfl⟩

/-- RESP and RESPX cleared. -/
theorem Kept.clearResp {s u : State} (h : Kept s u) : Kept s (clearResp u) :=
  ⟨h.run, h.params, h.operands, h.blkdone, respOk_clearResp u, h.crc⟩

/-- A whole response stored. -/
theorem Kept.putResp {s u : State} {rt : RespType} {r : Byte} {x : Word} (h : Kept s u) (hr : isResponse r = true)
    (hx : respxOk rt x) : Kept s (putResp (nextra rt) r x u) :=
  ⟨h.run, h.params, h.operands, h.blkdone, respOk_putResp hr hx u, h.crc⟩

/-- BLKDONE counts on from its new value. -/
theorem Kept.setBlkdone {s u : State} (h : Kept s u) (n : Nat) : Kept (setBlkdone n s) (setBlkdone n u) :=
  ⟨h.run, h.params, h.operands, rfl, h.resp, h.crc⟩

/-- The state after one event of a command: after the event, or with a response of the class stored (R134). -/
theorem cmdMoved_state {c : CmdCall} {s : State} {d : Progress CmdPos Cause × State} (h : cmdMoved c s d) :
    ∃ e n, d.2 = s.after e n ∨
      ∃ r x, isResponse r = true ∧ respxOk c.rt x ∧ d.2 = putResp (nextra c.rt) r x (s.after e n) := by
  obtain ⟨d1, t⟩ := d
  obtain ⟨e, n, h⟩ := h
  refine ⟨e, n, ?_⟩
  cases d1 with
  | more q =>
    obtain ⟨-, h | ⟨hb, r, hr, h⟩⟩ := h
    · exact .inl h
    · exact .inr ⟨r, 0, hr, ⟨fun _ => rfl, fun _ => by simp⟩, by rw [hb]; exact h⟩
  | ret k =>
    cases k with
    | none =>
      obtain ⟨-, r, x, hr, hx, h⟩ | ⟨-, h⟩ := h
      · exact .inr ⟨r, x, hr, hx, h⟩
      · exact .inl h
    | notReady => exact .inl h.2
    | respNotFound => exact .inl h
    | busyTimeout => exact .inl h.2
    | _ => exact h.elim

/-- A command keeps what an operation's code keeps. -/
theorem kept_command {s : State} {c : CmdCall} {q : CmdPos} (h : Kept s s) (hq : q.Ok s.params c) :
    Kept s (commandStep c q s).2 := by
  obtain ⟨e, n, hs | ⟨r, x, hr, hx, hs⟩⟩ := cmdMoved_state (commandStep_spec hq)
  · rw [hs]; exact h.after e n
  · rw [hs]; exact (h.after e n).putResp hr hx

/-- So does a data command. -/
theorem kept_seqCommand {s : State} {idx : BitVec 6} {q : SeqCmdPos} (h : Kept s s)
    (hq : q.Ok s.params (dataCall idx s.regs)) : Kept s (seqCommandStep idx q s).2 := by
  obtain ⟨⟨e, n, hs | hs | ⟨r, hr, hs⟩⟩, -⟩ := seqCommandStep_spec hq
  · rw [hs]; exact h.after e n
  · rw [hs]; exact ((h.after e n).buildFrame _ _).clearResp
  · rw [hs]; exact (h.after e n).putResp (rt := .r1) hr ⟨fun _ => rfl, fun _ => by simp⟩

/-- So does a read packet. -/
theorem kept_readPacket {s : State} {len : Nat} {base : Word} {q : ReadPos} {d : Progress ReadPos Cause × State}
    {T : Word} (h : Kept s s) (hd : readPacketStep len base T q s = .next d) : Kept s d.2 := by
  obtain ⟨⟨e, n, -, hs⟩ | ⟨j, b, -, -, hs⟩, -⟩ := readPacketStep_spec hd
  · rw [hs]; exact h.after e n
  · rw [hs]; exact h.store _ _

/-- A wait, a write packet and the stop sequence leave only their event. -/
theorem Kept.of_after {s u : State} (h : Kept s s) (hu : ∃ e n, u = s.after e n) : Kept s u := by
  obtain ⟨e, n, rfl⟩ := hu
  exact h.after e n

/-- The results of a command (R134). -/
theorem commandStep_cause {c : CmdCall} {q : CmdPos} {s : State} {k : Cause} (hq : q.Ok s.params c)
    (hk : (commandStep c q s).1 = .ret k) :
    k = .none ∨ k = .respNotFound ∨ (k = .notReady ∧ c.chk = true) ∨ (k = .busyTimeout ∧ c.rt = .r1b) := by
  obtain ⟨e, n, h⟩ := commandStep_spec hq
  rw [hk] at h
  cases k with
  | none => exact .inl rfl
  | respNotFound => exact .inr (.inl rfl)
  | notReady => exact .inr (.inr (.inl ⟨rfl, h.1⟩))
  | busyTimeout => exact .inr (.inr (.inr ⟨rfl, h.1⟩))
  | _ => exact h.elim

/-! ### Where SEQ stands -/

/-- A point of an operation rests on the operands, BLKDONE and the parameters alone. -/
theorem PosOk.congr {i : Instr} {p : Pos} {s t : State} (hg : sameOperands s.regs t.regs)
    (hb : t.regs.blkdone = s.regs.blkdone) (hp : t.params = s.params) (h : PosOk i s p) : PosOk i t p := by
  obtain ⟨⟨⟩⟩ := s
  obtain ⟨⟨⟩⟩ := t
  obtain ⟨rfl, rfl, rfl, rfl, rfl, rfl, rfl, rfl⟩ := hg
  cases hb
  cases hp
  exact h

/-- A point the code of an operation is entered at: its start right after the accept, or one it reaches (R21, R240). -/
def Stands (i : Instr) (s : State) (p : Pos) : Prop := (p = .start ∧ s.regs.blkdone = 0) ∨ PosOk i s p

/-- Past the start it is one the operation reaches. -/
theorem Stands.posOk {i : Instr} {s : State} {p : Pos} (h : Stands i s p) (hp : p ≠ .start) : PosOk i s p :=
  h.resolve_left fun hs => hp hs.1

/-- At the start no block is done. -/
theorem Stands.blkdone_start {i : Instr} {s : State} (h : Stands i s .start) : s.regs.blkdone = 0 :=
  h.elim (fun hs => hs.2) fun hp => absurd rfl hp.ne_start

/-- Where a step of operation `i` may lead: RESP and CRC are consistent, and SEQ stands at a point of the operation, or it is
idle and STATUS holds a pair of the operation's row (R21, R241). -/
structure Lands (i : Instr) (t : State) : Prop where
  resp : RespOk t.regs
  crc : CrcOk t.regs
  pos : ∀ w q, t.seq = .run w q → PosOk i t q
  pair : t.seq = .idle → (t.regs.status.err, t.regs.status.cause) ∈ outcomes (.op i)

/-- SEQ moves to a point that was one of the operation before the step. -/
theorem Kept.goes {i : Instr} {s u : State} {q : Pos} (h : Kept s u) (hq : PosOk i s q) : Lands i (goto q u) := by
  obtain ⟨w, p, hs⟩ := h.run
  rw [goto_of_run q hs]
  refine ⟨h.resp, h.crc, fun w' q' hq' => ?_, fun hi => nomatch hi⟩
  cases hq'
  exact PosOk.congr h.operands h.blkdone h.params hq

/-- The operation ends with a pair of its row. -/
theorem Kept.ends {i : Instr} {s u : State} {e : Err} {c : Cause} (h : Kept s u)
    (ho : (e, c) ∈ outcomes (.op i)) : Lands i (endOp e c u) :=
  ⟨h.resp, h.crc, fun _ _ hq => (nomatch hq), fun _ => ho⟩

/-- Every operation may end without an error (R241). -/
theorem none_mem_outcomes (i : Instr) : (Err.none, Cause.none) ∈ outcomes (.op i) := by
  cases i <;> simp [outcomes, sendOutcomes]

/-- The operation ends without an error. -/
theorem Kept.finishes {i : Instr} {s u : State} (h : Kept s u) : Lands i (finish u) := h.ends (none_mem_outcomes i)

/-! ### The pairs of the data operations -/

/-- A failed read packet is recorded as a pair of its operation's row (R174, R241). -/
theorem packetError_mem_outcomes {i : Instr} {c : Cause} (hi : i = .readData ∨ i = .readBlocks) (hne : c ≠ .none)
    (hc : c ∈ [Cause.none, .badToken, .tokenTimeout]) : (Err.readFailed, c) ∈ outcomes (.op i) := by
  obtain rfl | rfl := hi
  · simp_all [outcomes]
  · simp_all [outcomes]
    tauto

/-- A failed data command is recorded as a pair of its operation's row (R203, R241). -/
theorem commandError_mem_outcomes {i : Instr} {e : Err} {c : Cause}
    (hi : (i = .readBlocks ∧ e = .readFailed) ∨ (i = .writeBlocks ∧ e = .writeFailed)) (hne : c ≠ .none)
    (hc : c ∈ [Cause.none, .notReady, .respNotFound, .r1Error]) : (e, c) ∈ outcomes (.op i) := by
  obtain ⟨rfl, rfl⟩ | ⟨rfl, rfl⟩ := hi <;> (simp_all [outcomes]; tauto)

/-- The first error of a read stream, or else the result of its CMD12, is one of its row (R209, R241). -/
theorem readError_mem_outcomes {e c : Cause} (he : e ∈ [Cause.none, .badToken, .tokenTimeout])
    (hc : c = .none ∨ c = .respNotFound ∨ c = .busyTimeout) (h : firstError e c ≠ .none) :
    (Err.readFailed, firstError e c) ∈ outcomes (.op .readBlocks) := by
  unfold firstError at h ⊢
  split at h <;> simp_all [outcomes] <;> tauto

/-- The first error of a write stream, or else the result of its stop sequence, is one of its row (R219, R241). -/
theorem writeError_mem_outcomes {e c : Cause} (he : e ∈ [Cause.none, .busyTimeout, .dataRejected])
    (hc : c ∈ [Cause.none, .busyTimeout]) (h : firstError e c ≠ .none) :
    (Err.writeFailed, firstError e c) ∈ outcomes (.op .writeBlocks) := by
  unfold firstError at h ⊢
  split at h <;> simp_all [outcomes]

/-! ### SEND_CMD, CRC7, WAIT_READY, FILL -/

/-- A point of SEND_CMD is a point of its command. -/
theorem posOk_sendInstr (rt : RespType) (idx : BitVec 6) (nochk : Bool) (s : State) (q : CmdPos) :
    PosOk (sendInstr rt idx nochk) s (.sendCmd q) ↔ q.Ok s.params (sendCall rt idx nochk s.regs) := by
  cases rt <;> exact Iff.rfl

/-- R241's row of SEND_CMD. -/
theorem outcomes_sendInstr (rt : RespType) (idx : BitVec 6) (nochk : Bool) :
    outcomes (.op (sendInstr rt idx nochk)) = sendOutcomes rt nochk := by cases rt <;> rfl

/-- Every result of SEND_CMD's command is recorded as a pair of its row (R140, R241). -/
theorem sendErr_mem_outcomes {rt : RespType} {idx : BitVec 6} {nochk : Bool} {s : State} {q : CmdPos} {k : Cause}
    (hq : q.Ok s.params (sendCall rt idx nochk s.regs))
    (hk : (commandStep (sendCall rt idx nochk s.regs) q s).1 = .ret k) :
    (sendErr k, k) ∈ outcomes (.op (sendInstr rt idx nochk)) := by
  rw [outcomes_sendInstr]
  obtain rfl | rfl | ⟨rfl, hchk⟩ | ⟨rfl, hrt⟩ := commandStep_cause hq hk
  · simp [sendErr, sendOutcomes]
  · simp [sendErr, sendOutcomes]
  · simp_all [sendErr, sendOutcomes, sendCall]
  · simp_all [sendErr, sendOutcomes, sendCall]

/-- One step of SEND_CMD. -/
theorem sendCmdAt_lands {rt : RespType} {idx : BitVec 6} {nochk : Bool} {p : Pos} {s t : State} (hk : Kept s s)
    (hp : Stands (sendInstr rt idx nochk) s p) (h : sendCmdAt rt idx nochk p s = .next t) :
    Lands (sendInstr rt idx nochk) t := by
  unfold sendCmdAt at h
  split at h
  · cases h
    exact (hk.buildFrame _ _).clearResp.goes ((posOk_sendInstr ..).mpr (commandStart_ok _ _ _))
  · have hq := (posOk_sendInstr ..).mp (hp.posOk (by simp))
    have hu := kept_command hk hq
    dsimp only at h
    split at h <;> cases h
    · exact hu.goes ((posOk_sendInstr ..).mpr (commandStep_more_ok hq ‹_›))
    · exact hu.ends (sendErr_mem_outcomes hq ‹_›)
  · cases h

/-- One step of CRC7. -/
theorem crc7At_lands {idx : BitVec 6} {p : Pos} {s t : State} (hk : Kept s s) (h : crc7At idx p s = .next t) :
    Lands (.crc7 idx) t := by
  unfold crc7At at h
  split at h <;> cases h
  exact (hk.buildFrame _ _).finishes

/-- One step of WAIT_READY. -/
theorem waitReadyAt_lands {p : Pos} {s t : State} (hk : Kept s s) (h : waitReadyAt p s = .next t) :
    Lands .waitReady t := by
  unfold waitReadyAt at h
  split at h
  · cases h
    exact hk.goes trivial
  · have hu := hk.of_after (waitReadyStep_state s.regs.tmoCmd ‹_› s)
    dsimp only at h
    split at h <;> cases h
    · exact hu.goes trivial
    · exact hu.finishes
    · exact hu.ends (by simp [outcomes])
  · cases h

/-- FILL goes on while exchanges are left. -/
theorem Kept.fills {s u : State} {n : Nat} (h : Kept s u) (hn : n ≤ s.regs.count.toNat) : Lands .fill (fillFrom n u) := by
  cases n with
  | zero => exact h.finishes
  | succ m => exact h.goes hn

/-- One step of FILL. -/
theorem fillAt_lands {p : Pos} {s t : State} (hk : Kept s s) (hp : Stands .fill s p) (h : fillAt p s = .next t) :
    Lands .fill t := by
  unfold fillAt at h
  split at h
  · cases h
    exact hk.fills (Nat.le_refl _)
  · have hm := hp.posOk (by simp)
    cases h
    exact (hk.of_after ⟨_, _, rfl⟩).fills (Nat.le_of_lt hm)
  · cases h

/-! ### READ_DATA -/

/-- One step of READ_DATA. -/
theorem readDataAt_lands {p : Pos} {s t : State} (hk : Kept s s) (hp : Stands .readData s p)
    (h : readDataAt p s = .next t) : Lands .readData t := by
  unfold readDataAt at h
  split at h
  · cases h
    split
    · exact hk.ends (by simp [outcomes])
    · exact hk.goes ⟨Bool.eq_false_iff.mpr ‹_›, trivial⟩
  · obtain ⟨hlen, hq⟩ := hp.posOk (by simp)
    obtain ⟨d, hstep, h⟩ := onNext_eq_next h
    have hu := kept_readPacket hk hstep
    obtain ⟨-, hd1⟩ := readPacketStep_spec hstep
    split at h <;> rename_i hret <;> cases h <;> rw [hret] at hd1
    · exact hu.goes ⟨hlen, hd1 hq⟩
    · exact hu.finishes
    · exact hu.ends (packetError_mem_outcomes (.inl rfl) ‹_› hd1.1)
  · cases h

/-! ### READ_BLOCKS -/

/-- A stream that is not of one block has two or more (R204, R245). -/
theorem two_le_count {g : Regs} (h : streamChecked g) (h1 : singleBlock g ≠ true) : 2 ≤ g.count.toNat := by
  have h0 : g.count.toNat ≠ 0 := fun h0 => h.1 (BitVec.eq_of_toNat_eq h0)
  have h1' : g.count.toNat ≠ 1 := fun h' => h1 (beq_iff_eq.mpr (BitVec.eq_of_toNat_eq h'))
  omega

/-- After every block BLKDONE is COUNT: the stream stops with no error recorded (R205, R215). -/
theorem stoppedAt_none {g : Regs} (h : blocksDone g g.count.toNat) : stoppedAt g .none := by
  simpa [stoppedAt, blocksDone] using h

/-- A stream that fails before its last block has BLKDONE below COUNT (R209, R219). -/
theorem stoppedAt_error {g : Regs} {i : Nat} {e : Cause} (h : blocksDone g i) (hi : i < g.count.toNat) (he : e ≠ .none) :
    stoppedAt g e := by
  have hlt : i < 2 ^ 32 := hi.trans g.count.isLt
  rw [stoppedAt, if_neg he, show g.blkdone = _ from h, BitVec.toNat_ofNat, Nat.mod_eq_of_lt hlt]
  exact hi

/-- COUNT is an operand. -/
theorem Kept.count {s u : State} (h : Kept s u) : u.regs.count = s.regs.count := h.operands.2.1

/-- The form of a stream rests on COUNT. -/
theorem Kept.singleBlock {s u : State} (h : Kept s u) : singleBlock u.regs = singleBlock s.regs := by
  simp only [Machine.singleBlock, h.count]

/-- CMD12's call rests on the parameters and on TMO_BUSY. -/
theorem Kept.stopCall {s u : State} (h : Kept s u) : stopCall u.params u.regs = stopCall s.params s.regs := by
  obtain ⟨-, -, -, -, -, -, htmo, -⟩ := h.operands
  simp only [Machine.stopCall, h.params, htmo]

/-- The end of a stream, with an error of its row or none. -/
theorem Kept.endsStream {i : Instr} {s u : State} {err : Err} {e : Cause} (h : Kept s u)
    (ho : e ≠ .none → (err, e) ∈ outcomes (.op i)) : Lands i (endStream err e u) := by
  unfold endStream
  split
  · exact h.finishes
  · exact h.ends (ho ‹_›)

/-- A read stream's CMD12 is framed. -/
theorem Kept.startsStop {s u : State} {e : Cause} (h : Kept s u) (hchk : streamChecked s.regs)
    (h2 : 2 ≤ s.regs.count.toNat) (he : e ∈ [Cause.none, .badToken, .tokenTimeout]) (hd : stoppedAt s.regs e) :
    Lands .readBlocks (startStop e u) := by
  unfold startStop
  rw [h.stopCall]
  exact (h.buildFrame _ _).clearResp.goes ⟨hchk, h2, he, hd, commandStart_ok _ _ _⟩

/-- A read stream goes on with its next block, or with CMD12 after the last (R205). -/
theorem Kept.nextReads {s u : State} {i : Nat} (h : Kept s u) (hchk : streamChecked s.regs)
    (h2 : 2 ≤ s.regs.count.toNat) (hi : i ≤ s.regs.count.toNat) (hd : blocksDone s.regs i) :
    Lands .readBlocks (nextReadBlock i u) := by
  unfold nextReadBlock
  rw [h.count]
  split
  · exact h.goes ⟨hchk, h2, ‹_›, hd, trivial⟩
  · obtain rfl : i = s.regs.count.toNat := by omega
    exact h.startsStop hchk h2 (by simp) (stoppedAt_none hd)

/-- One step of READ_BLOCKS past its start. -/
theorem readBlocksStep_lands {q : RbPos} {s t : State} (hk : Kept s s) (hchk : streamChecked s.regs) (hq : q.Ok s)
    (h : readBlocksStep q s = .next t) : Lands .readBlocks t := by
  cases q with
  | cmd q =>
    obtain ⟨hd, hq⟩ := hq
    have hu := kept_seqCommand hk hq
    obtain ⟨-, hd1⟩ := seqCommandStep_spec hq
    simp only [readBlocksStep] at h
    split at h <;> rename_i hret <;> cases h <;> rw [hret] at hd1
    · exact hu.goes ⟨hchk, hd, hd1⟩
    · rw [hu.singleBlock]
      split
      · exact hu.goes ⟨hchk, beq_iff_eq.mp ‹_›, hd, trivial⟩
      · exact hu.nextReads hchk (two_le_count hchk ‹_›) (Nat.zero_le _) hd
    · exact hu.ends (commandError_mem_outcomes (.inl ⟨rfl, rfl⟩) ‹_› hd1.1)
  | single q =>
    obtain ⟨hone, hd, hq⟩ := hq
    obtain ⟨d, hstep, h⟩ := onNext_eq_next h
    have hu := kept_readPacket hk hstep
    obtain ⟨-, hd1⟩ := readPacketStep_spec hstep
    split at h <;> rename_i hret <;> cases h <;> rw [hret] at hd1
    · exact hu.goes ⟨hchk, hone, hd, hd1 hq⟩
    · exact (hu.setBlkdone 1).finishes
    · exact hu.ends (packetError_mem_outcomes (.inr rfl) ‹_› hd1.1)
  | block i q =>
    obtain ⟨h2, hi, hd, hq⟩ := hq
    obtain ⟨d, hstep, h⟩ := onNext_eq_next h
    have hu := kept_readPacket hk hstep
    obtain ⟨-, hd1⟩ := readPacketStep_spec hstep
    split at h <;> rename_i hret <;> cases h <;> rw [hret] at hd1
    · exact hu.goes ⟨hchk, h2, hi, hd, hd1 hq⟩
    · exact (hu.setBlkdone (i + 1)).nextReads hchk h2 hi rfl
    · exact hu.startsStop hchk h2 hd1.1 (stoppedAt_error hd hi ‹_›)
  | stop e q =>
    obtain ⟨h2, he, hd, hq⟩ := hq
    have hu := kept_command hk hq
    simp only [readBlocksStep] at h
    split at h <;> cases h
    · exact hu.goes ⟨hchk, h2, he, hd, commandStep_more_ok hq ‹_›⟩
    · obtain hc | hc | ⟨-, hchk⟩ | ⟨hc, -⟩ := commandStep_cause hq ‹_›
      · exact hu.endsStream (readError_mem_outcomes he (.inl hc))
      · exact hu.endsStream (readError_mem_outcomes he (.inr (.inl hc)))
      · cases hchk
      · exact hu.endsStream (readError_mem_outcomes he (.inr (.inr hc)))

/-- One step of READ_BLOCKS. -/
theorem readBlocksAt_lands {p : Pos} {s t : State} (hk : Kept s s) (hp : Stands .readBlocks s p)
    (h : readBlocksAt p s = .next t) : Lands .readBlocks t := by
  unfold readBlocksAt at h
  split at h
  · cases h
    unfold readBlocksStart
    split
    · exact hk.finishes
    · split
      · exact hk.ends (by simp [outcomes])
      · exact hk.goes ⟨⟨‹_›, Bool.eq_false_iff.mpr ‹_›⟩, hp.blkdone_start, trivial⟩
  · obtain ⟨hchk, hq⟩ := hp.posOk (by simp)
    exact readBlocksStep_lands hk hchk hq h
  · cases h

/-! ### WRITE_BLOCKS -/

/-- A write stream goes on with its next block, or with the stop sequence after the last (R215). -/
theorem Kept.nextWrites {s u : State} {i : Nat} (h : Kept s u) (hwp : s.regs.wp = false) (hchk : streamChecked s.regs)
    (h2 : 2 ≤ s.regs.count.toNat) (hi : i ≤ s.regs.count.toNat) (hd : blocksDone s.regs i) :
    Lands .writeBlocks (nextWriteBlock i u) := by
  unfold nextWriteBlock
  rw [h.count]
  split
  · exact h.goes ⟨hwp, hchk, h2, ‹_›, hd, trivial⟩
  · obtain rfl : i = s.regs.count.toNat := by omega
    exact h.goes ⟨hwp, hchk, h2, by simp, stoppedAt_none hd, trivial⟩

/-- After the packet of the single-block form, the final wait, or the end when the packet's own wait expired (R217). -/
theorem Kept.afterPacket {s u : State} {c : Cause} (h : Kept s u) (hwp : s.regs.wp = false) (hchk : streamChecked s.regs)
    (hone : s.regs.count = 1) (hd : blocksDone s.regs 0) (hc : c ∈ [Cause.none, .busyTimeout, .dataRejected]) :
    Lands .writeBlocks (afterSinglePacket c u) := by
  unfold afterSinglePacket
  split
  · exact h.ends (by simp [outcomes])
  · split
    · rename_i hnone
      subst hnone
      exact (h.setBlkdone 1).goes ⟨hwp, hchk, hone, by simp, hone.symm⟩
    · have hlt : 0 < s.regs.count.toNat := by simp [hone]
      exact h.goes ⟨hwp, hchk, hone, by simp_all, stoppedAt_error hd hlt ‹_›⟩

/-- The end of the single-block form (R215, R217). -/
theorem Kept.endsSingleWrite {s u : State} (h : Kept s u) (c : Cause) (w : Bool) :
    Lands .writeBlocks (endSingleWrite c w u) := by
  unfold endSingleWrite
  split
  · exact h.ends (by simp [outcomes])
  · split
    · exact h.finishes
    · exact h.ends (by simp [outcomes])

/-- One step of WRITE_BLOCKS past its start. -/
theorem writeBlocksStep_lands {q : WbPos} {s t : State} (hk : Kept s s) (hwp : s.regs.wp = false)
    (hchk : streamChecked s.regs) (hq : q.Ok s) (h : writeBlocksStep q s = .next t) : Lands .writeBlocks t := by
  cases q with
  | cmd q =>
    obtain ⟨hd, hq⟩ := hq
    have hu := kept_seqCommand hk hq
    obtain ⟨-, hd1⟩ := seqCommandStep_spec hq
    simp only [writeBlocksStep] at h
    split at h <;> rename_i hret <;> cases h <;> rw [hret] at hd1
    · exact hu.goes ⟨hwp, hchk, hd, hd1⟩
    · rw [hu.singleBlock]
      split
      · exact hu.goes ⟨hwp, hchk, beq_iff_eq.mp ‹_›, hd, trivial⟩
      · exact hu.nextWrites hwp hchk (two_le_count hchk ‹_›) (Nat.zero_le _) hd
    · exact hu.ends (commandError_mem_outcomes (.inr ⟨rfl, rfl⟩) ‹_› hd1.1)
  | single q =>
    obtain ⟨hone, hd, hq⟩ := hq
    obtain ⟨d, hstep, h⟩ := onNext_eq_next h
    obtain ⟨hafter, hd1⟩ := writePacketStep_spec hstep
    have hu := hk.of_after hafter
    split at h <;> rename_i hret <;> cases h <;> rw [hret] at hd1
    · exact hu.goes ⟨hwp, hchk, hone, hd, hd1 hq⟩
    · exact hu.afterPacket hwp hchk hone hd hd1
  | lastWait c q =>
    obtain ⟨hone, hc, hd⟩ := hq
    have hu := hk.of_after (waitReadyStep_state s.regs.tmoBusy q s)
    simp only [writeBlocksStep] at h
    split at h <;> cases h
    · exact hu.goes ⟨hwp, hchk, hone, hc, hd⟩
    · exact hu.endsSingleWrite c _
  | block i q =>
    obtain ⟨h2, hi, hd, hq⟩ := hq
    obtain ⟨d, hstep, h⟩ := onNext_eq_next h
    obtain ⟨hafter, hd1⟩ := writePacketStep_spec hstep
    have hu := hk.of_after hafter
    split at h <;> rename_i hret <;> cases h <;> rw [hret] at hd1
    · exact hu.goes ⟨hwp, hchk, h2, hi, hd, hd1 hq⟩
    · exact (hu.setBlkdone (i + 1)).nextWrites hwp hchk h2 hi rfl
    · exact hu.goes ⟨hwp, hchk, h2, hd1, stoppedAt_error hd hi ‹_›, trivial⟩
  | stop e q =>
    obtain ⟨h2, he, hd, hq⟩ := hq
    obtain ⟨hafter, hd1⟩ := stopWriteStep_spec (T := s.regs.tmoBusy) hq
    have hu := hk.of_after hafter
    simp only [writeBlocksStep] at h
    split at h <;> rename_i hret <;> cases h <;> rw [hret] at hd1
    · exact hu.goes ⟨hwp, hchk, h2, he, hd, hd1⟩
    · exact hu.endsStream (writeError_mem_outcomes he hd1)

/-- One step of WRITE_BLOCKS. -/
theorem writeBlocksAt_lands {p : Pos} {s t : State} (hk : Kept s s) (hp : Stands .writeBlocks s p)
    (h : writeBlocksAt p s = .next t) : Lands .writeBlocks t := by
  unfold writeBlocksAt at h
  split at h
  · cases h
    unfold writeBlocksStart
    split
    · exact hk.ends (by simp [outcomes])
    · split
      · exact hk.finishes
      · split
        · exact hk.ends (by simp [outcomes])
        · exact hk.goes ⟨Bool.eq_false_iff.mpr ‹_›, ⟨‹_›, Bool.eq_false_iff.mpr ‹_›⟩, hp.blkdone_start, trivial⟩
  · obtain ⟨hwp, hchk, hq⟩ := hp.posOk (by simp)
    exact writeBlocksStep_lands hk hwp hchk hq h
  · cases h

/-! ### Every operation -/

/-- One step of any operation leads to a point of it or to its end. -/
theorem codeOf_lands {i : Instr} {p : Pos} {s t : State} (hk : Kept s s) (hp : Stands i s p)
    (h : codeOf i p s = .next t) : Lands i t := by
  cases i with
  | sendCmdR1 idx nochk => exact sendCmdAt_lands (rt := .r1) hk hp h
  | sendCmdR1b idx nochk => exact sendCmdAt_lands (rt := .r1b) hk hp h
  | sendCmdR2 idx nochk => exact sendCmdAt_lands (rt := .r2) hk hp h
  | sendCmdR3 idx nochk => exact sendCmdAt_lands (rt := .r3) hk hp h
  | sendCmdR7 idx nochk => exact sendCmdAt_lands (rt := .r7) hk hp h
  | crc7 idx => exact crc7At_lands hk h
  | waitReady => exact waitReadyAt_lands hk h
  | fill => exact fillAt_lands hk hp h
  | readData => exact readDataAt_lands hk hp h
  | readBlocks => exact readBlocksAt_lands hk hp h
  | writeBlocks => exact writeBlocksAt_lands hk hp h

end Sys2Proof.Machine
end

section
/-! The invariant under every step: the operation's, the host's and reset (10_state.md R21, R37, R38, 60_exceptions.md R240,
R244 to R247, R270). -/

namespace Sys2Proof.Machine

/-! ### The parts of the invariant -/

/-- An idle SEQ asks nothing. -/
theorem SeqOk.of_idle {s : State} (h : s.seq = .idle) : SeqOk s := by simp only [SeqOk, h]

/-- A running SEQ asks for OP's word and a point of its operation (R21, R23). -/
theorem seqOk_run {s : State} {w : Word} {p : Pos} (h : s.seq = .run w p) :
    SeqOk s ↔ s.regs.op = w ∧ ∃ i, decode w = .op i ∧ PosOk i s p := by simp only [SeqOk, h]

/-- SEQ's part rests on SEQ, OP, the operands, BLKDONE and the parameters alone. -/
theorem SeqOk.congr {s t : State} (hseq : t.seq = s.seq) (hop : t.regs.op = s.regs.op)
    (hg : sameOperands s.regs t.regs) (hb : t.regs.blkdone = s.regs.blkdone) (hp : t.params = s.params) (h : SeqOk s) :
    SeqOk t := by
  cases hs : s.seq with
  | idle => exact .of_idle (hseq.trans hs)
  | run w p =>
    obtain ⟨hw, i, hi, hq⟩ := (seqOk_run hs).mp h
    exact (seqOk_run (hseq.trans hs)).mpr ⟨hop.trans hw, i, hi, hq.congr hg hb hp⟩

/-- STATUS while an operation runs (R21, R26). -/
theorem StatusOk.of_running {s : State} (hseq : s.seq ≠ .idle) (hb : s.regs.status.busy = true)
    (hd : s.regs.status.done = false) (he : s.regs.status.err = .none) (hc : s.regs.status.cause = .none) :
    StatusOk s := ⟨by simp [hb, hseq], by simp [hd], fun _ => ⟨he, hc⟩⟩

/-- STATUS after an operation has ended (R241, R244). -/
theorem StatusOk.of_endOp {s : State} {e : Err} {c : Cause} (h : (e, c) ∈ outcomes (decode s.regs.op)) :
    StatusOk (endOp e c s) := ⟨by simp, fun _ => ⟨rfl, h⟩, fun hd => nomatch hd⟩

/-- The code of an operation keeps the canonical form of memory (R61). -/
theorem Went.mem_wf {i : Instr} {p : Pos} {s u : State} (h : Went i p s u) (hm : Memory.wf s.mem = true) :
    Memory.wf u.mem = true := by
  obtain ⟨-, hu⟩ | ⟨a, v, -, -, hu⟩ := h.mem
  · rw [hu]; exact hm
  · rw [hu]; exact Memory.wf_write a v hm

/-! ### The operation's step -/

/-- A block that runs operation `i` and stands at `p`, its start or a point it reaches. -/
structure Runs (i : Instr) (p : Pos) (s : State) : Prop where
  seq : s.seq = .run s.regs.op p
  op : decode s.regs.op = .op i
  stands : Stands i s p
  busy : s.regs.status.busy = true
  done : s.regs.status.done = false
  err : s.regs.status.err = .none
  cause : s.regs.status.cause = .none
  mem_wf : Memory.wf s.mem = true
  resp_ok : RespOk s.regs
  crc_ok : CrcOk s.regs

/-- Under the invariant a running block runs OP's operation at a point it reaches. -/
theorem State.Inv.runs {s : State} {w : Word} {p : Pos} {i : Instr} (h : s.Inv) (hs : s.seq = .run w p)
    (hi : decode w = .op i) : Runs i p s := by
  obtain ⟨rfl, j, hj, hp⟩ := (seqOk_run hs).mp h.seq_ok
  obtain rfl : i = j := by simpa [hi] using hj
  obtain ⟨hbusy, hdone, hnone⟩ := h.status_ok
  have hb : s.regs.status.busy = true := hbusy.mpr (by simp [hs])
  have hd : s.regs.status.done = false := Bool.eq_false_iff.mpr fun hd => nomatch hb.symm.trans (hdone hd).1
  exact ⟨hs, hi, .inr hp, hb, hd, (hnone hd).1, (hnone hd).2, h.mem_wf, h.resp_ok, h.crc_ok⟩

/-- An accepted operation runs from its start (R240). -/
theorem State.Inv.runs_accept {s : State} {w : Word} {i : Instr} (h : s.Inv) (hi : decode w = .op i) :
    Runs i .start (accept w s) :=
  ⟨rfl, hi, .inl ⟨rfl, rfl⟩, rfl, rfl, rfl, rfl, h.mem_wf, h.resp_ok, h.crc_ok⟩

/-- One step of an operation meets the invariant: it leads to a point of the operation, or ends it. -/
theorem Runs.step_inv {i : Instr} {p : Pos} {s t : State} (h : Runs i p s) (ht : exec i s = .next t) : t.Inv := by
  obtain ⟨hidle, -⟩ | ⟨p', hat, hmoved⟩ := exec_moved ht
  · simp [h.seq] at hidle
  obtain ⟨-, rfl⟩ : s.regs.op = encode i ∧ p = p' := by simpa [State.At, h.seq] using hat
  have hland : Lands i t := codeOf_lands (.refl hat h.resp_ok h.crc_ok) h.stands ((exec_at hat).symm.trans ht)
  obtain ⟨u, hu, ⟨q, rfl⟩ | ⟨e, c, rfl⟩⟩ := hmoved
  · have hseq : (goto q u).seq = .run s.regs.op q := goto_seq _ _ _ _ (hu.seq.trans h.seq)
    refine ⟨?_, (seqOk_run hseq).mpr ⟨?_, i, h.op, hland.pos _ _ hseq⟩, .of_running ?_ ?_ ?_ ?_ ?_, hland.resp, hland.crc⟩
    · simpa using hu.mem_wf h.mem_wf
    · rw [goto_regs, hu.op]
    · simp [hseq]
    all_goals rw [goto_regs, hu.status]
    · exact h.busy
    · exact h.done
    · exact h.err
    · exact h.cause
  · refine ⟨hu.mem_wf h.mem_wf, .of_idle rfl, .of_endOp ?_, hland.resp, hland.crc⟩
    rw [hu.op, h.op]
    exact hland.pair rfl

/-- The sequencer's step keeps the invariant. -/
theorem blockStep_inv {s t : State} (h : s.Inv) (ht : blockStep s = .next t) : t.Inv := by
  cases hs : s.seq with
  | idle =>
    simp only [blockStep, hs] at ht
    cases ht
    exact h
  | run w p =>
    obtain ⟨-, i, hi, -⟩ := (seqOk_run hs).mp h.seq_ok
    rw [blockStep_of_run hs hi] at ht
    exact (h.runs hs hi).step_inv ht

/-! ### What a host statement can do -/

/-- A host statement, inverted: past the host's own fields it does nothing, or it sets OVR on a busy block (R38), stores a
register or starts an operation on an idle one (R37, R240), or stores a buffer byte (R281). -/
def HostDid (s t : State) : Prop :=
  ∃ u, sameBlock s u ∧ u.params = s.params ∧
    (t = u ∨ (s.regs.status.busy = true ∧ t = setOvr u) ∨
      (s.regs.status.busy = false ∧ ((∃ r v, r ≠ .op ∧ t = hostStore r v u) ∨ ∃ w, startOp w u = .next t)) ∨
      ∃ (a : Word) (v : Byte), t = { u with mem := Memory.write u.mem a.toNat v })

/-- Only the host's own fields, or the counter of free draws, moved. -/
theorem HostDid.of_same {s t : State} (h : sameBlock s t) (hp : t.params = s.params) : HostDid s t :=
  ⟨t, h, hp, .inl rfl⟩

/-- A host write of a register (R37, R38, R240). -/
theorem hostWrite_did {r : Reg} {v : Word} {n : Nat} {s t : State} (h : hostWrite r v (setPc n s) = .next t) :
    HostDid s t := by
  refine ⟨setPc n s, ⟨rfl, rfl, rfl, rfl⟩, rfl, ?_⟩
  unfold hostWrite at h
  split at h
  · cases h
    exact .inr (.inl ⟨‹_›, rfl⟩)
  · have hb : s.regs.status.busy = false := Bool.eq_false_iff.mpr ‹_›
    split at h
    · exact .inr (.inr (.inl ⟨hb, .inr ⟨v, h⟩⟩))
    · cases h
      exact .inr (.inr (.inl ⟨hb, .inl ⟨r, v, ‹_›, rfl⟩⟩))

/-- A host read leaves the block and memory (R71). -/
theorem hostRead_sameBlock (r : Reg) (s : State) : sameBlock s (hostRead r s).2 := by
  simp [sameBlock, hostRead]

/-- A host read leaves the parameters. -/
@[simp] theorem hostRead_params (r : Reg) (s : State) : (hostRead r s).2.params = s.params := by simp [hostRead]

/-- Every host statement that answers (R98, R104). -/
theorem hostStmt_did {st : HostStmt} {pc : Nat} {s t : State} (h : hostStmt st pc s = .next t) : HostDid s t := by
  cases st with
  | w r v => exact hostWrite_did h
  | r r => cases h; exact .of_same (hostRead_sameBlock r s) (hostRead_params r s)
  | waitDone => cases h; exact .of_same (hostRead_sameBlock .status s) (hostRead_params .status s)
  | goto n => cases h; exact .of_same ⟨rfl, rfl, rfl, rfl⟩ rfl
  | br f eq v n => cases h; exact .of_same (hostRead_sameBlock f.reg s) (hostRead_params f.reg s)
  | halt => cases h; exact .of_same ⟨rfl, rfl, rfl, rfl⟩ rfl
  | busWrite a n v =>
    simp only [hostStmt] at h
    split at h
    · exact hostWrite_did h
    · exact absurd h (undefinedAccess_not_next _ _)
  | busRead a n =>
    simp only [hostStmt] at h
    split at h
    · cases h; exact .of_same (hostRead_sameBlock _ s) (hostRead_params _ s)
    · exact absurd h (undefinedAccess_not_next _ _)
  | bufWrite a v =>
    simp only [hostStmt] at h
    split at h <;> cases h
    exact ⟨setPc (pc + 1) s, ⟨rfl, rfl, rfl, rfl⟩, rfl, .inr (.inr (.inr ⟨a, v, rfl⟩))⟩
  | bufRead a =>
    simp only [hostStmt] at h
    split at h <;> cases h
    exact .of_same (by simp [sameBlock]) (by simp)

/-- The host agent's step. -/
theorem hostStep_did {s t : State} (h : hostStep s = .next t) : HostDid s t := by
  unfold hostStep at h
  split at h
  · exact hostStmt_did h
  · cases h
    exact .of_same ⟨rfl, rfl, rfl, rfl⟩ rfl

/-! ### The host's step -/

/-- The invariant speaks of the block, memory and the parameters alone. -/
theorem State.Inv.of_sameBlock {s t : State} (h : s.Inv) (hb : sameBlock s t) (hp : t.params = s.params) : t.Inv := by
  obtain ⟨hregs, hseq, -, hmem⟩ := hb
  refine ⟨by rw [hmem]; exact h.mem_wf, h.seq_ok.congr hseq ?_ ?_ ?_ hp, ?_, by rw [hregs]; exact h.resp_ok,
    by rw [hregs]; exact h.crc_ok⟩
  · rw [hregs]
  · simp [sameOperands, hregs]
  · rw [hregs]
  · simpa only [StatusOk, hregs, hseq] using h.status_ok

/-- An ignored write keeps it (R38). -/
theorem State.Inv.setOvr {s : State} (h : s.Inv) : (setOvr s).Inv :=
  ⟨h.mem_wf, h.seq_ok.congr rfl rfl ⟨rfl, rfl, rfl, rfl, rfl, rfl, rfl, rfl⟩ rfl rfl, h.status_ok, h.resp_ok, h.crc_ok⟩

/-- A buffer byte stored keeps it (R61). -/
theorem State.Inv.memWrite {s : State} (h : s.Inv) (a : Word) (v : Byte) :
    ({ s with mem := Memory.write s.mem a.toNat v } : State).Inv :=
  ⟨Memory.wf_write a v h.mem_wf, h.seq_ok.congr rfl rfl ⟨rfl, rfl, rfl, rfl, rfl, rfl, rfl, rfl⟩ rfl rfl, h.status_ok,
    h.resp_ok, h.crc_ok⟩

/-- An idle block's SEQ is idle (R21). -/
theorem State.Inv.seq_idle {s : State} (h : s.Inv) (hb : s.regs.status.busy = false) : s.seq = .idle := by
  by_contra hseq
  simp [h.status_ok.1.mpr hseq] at hb

/-- A host store writes operands alone: OP, STATUS, RESP, RESPX and CRC stay (R37). -/
theorem storeReg_frame {r : Reg} (v : Word) (g : Regs) (hr : r ≠ .op) :
    (storeReg v g r).op = g.op ∧ (storeReg v g r).status = g.status ∧ sameResp g (storeReg v g r) ∧
      sameCrc g (storeReg v g r) := by
  cases r with
  | op => exact absurd rfl hr
  | _ => exact ⟨rfl, rfl, ⟨rfl, rfl, rfl⟩, rfl, rfl⟩

/-- RESP's part rests on RESP and RESPX. -/
theorem RespOk.congr {g g' : Regs} (hg : sameResp g g') (h : RespOk g) : RespOk g' := by
  obtain ⟨h0, h1, h2⟩ := hg
  simpa only [RespOk, h0, h1, h2] using h

/-- CRC's part rests on CRC. -/
theorem CrcOk.congr {g g' : Regs} (hg : sameCrc g g') (h : CrcOk g) : CrcOk g' := by
  obtain ⟨h0, h1⟩ := hg
  simpa only [CrcOk, h0, h1] using h

/-- A host store on an idle block keeps the invariant (R37). -/
theorem State.Inv.hostStore {s : State} {r : Reg} (h : s.Inv) (hb : s.regs.status.busy = false) (hr : r ≠ .op)
    (v : Word) : (hostStore r v s).Inv := by
  obtain ⟨hop, hstatus, hresp, hcrc⟩ := storeReg_frame v s.regs hr
  refine ⟨h.mem_wf, .of_idle (h.seq_idle hb), ?_, h.resp_ok.congr hresp, h.crc_ok.congr hcrc⟩
  simpa only [StatusOk, hostStore_regs, hostStore_seq, hop, hstatus] using h.status_ok

/-- An OP write on an idle block keeps it: the operation starts, or the illegal word ends at once (R240, R247). -/
theorem State.Inv.startOp {s t : State} {w : Word} (h : s.Inv) (ht : startOp w s = .next t) : t.Inv := by
  unfold Machine.startOp at ht
  split at ht
  · exact (h.runs_accept ‹_›).step_inv ht
  · cases ht
    refine ⟨h.mem_wf, .of_idle rfl, .of_endOp ?_, h.resp_ok, h.crc_ok⟩
    simp_all [outcomes]

/-- Whatever a host statement does keeps it. -/
theorem HostDid.inv {s t : State} (hd : HostDid s t) (h : s.Inv) : t.Inv := by
  obtain ⟨u, hu, hp, ht⟩ := hd
  have hinv := h.of_sameBlock hu hp
  have hb : u.regs.status.busy = s.regs.status.busy := by rw [hu.1]
  obtain rfl | ⟨-, rfl⟩ | ⟨hbusy, ⟨r, v, hr, rfl⟩ | ⟨w, hw⟩⟩ | ⟨a, v, rfl⟩ := ht
  · exact hinv
  · exact hinv.setOvr
  · exact hinv.hostStore (hb.trans hbusy) hr v
  · exact hinv.startOp hw
  · exact hinv.memWrite a v

/-! ### Reset, and every step -/

/-- Reset establishes the invariant, whatever the block was doing (R43, R270). -/
theorem resetBlock_inv {s : State} (h : Memory.wf s.mem = true) : (resetBlock s).Inv :=
  ⟨h, .of_idle rfl, ⟨by simp [Regs.reset, Status.reset], fun hd => (nomatch hd), fun _ => ⟨rfl, rfl⟩⟩,
    ⟨by simp [Regs.reset], fun _ => ⟨rfl, rfl⟩, fun hn => absurd rfl hn, fun _ => rfl, fun _ => by simp [Regs.reset]⟩,
    .inr ⟨rfl, rfl⟩⟩

/-- The invariant does not speak of the schedule. -/
theorem State.Inv.turns {s : State} (h : s.Inv) (ts : List Turn) : ({ s with turns := ts } : State).Inv :=
  h.of_sameBlock ⟨rfl, rfl, rfl, rfl⟩ rfl

/-- The host's turn leaves the invariant to its statement. -/
theorem HostTurn.inv {s u : State} (hu : HostTurn s u) (h : s.Inv) : u.Inv := by
  obtain ⟨-, -, rfl⟩ | ⟨ts, -, rfl⟩ := hu
  · exact h
  · exact h.turns ts

/-- Settles O57: a host statement stores one thing or starts an operation, a step of an operation leads to a point of it or to
its end with a pair of its row, and reset restores every register. -/
theorem stepKeepsInvariant : Obligations.StepKeepsInvariant := by
  unfold Obligations.StepKeepsInvariant
  intro s t h ht
  obtain ⟨u, hu⟩ | hblock | ⟨ts, hts⟩ := turn_cases s
  · rw [step_of_hostTurn hu] at ht
    exact (hostStep_did ht).inv (hu.inv h)
  · obtain ⟨ts, hstep⟩ := step_of_blockTurn hblock
    rw [hstep] at ht
    exact blockStep_inv (h.turns ts) ht
  · simp only [step, hts, turnStep] at ht
    cases ht
    exact resetBlock_inv h.mem_wf

end Sys2Proof.Machine
end

section
/-! What a step leaves unchanged: an operation its operands, and a host write on a busy block every register but OVR
(10_state.md R23 to R36, R38). -/

namespace Sys2Proof.Machine

/-! ### The operation's step -/

/-- Registers that are the same have the same operands. -/
theorem sameOperands.of_eq {g g' : Regs} (h : g' = g) : sameOperands g g' := by simp [sameOperands, h]

/-- What a step of operation `i` keeps of a running block's registers, and of the host, the schedule and the parameters. -/
structure StepFrame (i : Instr) (s t : State) : Prop where
  operands : sameOperands s.regs t.regs
  host : t.host = s.host
  turns : t.turns = s.turns
  params : t.params = s.params
  op : t.regs.op = s.regs.op
  ovr : t.regs.status.ovr = s.regs.status.ovr
  blkdone : i ≠ .readBlocks → i ≠ .writeBlocks → t.regs.blkdone = s.regs.blkdone
  resp : (framesNothing i ∨ ∃ idx, i = .crc7 idx) → sameResp s.regs t.regs
  crc : framesNothing i → sameCrc s.regs t.regs

/-- Moving SEQ on, or ending the operation, adds nothing to what its code writes but the end's STATUS (R21, R244). -/
theorem Moved.frame {i : Instr} {p : Pos} {s t : State} (h : Moved i p s t) : StepFrame i s t := by
  obtain ⟨u, hu, ⟨q, rfl⟩ | ⟨e, c, rfl⟩⟩ := h
  · refine ⟨?_, ?_, ?_, ?_, ?_, ?_, ?_, ?_, ?_⟩
    all_goals simp only [goto_regs, goto_host, goto_turns, goto_params]
    · exact hu.operands
    · exact hu.host
    · exact hu.turns
    · exact hu.params
    · exact hu.op
    · rw [hu.status]
    · exact hu.blkdone
    · exact hu.resp
    · exact hu.crc
  · have hovr : u.regs.status.ovr = s.regs.status.ovr := by rw [hu.status]
    exact ⟨hu.operands, hu.host, hu.turns, hu.params, hu.op, hovr, hu.blkdone, hu.resp, hu.crc⟩

/-- Settles O46: a step of an operation keeps what its code keeps, from the accepted state on an idle block (R240) and from the
state itself on a running one. -/
theorem operationsKeepTheirOperands : Obligations.OperationsKeepTheirOperands := by
  unfold Obligations.OperationsKeepTheirOperands
  intro i s t h
  obtain ⟨hidle, hmoved⟩ | ⟨p, hat, hmoved⟩ := exec_moved h
  · obtain ⟨hops, hhost, hturns, hparams, hop, hovr, hblk, hresp, hcrc⟩ := hmoved.frame
    simp only [hidle, if_true]
    exact ⟨hops, hhost, hturns, hparams, hop, hovr, hblk, fun hf => ⟨hresp (.inl hf), hcrc hf⟩,
      fun idx hi => hresp (.inr ⟨idx, hi⟩)⟩
  · obtain ⟨hops, hhost, hturns, hparams, hop, hovr, hblk, hresp, hcrc⟩ := hmoved.frame
    have hrun : s.seq ≠ .idle := fun hidle => nomatch hat.symm.trans hidle
    simp only [if_neg hrun]
    exact ⟨hops, hhost, hturns, hparams, hop, hovr, hblk, fun hf => ⟨hresp (.inl hf), hcrc hf⟩,
      fun idx hi => hresp (.inr ⟨idx, hi⟩)⟩

/-! ### A busy block -/

/-- A host write on a busy block is ignored and sets OVR (R38). -/
theorem hostWrite_of_busy (r : Reg) (v : Word) {s : State} (h : s.regs.status.busy = true) :
    hostWrite r v s = .next (setOvr s) := by simp [hostWrite, h]

/-- On a busy block a host statement leaves the operands and OP (R38). -/
theorem HostDid.operands_of_busy {s t : State} (h : HostDid s t) (hb : s.regs.status.busy = true) :
    sameOperands s.regs t.regs ∧ t.regs.op = s.regs.op := by
  obtain ⟨u, ⟨hregs, -, -, -⟩, -, rfl | ⟨-, rfl⟩ | ⟨hidle, -⟩ | ⟨a, v, rfl⟩⟩ := h
  · exact ⟨.of_eq hregs, by rw [hregs]⟩
  · rw [setOvr_regs, hregs]
    exact ⟨⟨rfl, rfl, rfl, rfl, rfl, rfl, rfl, rfl⟩, rfl⟩
  · simp [hb] at hidle
  · exact ⟨.of_eq hregs, congrArg Regs.op hregs⟩

/-- The sequencer's step leaves the operands, and OP while the block is busy (R21, R23). -/
theorem blockStep_operands {s t : State} (h : s.Inv) (hb : s.regs.status.busy = true) (ht : blockStep s = .next t) :
    sameOperands s.regs t.regs ∧ t.regs.op = s.regs.op := by
  obtain ⟨w, p, i, hseq, hdec, -⟩ := h.run_of_busy hb
  rw [blockStep_of_run hseq hdec] at ht
  obtain ⟨hidle, -⟩ | ⟨q, -, hmoved⟩ := exec_moved ht
  · simp [hseq] at hidle
  · exact ⟨hmoved.frame.operands, hmoved.frame.op⟩

/-- Taking a turn off the schedule leaves the registers. -/
theorem HostTurn.regs {s u : State} (h : HostTurn s u) : u.regs = s.regs := by
  obtain ⟨-, -, rfl⟩ | ⟨ts, -, rfl⟩ := h <;> rfl

/-- Settles O49: a busy block ignores a register write but for OVR, and its own steps write no operand. -/
theorem writesWhileBusyAreIgnored : Obligations.WritesWhileBusyAreIgnored := by
  unfold Obligations.WritesWhileBusyAreIgnored
  refine ⟨fun r v s hb => hostWrite_of_busy r v hb, fun s t h hb hreset ht => ?_⟩
  obtain ⟨u, hu⟩ | hblock | ⟨ts, hts⟩ := turn_cases s
  · rw [step_of_hostTurn hu] at ht
    have hkeep := (hostStep_did ht).operands_of_busy (by rw [hu.regs, hb])
    rwa [hu.regs] at hkeep
  · obtain ⟨ts, hstep⟩ := step_of_blockTurn hblock
    rw [hstep] at ht
    exact blockStep_operands (s := { s with turns := ts }) (h.turns ts) hb ht
  · exact absurd hts (hreset ts)

end Sys2Proof.Machine
end

section
/-! Where an operation has a next state: at every point of its own, unless its next event is a buffer access the memory does
not admit (10_state.md R21, 20_memory.md R61, 60_exceptions.md R243). -/

namespace Sys2Proof.Machine

/-! ### The operation in SEQ -/

/-- The word of a SEND_CMD decodes to it (R90, R92, R99). -/
theorem decode_sendWord (rt : RespType) (idx : BitVec 6) (nochk : Bool) :
    decode (sendWord rt idx nochk) = .op (sendInstr rt idx nochk) := by
  cases rt <;> (revert idx nochk; decide +kernel)

/-- An operation's word decodes to it (R90, R96). -/
theorem decode_encode (i : Instr) : decode (encode i) = .op i := by
  cases i with
  | sendCmdR1 idx nochk => exact decode_sendWord .r1 idx nochk
  | sendCmdR1b idx nochk => exact decode_sendWord .r1b idx nochk
  | sendCmdR2 idx nochk => exact decode_sendWord .r2 idx nochk
  | sendCmdR3 idx nochk => exact decode_sendWord .r3 idx nochk
  | sendCmdR7 idx nochk => exact decode_sendWord .r7 idx nochk
  | crc7 idx => revert idx; decide +kernel
  | waitReady => decide +kernel
  | fill => decide +kernel
  | readData => decide +kernel
  | readBlocks => decide +kernel
  | writeBlocks => decide +kernel

/-- Under the invariant a block that runs an operation stands at a point of it. -/
theorem State.Inv.posOk {s : State} {i : Instr} {p : Pos} (h : s.Inv) (hat : s.At i p) : PosOk i s p := by
  obtain ⟨-, j, hj, hp⟩ := (seqOk_run hat).mp h.seq_ok
  obtain rfl : i = j := by simpa [decode_encode] using hj
  exact hp

/-- A point of a command by itself is a point of a SEND_CMD. -/
theorem PosOk.eq_sendInstr {i : Instr} {s : State} {q : CmdPos} (h : PosOk i s (.sendCmd q)) :
    ∃ rt idx nochk, i = sendInstr rt idx nochk := by
  cases i with
  | sendCmdR1 idx nochk => exact ⟨.r1, idx, nochk, rfl⟩
  | sendCmdR1b idx nochk => exact ⟨.r1b, idx, nochk, rfl⟩
  | sendCmdR2 idx nochk => exact ⟨.r2, idx, nochk, rfl⟩
  | sendCmdR3 idx nochk => exact ⟨.r3, idx, nochk, rfl⟩
  | sendCmdR7 idx nochk => exact ⟨.r7, idx, nochk, rfl⟩
  | _ => exact h.elim

/-- A point of WAIT_READY is a point of no other operation. -/
theorem PosOk.eq_waitReady {i : Instr} {s : State} {q : WaitPos} (h : PosOk i s (.waitReady q)) : i = .waitReady := by
  cases i with
  | waitReady => rfl
  | _ => exact h.elim

/-- A point of FILL is a point of no other operation. -/
theorem PosOk.eq_fill {i : Instr} {s : State} {n : Nat} (h : PosOk i s (.fill n)) : i = .fill := by
  cases i with
  | fill => rfl
  | _ => exact h.elim

/-- A point of READ_DATA is a point of no other operation. -/
theorem PosOk.eq_readData {i : Instr} {s : State} {q : ReadPos} (h : PosOk i s (.readData q)) : i = .readData := by
  cases i with
  | readData => rfl
  | _ => exact h.elim

/-- A point of READ_BLOCKS is a point of no other operation. -/
theorem PosOk.eq_readBlocks {i : Instr} {s : State} {q : RbPos} (h : PosOk i s (.readBlocks q)) : i = .readBlocks := by
  cases i with
  | readBlocks => rfl
  | _ => exact h.elim

/-- A point of WRITE_BLOCKS is a point of no other operation. -/
theorem PosOk.eq_writeBlocks {i : Instr} {s : State} {q : WbPos} (h : PosOk i s (.writeBlocks q)) : i = .writeBlocks := by
  cases i with
  | writeBlocks => rfl
  | _ => exact h.elim

/-! ### The packets -/

/-- A read packet answers unless it stores where the memory does not admit it (R172). -/
theorem readPacketStep_answers {len : Nat} {base T : Word} {q : ReadPos} {s : State}
    (h : ∀ j b, q = .store j b → admits s.params (byteAddr base j) = true) :
    ∃ d, readPacketStep len base T q s = .next d := by
  cases q with
  | store j b => exact ⟨_, by rw [readPacketStep, memWrite_of_admits b (h j b rfl), onNext_next]⟩
  | _ => exact ⟨_, rfl⟩

/-- A write packet answers unless it fetches where the memory does not admit it (R177). -/
theorem writePacketStep_answers {tok : Byte} {base T : Word} {q : WritePos} {s : State}
    (h : ∀ j, q = .fetch j → admits s.params (byteAddr base j) = true) :
    ∃ d, writePacketStep tok base T q s = .next d := by
  cases q with
  | fetch j => exact ⟨_, by rw [writePacketStep, memRead_of_admits (h j rfl), onNext_next]⟩
  | _ => exact ⟨_, rfl⟩

/-- A store the memory does not admit is the memory's stop (R61, R243). -/
theorem readPacketStep_stops {len j : Nat} {base T : Word} {b : Byte} {s : State}
    (h : admits s.params (byteAddr base j) = false) : readPacketStep len base T (.store j b) s = memStop s.params := by
  simp only [readPacketStep, memWrite, h, memStop]
  cases s.params.memErr <;> rfl

/-- A fetch the memory does not admit is the memory's stop (R61, R243). -/
theorem writePacketStep_stops {j : Nat} {tok : Byte} {base T : Word} {s : State}
    (h : admits s.params (byteAddr base j) = false) : writePacketStep tok base T (.fetch j) s = memStop s.params := by
  simp only [writePacketStep, memRead, h, memStop]
  cases s.params.memErr <;> rfl

/-- Nothing goes on after the memory's stop. -/
theorem onNext_memStop {α β : Type} (p : Params) (f : α → Out β) : onNext (memStop p) f = memStop p := by
  unfold memStop
  cases p.memErr <;> rfl

/-! ### A next state at every point -/

/-- A step of SEND_CMD. -/
theorem sendCmdAt_answers (rt : RespType) (idx : BitVec 6) (nochk : Bool) (q : CmdPos) (s : State) :
    ∃ t, sendCmdAt rt idx nochk (.sendCmd q) s = .next t := by
  simp only [sendCmdAt]
  split <;> exact ⟨_, rfl⟩

/-- A step of WAIT_READY. -/
theorem waitReadyAt_answers (q : WaitPos) (s : State) : ∃ t, waitReadyAt (.waitReady q) s = .next t := by
  simp only [waitReadyAt]
  split <;> exact ⟨_, rfl⟩

/-- A step of READ_DATA, once its packet answers. -/
theorem readDataAt_answers {q : ReadPos} {s : State} {w : Word} (hs : s.seq = .run w (.readData q))
    (ha : accessAdmitted s) : ∃ t, readDataAt (.readData q) s = .next t := by
  obtain ⟨d, hd⟩ : ∃ d, readPacketStep s.regs.count.toNat s.regs.bufaddr s.regs.tmoToken q s = .next d := by
    refine readPacketStep_answers fun j b hq => ha.1 _ ?_
    simp [storeAddr, hs, hq]
  simp only [readDataAt, hd, onNext_next]
  split <;> exact ⟨_, rfl⟩

/-- A step of READ_BLOCKS, once its packet answers. -/
theorem readBlocksStep_answers {q : RbPos} {s : State} {w : Word} (hs : s.seq = .run w (.readBlocks q))
    (ha : accessAdmitted s) : ∃ t, readBlocksStep q s = .next t := by
  cases q with
  | cmd q =>
    simp only [readBlocksStep]
    split <;> exact ⟨_, rfl⟩
  | single q =>
    obtain ⟨d, hd⟩ : ∃ d, readPacketStep blockSize s.regs.bufaddr s.regs.tmoToken q s = .next d := by
      refine readPacketStep_answers fun j b hq => ha.1 _ ?_
      simp [storeAddr, hs, hq]
    simp only [readBlocksStep, hd, onNext_next]
    split <;> exact ⟨_, rfl⟩
  | block i q =>
    obtain ⟨d, hd⟩ : ∃ d, readPacketStep blockSize (blockBase s.regs.bufaddr i) s.regs.tmoToken q s = .next d := by
      refine readPacketStep_answers fun j b hq => ha.1 _ ?_
      simp [storeAddr, hs, hq]
    simp only [readBlocksStep, hd, onNext_next]
    split <;> exact ⟨_, rfl⟩
  | stop e q =>
    simp only [readBlocksStep]
    split <;> exact ⟨_, rfl⟩

/-- A step of WRITE_BLOCKS, once its packet answers. -/
theorem writeBlocksStep_answers {q : WbPos} {s : State} {w : Word} (hs : s.seq = .run w (.writeBlocks q))
    (ha : accessAdmitted s) : ∃ t, writeBlocksStep q s = .next t := by
  cases q with
  | cmd q =>
    simp only [writeBlocksStep]
    split <;> exact ⟨_, rfl⟩
  | single q =>
    obtain ⟨d, hd⟩ : ∃ d, writePacketStep startToken s.regs.bufaddr s.regs.tmoBusy q s = .next d := by
      refine writePacketStep_answers fun j hq => ha.2 _ ?_
      simp [loadAddr, hs, hq]
    simp only [writeBlocksStep, hd, onNext_next]
    split <;> exact ⟨_, rfl⟩
  | lastWait c q =>
    simp only [writeBlocksStep]
    split <;> exact ⟨_, rfl⟩
  | block i q =>
    obtain ⟨d, hd⟩ : ∃ d, writePacketStep multiToken (blockBase s.regs.bufaddr i) s.regs.tmoBusy q s = .next d := by
      refine writePacketStep_answers fun j hq => ha.2 _ ?_
      simp [loadAddr, hs, hq]
    simp only [writeBlocksStep, hd, onNext_next]
    split <;> exact ⟨_, rfl⟩
  | stop e q =>
    simp only [writeBlocksStep]
    split <;> exact ⟨_, rfl⟩

/-- The start of every operation answers: no event has happened yet (R240). -/
theorem codeOf_start_answers (i : Instr) (s : State) : ∃ t, codeOf i .start s = .next t := by
  cases i <;> exact ⟨_, rfl⟩

/-- Every point of an operation answers where the access it makes is admitted. -/
theorem codeOf_answers {i : Instr} {p : Pos} {s : State} (hat : s.At i p) (hp : PosOk i s p) (ha : accessAdmitted s) :
    ∃ t, codeOf i p s = .next t := by
  cases p with
  | start => exact codeOf_start_answers i s
  | sendCmd q =>
    obtain ⟨rt, idx, nochk, rfl⟩ := hp.eq_sendInstr
    rw [codeOf_sendInstr]
    exact sendCmdAt_answers rt idx nochk q s
  | waitReady q =>
    obtain rfl := hp.eq_waitReady
    exact waitReadyAt_answers q s
  | fill n =>
    obtain rfl := hp.eq_fill
    exact ⟨_, rfl⟩
  | readData q =>
    obtain rfl := hp.eq_readData
    exact readDataAt_answers hat ha
  | readBlocks q =>
    obtain rfl := hp.eq_readBlocks
    exact readBlocksStep_answers hat ha
  | writeBlocks q =>
    obtain rfl := hp.eq_writeBlocks
    exact writeBlocksStep_answers hat ha

/-! ### The memory's stop -/

/-- The points whose event stores to the buffer (R172, R205). -/
theorem storeAddr_cases {s : State} {a : Word} (h : storeAddr s = some a) :
    (∃ w j b, s.seq = .run w (.readData (.store j b)) ∧ a = byteAddr s.regs.bufaddr j) ∨
    (∃ w j b, s.seq = .run w (.readBlocks (.single (.store j b))) ∧ a = byteAddr s.regs.bufaddr j) ∨
    ∃ w k j b, s.seq = .run w (.readBlocks (.block k (.store j b))) ∧ a = byteAddr (blockBase s.regs.bufaddr k) j := by
  unfold storeAddr at h
  split at h <;> simp_all

/-- The points whose event loads from the buffer (R177, R215). -/
theorem loadAddr_cases {s : State} {a : Word} (h : loadAddr s = some a) :
    (∃ w j, s.seq = .run w (.writeBlocks (.single (.fetch j))) ∧ a = byteAddr s.regs.bufaddr j) ∨
    ∃ w k j, s.seq = .run w (.writeBlocks (.block k (.fetch j))) ∧ a = byteAddr (blockBase s.regs.bufaddr k) j := by
  unfold loadAddr at h
  split at h <;> simp_all

/-- At a buffer access the memory does not admit, the operation's step is the memory's stop (R61, R243). -/
theorem codeOf_stops {i : Instr} {p : Pos} {s : State} {a : Word} (hat : s.At i p) (hp : PosOk i s p)
    (ha : storeAddr s = some a ∨ loadAddr s = some a) (hn : admits s.params a = false) :
    codeOf i p s = memStop s.params := by
  have hpos {w : Word} {q : Pos} (hq : s.seq = .run w q) : p = q := 
    (Seq.run.inj (hat.symm.trans hq)).2
  obtain hst | hld := ha
  · obtain ⟨w, j, b, hq, rfl⟩ | ⟨w, j, b, hq, rfl⟩ | ⟨w, k, j, b, hq, rfl⟩ := storeAddr_cases hst
    · obtain rfl := hpos hq
      obtain rfl := hp.eq_readData
      simp only [codeOf, readDataAt, readPacketStep_stops hn, onNext_memStop]
    · obtain rfl := hpos hq
      obtain rfl := hp.eq_readBlocks
      simp only [codeOf, readBlocksAt, readBlocksStep, readPacketStep_stops hn, onNext_memStop]
    · obtain rfl := hpos hq
      obtain rfl := hp.eq_readBlocks
      simp only [codeOf, readBlocksAt, readBlocksStep, readPacketStep_stops hn, onNext_memStop]
  · obtain ⟨w, j, hq, rfl⟩ | ⟨w, k, j, hq, rfl⟩ := loadAddr_cases hld
    · obtain rfl := hpos hq
      obtain rfl := hp.eq_writeBlocks
      simp only [codeOf, writeBlocksAt, writeBlocksStep, writePacketStep_stops hn, onNext_memStop]
    · obtain rfl := hpos hq
      obtain rfl := hp.eq_writeBlocks
      simp only [codeOf, writeBlocksAt, writeBlocksStep, writePacketStep_stops hn, onNext_memStop]

/-- Settles O14: an operation stands at a point of its own, which answers unless it is a buffer access; the access answers
where the memory admits it and is the memory's stop elsewhere. -/
theorem everyOperationAnswersANextState : Obligations.EveryOperationAnswersANextState := by
  unfold Obligations.EveryOperationAnswersANextState
  constructor
  · intro i s h hs ha
    obtain hidle | ⟨p, hat⟩ := hs
    · rw [exec_idle hidle]
      exact codeOf_start_answers i _
    · rw [exec_at hat]
      exact codeOf_answers hat (h.posOk hat) ha
  · intro i s p a hat h ha hn hstuck
    rw [exec_at hat, codeOf_stops hat (h.posOk hat) ha hn]
    simp only [memStop, hstuck]

end Sys2Proof.Machine
end

section
/-! The host's registers: where its writes and reads go, the bits it reads, and the reset values (10_state.md R22 to R39, R43,
20_memory.md R69, R71), and that a step runs the operation of the decoded word (R21, R78, R240). -/

namespace Sys2Proof.Machine

/-! ### A step runs the decoded operation -/

/-- A legal word written to OP on an idle block runs its operation from the accepted state (R240). -/
theorem hostWrite_op_of_idle {w : Word} {i : Instr} {s : State} (hi : decode w = .op i)
    (hb : s.regs.status.busy = false) : hostWrite .op w s = exec i (accept w s) := by
  simp [hostWrite, hb, startOp, hi]

/-- A host about to write a legal word to OP of an idle block runs its operation (R78, R98). -/
theorem hostStep_op_write {s : State} {w : Word} {i : Instr} (hi : decode w = .op i) (hb : s.regs.status.busy = false)
    (hst : s.host.prog[s.host.pc]? = some (.w .op w)) : hostStep s = exec i (accept w (setPc (s.host.pc + 1) s)) := by
  simp only [hostStep, hst, hostStmt]
  exact hostWrite_op_of_idle hi hb

/-- With no schedule, an idle block leaves the step to the host (log entry 2). -/
theorem step_of_idle {s : State} (ht : s.turns = []) (hb : s.regs.status.busy = false) : step s = hostStep s :=
  step_of_hostTurn (.inl ⟨ht, hb, rfl⟩)

/-- An idle block enters an operation as it goes on with it once its word is accepted (log entry 15). -/
theorem exec_accept {i : Instr} {s : State} (h : s.seq = .idle) : exec i s = exec i (accept (encode i) s) := by
  rw [exec_idle h, exec_at (accept_seq (encode i) s)]

/-- Settles O13: the host's turn runs the statement that writes OP, the block's turn the operation in SEQ. -/
theorem stepRunsTheDecodedOperation : Obligations.StepRunsTheDecodedOperation := by
  unfold Obligations.StepRunsTheDecodedOperation
  refine ⟨?_, ?_, ?_, ?_, ?_, ?_⟩
  · intro s nbits w i hi
    rw [step_of_idle rfl rfl]
    exact hostStep_op_write hi rfl rfl
  · intro s w i hi hb ht hst
    rw [step_of_idle ht hb]
    exact hostStep_op_write hi hb hst
  · intro s w i ts hi hb ht hst
    rw [step_of_hostTurn (.inr ⟨ts, ht, rfl⟩)]
    exact hostStep_op_write hi hb hst
  · intro s w p i hi hs hb ht
    simp only [step, ht, hb, if_true]
    exact blockStep_of_run hs hi
  · intro s w p i ts hi hs ht
    simp only [step, ht, turnStep]
    exact blockStep_of_run hs hi
  · exact fun i s hs => exec_accept hs

/-! ### The bits the host reads -/

/-- A bit of a word that holds `x` from bit `n` on. -/
theorem getLsbD_field {w : Nat} (x : BitVec w) (n k : Nat) :
    (x.setWidth 32 <<< n).getLsbD k = (decide (k < 32) && (decide (n ≤ k) && x.getLsbD (k - n))) := by
  rw [BitVec.getLsbD_shiftLeft, BitVec.getLsbD_setWidth]
  grind

/-- The bits of a word from `n` on hold what was placed there. -/
theorem extractLsb'_field_same {w n : Nat} (x : BitVec w) (h : n + w ≤ 32) :
    (x.setWidth 32 <<< n).extractLsb' n w = x := by
  refine BitVec.eq_of_getLsbD_eq fun k hk => ?_
  rw [BitVec.getLsbD_extractLsb', getLsbD_field]
  simp [hk, show n + k < 32 by omega]

/-- The bits beside them are 0. -/
theorem extractLsb'_field_other {w n lo len : Nat} (x : BitVec w) (h : lo + len ≤ n ∨ n + w ≤ lo) :
    (x.setWidth 32 <<< n).extractLsb' lo len = 0 := by
  refine BitVec.eq_of_getLsbD_eq fun k hk => ?_
  rw [BitVec.getLsbD_extractLsb', getLsbD_field]
  obtain h | h := h
  · simp [show ¬ n ≤ lo + k by omega]
  · simp [BitVec.getLsbD_of_ge x (lo + k - n) (by omega)]

/-- STATUS as five fields (R26). -/
theorem statusWord_eq_fields (st : Status) : statusWord st =
    (BitVec.ofBool st.busy).setWidth 32 <<< 0 ||| (BitVec.ofBool st.done).setWidth 32 <<< 1
      ||| (BitVec.ofBool st.ovr).setWidth 32 <<< 2 ||| (errCode st.err).setWidth 32 <<< 4
      ||| (causeCode st.cause).setWidth 32 <<< 8 := by rw [BitVec.shiftLeft_zero]; rfl

/-- RESP as two fields (R29). -/
theorem respWord_eq_fields (g : Regs) : respWord g = g.byte0.setWidth 32 <<< 0 ||| g.nresp.setWidth 32 <<< 8 := by
  rw [BitVec.shiftLeft_zero]; rfl

/-- CRC as two fields (R32). -/
theorem crcWord_eq_fields (g : Regs) : crcWord g = g.crc7.setWidth 32 <<< 0 ||| g.frame5.setWidth 32 <<< 8 := by
  rw [BitVec.shiftLeft_zero]; rfl

/-- CFG as two fields (R31). -/
theorem cfgWord_eq_fields (g : Regs) :
    cfgWord g = (BitVec.ofBool g.hc).setWidth 32 <<< 0 ||| (BitVec.ofBool g.wp).setWidth 32 <<< 1 := by
  rw [BitVec.shiftLeft_zero]; rfl

/-- The flags of STATUS, and the reserved bits between its fields (R26, R37). -/
theorem statusWord_bits (st : Status) :
    (statusWord st).getLsbD 0 = st.busy ∧ (statusWord st).getLsbD 1 = st.done ∧ (statusWord st).getLsbD 2 = st.ovr ∧
      (statusWord st).getLsbD 3 = false ∧ (statusWord st).getLsbD 7 = false := by
  simp only [statusWord_eq_fields, BitVec.getLsbD_or, getLsbD_field]
  simp

/-- ERR, CAUSE and the reserved bits above them (R27, R28, R37). -/
theorem statusWord_codes (st : Status) :
    (statusWord st).extractLsb' 4 3 = errCode st.err ∧ (statusWord st).extractLsb' 8 4 = causeCode st.cause ∧
      (statusWord st).extractLsb' 12 20 = 0 := by
  rw [statusWord_eq_fields]
  simp (disch := omega) only [BitVec.extractLsb'_or, extractLsb'_field_same, extractLsb'_field_other]
  simp

/-- BYTE0, NRESP and the reserved bits of RESP (R29, R37). -/
theorem respWord_fields (g : Regs) :
    (respWord g).extractLsb' 0 8 = g.byte0 ∧ (respWord g).extractLsb' 8 3 = g.nresp ∧
      (respWord g).extractLsb' 11 21 = 0 := by
  rw [respWord_eq_fields]
  simp (disch := omega) only [BitVec.extractLsb'_or, extractLsb'_field_same, extractLsb'_field_other]
  simp

/-- CRC7, FRAME5 and the reserved bits of CRC (R32, R37). -/
theorem crcWord_fields (g : Regs) :
    (crcWord g).extractLsb' 0 7 = g.crc7 ∧ (crcWord g).getLsbD 7 = false ∧ (crcWord g).extractLsb' 8 8 = g.frame5 ∧
      (crcWord g).extractLsb' 16 16 = 0 := by
  rw [crcWord_eq_fields, BitVec.getLsbD_or, getLsbD_field, getLsbD_field]
  simp (disch := omega) only [BitVec.extractLsb'_or, extractLsb'_field_same, extractLsb'_field_other]
  simp

/-- HC, WP and the reserved bits of CFG (R31, R37). -/
theorem cfgWord_fields (g : Regs) :
    (cfgWord g).getLsbD 0 = g.hc ∧ (cfgWord g).getLsbD 1 = g.wp ∧ (cfgWord g).extractLsb' 2 30 = 0 := by
  rw [cfgWord_eq_fields, BitVec.getLsbD_or, BitVec.getLsbD_or]
  simp (disch := omega) only [getLsbD_field, BitVec.extractLsb'_or, extractLsb'_field_other]
  simp

/-- Bits of OP beside the reserved ones read as they were stored (R23, R90). -/
theorem extractLsb'_opWord {lo len : Nat} (g : Regs) (h : (~~~reservedMask).extractLsb' lo len = BitVec.allOnes len) :
    (opWord g).extractLsb' lo len = g.op.extractLsb' lo len := by
  rw [opWord, BitVec.extractLsb'_and, h, BitVec.and_allOnes]

/-- The fields of OP, and 0 at its reserved bits (R23, R37, log entry 25). -/
theorem opWord_fields (g : Regs) :
    opcOf (opWord g) = opcOf g.op ∧ idxOf (opWord g) = idxOf g.op ∧ rtOf (opWord g) = rtOf g.op ∧
      nochkOf (opWord g) = nochkOf g.op ∧ opWord g &&& reservedMask = 0 := by
  refine ⟨extractLsb'_opWord g (by decide +kernel), extractLsb'_opWord g (by decide +kernel),
    extractLsb'_opWord g (by decide +kernel), ?_, ?_⟩
  · rw [nochkOf, opWord, BitVec.getLsbD_and, show (~~~reservedMask).getLsbD 20 = true by decide +kernel, Bool.and_true]
    rfl
  · rw [opWord, BitVec.and_assoc, show ~~~reservedMask &&& reservedMask = 0 by decide +kernel]
    exact BitVec.and_zero

/-- Settles O53: each register is its fields side by side, and each field is read back from where it stands. -/
theorem registerFieldsStandWhereTheSpecPutsThem : Obligations.RegisterFieldsStandWhereTheSpecPutsThem := by
  unfold Obligations.RegisterFieldsStandWhereTheSpecPutsThem
  refine ⟨fun st => ?_, opWord_fields, fun g => ?_⟩
  · obtain ⟨hbusy, hdone, hovr, h3, h7⟩ := statusWord_bits st
    obtain ⟨herr, hcause, hrest⟩ := statusWord_codes st
    refine ⟨hbusy, hdone, hovr, h3, herr.trans ?_, h7, hcause.trans ?_, hrest⟩
    · cases st.err <;> rfl
    · cases st.cause <;> rfl
  · obtain ⟨hbyte0, hnresp, hresp⟩ := respWord_fields g
    obtain ⟨hcrc7, hbit7, hframe5, hcrc⟩ := crcWord_fields g
    exact ⟨hbyte0, hnresp, hresp, hcrc7, hbit7, hframe5, hcrc, cfgWord_fields g⟩

/-! ### Host writes of an idle block -/

/-- CFG takes the two low bits of the value written (R31). -/
theorem cfgWord_of_bits (v : Word) (g : Regs) :
    cfgWord { g with hc := v.getLsbD 0, wp := v.getLsbD 1 } = v &&& 0x3 := by
  refine BitVec.eq_of_getLsbD_eq fun k hk => ?_
  rw [cfgWord_eq_fields, BitVec.getLsbD_or, getLsbD_field, getLsbD_field, BitVec.getLsbD_and]
  match k with
  | 0 => simp
  | 1 => simp
  | k + 2 =>
    have hmask : (0x3 : Word).getLsbD (k + 2) = false := by
      rw [show (0x3 : Word) = (0x3 : BitVec 2).setWidth 32 from rfl, BitVec.getLsbD_setWidth,
        BitVec.getLsbD_of_ge _ _ (by omega), Bool.and_false]
    rw [hmask]
    simp

/-- A host store leaves what every other register reads (R37). -/
theorem regWord_storeReg_other {q r : Reg} (v : Word) (g : Regs) (h : q ≠ r) : regWord (storeReg v g r) q = regWord g q := by
  cases r with
  | op =>
    cases q with
    | op => exact absurd rfl h
    | _ => rfl
  | arg =>
    cases q with
    | arg => exact absurd rfl h
    | _ => rfl
  | count =>
    cases q with
    | count => exact absurd rfl h
    | _ => rfl
  | cfg =>
    cases q with
    | cfg => exact absurd rfl h
    | _ => rfl
  | tmoCmd =>
    cases q with
    | tmoCmd => exact absurd rfl h
    | _ => rfl
  | tmoToken =>
    cases q with
    | tmoToken => exact absurd rfl h
    | _ => rfl
  | tmoBusy =>
    cases q with
    | tmoBusy => exact absurd rfl h
    | _ => rfl
  | bufaddr =>
    cases q with
    | bufaddr => exact absurd rfl h
    | _ => rfl
  | _ => rfl

/-- What a register but OP reads after a host store of it: writable registers the value, CFG its two bits, and the others what
they read before (R31, R35, R37). -/
theorem regWord_storeReg_same {r : Reg} (v : Word) (g : Regs) (h : r ≠ .op) :
    regWord (storeReg v g r) r =
      if r ∈ [Reg.arg, .count, .tmoCmd, .tmoToken, .tmoBusy, .bufaddr] then v
      else if r = .cfg then v &&& 0x3 else regWord g r := by
  cases r with
  | op => exact absurd rfl h
  | cfg => exact cfgWord_of_bits v g
  | _ => rfl

/-- A host write of a register but OP on an idle block only stores (R37). -/
theorem hostWrite_of_idle {r : Reg} {s : State} (v : Word) (hb : s.regs.status.busy = false) (hr : r ≠ .op) :
    hostWrite r v s = .next (hostStore r v s) := by simp [hostWrite, hb, hr]

/-- Settles O50: the write is a store of its register, which no other register's value sees. -/
theorem writesWhileIdleStore : Obligations.WritesWhileIdleStore := by
  unfold Obligations.WritesWhileIdleStore
  intro r v s hb hr
  obtain ⟨-, hstatus, -⟩ := storeReg_frame v s.regs hr
  refine ⟨_, hostWrite_of_idle v hb hr, rfl, rfl, rfl, rfl, hstatus, fun q => ?_, rfl, rfl, rfl⟩
  rw [hostStore_regs]
  by_cases hq : q = r
  · subst hq
    simp only [true_and]
    exact regWord_storeReg_same v s.regs hr
  · simp only [hq, false_and, if_false]
    exact regWord_storeReg_other v s.regs hq

/-! ### Host reads -/

/-- The registers whose reads R39 leaves free while BUSY = 1. -/
theorem readsFreeWhileBusy_iff (r : Reg) : readsFreeWhileBusy r = true ↔ r ∈ [Reg.resp, .respx, .crc, .blkdone] := by
  cases r <;> decide

/-- A read R39 does not leave free is the register's value, and changes nothing. -/
theorem hostLoad_exact {r : Reg} {s : State}
    (h : s.regs.status.busy = false ∨ r ∉ [Reg.resp, .respx, .crc, .blkdone]) : hostLoad r s = (regWord s.regs r, s) := by
  rw [← readsFreeWhileBusy_iff, Bool.not_eq_true] at h
  obtain h | h := h <;> simp [hostLoad, h]

/-- A read R39 leaves free is a draw, which the counter records (log entries 5, 24). -/
theorem hostLoad_free {r : Reg} {s : State} (hb : s.regs.status.busy = true)
    (hr : r ∈ [Reg.resp, .respx, .crc, .blkdone]) :
    hostLoad r s = (Config.busyRead s.inputs.drawn, { s with inputs := { s.inputs with drawn := s.inputs.drawn + 1 } }) := by
  rw [← readsFreeWhileBusy_iff] at hr
  simp [hostLoad, hb, hr]

/-- Settles O51: a read is the register's value or a free draw, and only the counter of draws may move. -/
theorem readsAreExactExceptWhileBusy : Obligations.ReadsAreExactExceptWhileBusy := by
  unfold Obligations.ReadsAreExactExceptWhileBusy
  intro r s
  obtain ⟨hregs, hseq, htrace, hmem⟩ := hostRead_sameBlock r s
  refine ⟨fun h => ?_, fun ⟨hb, hr⟩ => ?_, hregs, hseq, htrace, hmem, hostLoad_card r s, hostLoad_clock r s⟩
  · simp only [hostRead, hostLoad_exact h]
  · simp only [hostRead, hostLoad_free hb hr, setLast_inputs, and_self]

/-! ### Which accesses name a register -/

/-- The sixteen registers stand at the sixteen words of the window (R22). -/
theorem regList_at_offset (r : Reg) : regOffset r % 4 = 0 ∧ regOffset r ≤ 0x3C ∧ regList[regOffset r / 4]? = some r := by
  cases r <;> decide

/-- The access at a register's offset names it (R22, R69). -/
theorem regAt_offset (base : Word) (r : Reg) : regAt base (base + BitVec.ofNat 32 (regOffset r)) 4 = some r := by
  obtain ⟨halign, hmax, hr⟩ := regList_at_offset r
  have hoff : (base + BitVec.ofNat 32 (regOffset r) - base).toNat = regOffset r := by
    rw [add_sub_cancel_left, BitVec.toNat_ofNat, Nat.mod_eq_of_lt (by omega)]
  simp only [regAt, hoff, halign, hr, and_self, if_true]

/-- An access names no register exactly when it is of another width, misaligned or outside the window (R69). -/
theorem regAt_eq_none_iff (base addr : Word) (n : Nat) :
    regAt base addr n = none ↔ n ≠ 4 ∨ (addr - base).toNat % 4 ≠ 0 ∨ 0x3C < (addr - base).toNat := by
  unfold regAt
  dsimp only
  split
  · rw [List.getElem?_eq_none_iff, show regList.length = 16 from rfl]
    omega
  · simp only [true_iff]
    omega

/-- An access that names no register is what BUS_ERR_POLICY says, whatever it does (R69). -/
theorem hostStmt_undefined {s : State} {addr : Word} {n : Nat} (h : regAt s.params.regBase addr n = none) (pc : Nat)
    (v : Word) :
    hostStmt (.busWrite addr n v) pc s = undefinedAccess s.params ∧
      hostStmt (.busRead addr n) pc s = undefinedAccess s.params := by
  simp [hostStmt, h]

/-- Settles O52: an access names the register at its offset in the window, and any other is the policy's. -/
theorem onlyAlignedWordAccessesNameARegister : Obligations.OnlyAlignedWordAccessesNameARegister := by
  unfold Obligations.OnlyAlignedWordAccessesNameARegister
  refine ⟨regAt_offset, regAt_eq_none_iff, fun addr n pc v s h => ?_⟩
  obtain ⟨hwrite, hread⟩ := hostStmt_undefined h pc v
  rw [hwrite, hread]
  constructor <;> intro hpolicy <;> simp [undefinedAccess, hpolicy]

/-! ### Reset values -/

/-- The reset values as the host reads them (R22, R43). -/
theorem regWord_reset (r : Reg) : regWord Regs.reset r = match r with
    | .resp => 0xFF
    | .tmoCmd => 500
    | .tmoToken => 100
    | .tmoBusy => 500
    | .blksize => 512
    | _ => 0 := by
  cases r <;> decide +kernel

/-- Settles O54: both resets give the same registers, read out once. -/
theorem resetValues : Obligations.ResetValues := by
  unfold Obligations.ResetValues
  refine ⟨fun g hg => ?_, rfl, rfl, fun s => ⟨rfl, rfl, rfl⟩⟩
  obtain rfl : g = Regs.reset := by
    obtain rfl | ⟨s, rfl⟩ := hg <;> rfl
  simp only [regWord_reset, and_self]

end Sys2Proof.Machine
end

section
/-! Where a step stops: the block's on a buffer access the memory does not admit, the host's on an access the spec does not
define or where no memory is, and no other step (20_memory.md R61, R69, 60_exceptions.md R243). -/

namespace Sys2Proof.Machine

/-! ### A legal word is the word of its operation -/

/-- NOCHK's flag stands at bit 20 (R90). -/
theorem getLsbD_nochkField (b : Bool) (k : Nat) : (nochkField b).getLsbD k = (b && decide (k = 20)) := by
  cases b with
  | false => simp [nochkField]
  | true =>
    rw [nochkField, if_pos rfl, show (0x00100000 : Word) = BitVec.twoPow 32 20 by decide, BitVec.getLsbD_twoPow]
    grind

/-- A bit that is not reserved belongs to OPC, IDX, RT or NOCHK (R90, R96). -/
theorem field_of_not_reserved : ∀ k < 32, reservedMask.getLsbD k = false →
    k < 4 ∨ (8 ≤ k ∧ k < 14) ∨ (16 ≤ k ∧ k < 19) ∨ k = 20 := by decide

/-- A word with no reserved bit set is its four fields side by side (R90). -/
theorem word_eq_fields {w : Word} (h : w &&& reservedMask = 0) :
    w = (opcOf w).setWidth 32 <<< 0 ||| idxField (idxOf w) ||| (rtOf w).setWidth 32 <<< 16
      ||| nochkField (nochkOf w) := by
  refine BitVec.eq_of_getLsbD_eq fun k hk => ?_
  have hres : (w.getLsbD k && reservedMask.getLsbD k) = false := by rw [← BitVec.getLsbD_and, h]; simp
  simp only [idxField, BitVec.getLsbD_or, getLsbD_field, getLsbD_nochkField, opcOf, idxOf, rtOf, nochkOf,
    BitVec.getLsbD_extractLsb']
  cases hw : w.getLsbD k with
  | false => grind
  | true =>
    have := field_of_not_reserved k hk (by simpa [hw] using hres)
    grind

/-- A code that names a class is its code (R92). -/
theorem RespType.code_of_ofCode {c : BitVec 3} {rt : RespType} (h : RespType.ofCode c.toNat = some rt) :
    c = rt.code := by
  revert c rt
  decide

/-- SEND_CMD's word has opcode 1 and its three operands (R90, R99). -/
theorem encode_sendInstr (rt : RespType) (idx : BitVec 6) (nochk : Bool) :
    encode (sendInstr rt idx nochk) = sendWord rt idx nochk := by cases rt <;> rfl

/-- A plain operation's word is its opcode (R92, R93). -/
theorem encode_of_plainOp {w : Word} {i j : Instr} (hres : w &&& reservedMask = 0) (h : plainOp w j = .op i)
    (hj : encode j = (opcOf w).setWidth 32) : encode i = w := by
  unfold plainOp at h
  split at h <;> simp only [Decoded.op.injEq, reduceCtorEq] at h
  obtain ⟨hidx, hrt, hnochk⟩ := ‹idxOf w = 0 ∧ rtOf w = 0 ∧ nochkOf w = false›
  rw [← h, hj]
  conv_rhs => rw [word_eq_fields hres, hidx, hrt, hnochk]
  simp [idxField, nochkField]

/-- A legal word is the word of the operation it decodes to (R95, R96). -/
theorem encode_of_decode {w : Word} {i : Instr} (h : decode w = .op i) : encode i = w := by
  unfold decode at h
  split at h
  · cases h
  have hres : w &&& reservedMask = 0 := not_not.mp ‹_›
  have hopc (n : Nat) (hn : (opcOf w).toNat = n) : opcOf w = BitVec.ofNat 4 n := by simp [← hn]
  split at h
  case h_1 hn =>
    split at h <;> cases h
    rename_i rt hrt
    rw [encode_sendInstr]
    conv_rhs => rw [word_eq_fields hres, hopc 1 hn, RespType.code_of_ofCode hrt]
    rfl
  case h_2 hn =>
    split at h <;> cases h
    obtain ⟨hrt, hnochk⟩ := ‹_›
    conv_rhs => rw [word_eq_fields hres, hopc 2 hn, hrt, hnochk]
    simp [idxField, nochkField, encode]
  case h_3 hn => exact encode_of_plainOp hres h (by rw [hopc _ hn]; rfl)
  case h_4 hn => exact encode_of_plainOp hres h (by rw [hopc _ hn]; rfl)
  case h_5 hn => exact encode_of_plainOp hres h (by rw [hopc _ hn]; rfl)
  case h_6 hn => exact encode_of_plainOp hres h (by rw [hopc _ hn]; rfl)
  case h_7 hn => exact encode_of_plainOp hres h (by rw [hopc _ hn]; rfl)
  · cases h

/-! ### Who moves -/

/-- Taking a turn off the schedule leaves the host agent. -/
theorem HostTurn.host {s u : State} (h : HostTurn s u) : u.host = s.host := by
  obtain ⟨-, -, rfl⟩ | ⟨ts, -, rfl⟩ := h <;> rfl

/-- Taking a turn off the schedule leaves the parameters. -/
theorem HostTurn.params {s u : State} (h : HostTurn s u) : u.params = s.params := by
  obtain ⟨-, -, rfl⟩ | ⟨ts, -, rfl⟩ := h <;> rfl

/-- Where the host moves, the step is its next statement (R98). -/
theorem step_of_hostStmt {s u : State} {st : HostStmt} (h : HostTurn s u) (hst : s.host.prog[s.host.pc]? = some st) :
    step s = hostStmt st s.host.pc u := by
  simp only [step_of_hostTurn h, hostStep, h.host, hst]

/-- Where the host moves the block does not (R246). -/
theorem HostTurn.not_blockTurn {s u : State} (h : HostTurn s u) : ¬ BlockTurn s := by
  rintro (⟨ht, hb⟩ | ⟨ts, ht⟩)
  · obtain ⟨-, hb', -⟩ | ⟨ts', ht', -⟩ := h
    · simp [hb] at hb'
    · simp [ht] at ht'
  · obtain ⟨ht', -⟩ | ⟨ts', ht', -⟩ := h <;> simp [ht] at ht'

/-- Where the host has no next statement, or not the turn, no statement stops the step. -/
theorem not_hostStops {s : State} (h : ∀ st, ¬ HostAt s st) : ¬ registerStop s ∧ ¬ unmappedStop s :=
  ⟨fun ⟨_, _, _, hst⟩ => hst.elim (h _) fun ⟨_, hw⟩ => h _ hw,
    fun ⟨_, _, hst⟩ => hst.elim (h _) fun ⟨_, hw⟩ => h _ hw⟩

/-! ### The block's step -/

/-- At a buffer access the memory does not admit, a step that is the memory's stop is the spec's (R61, R243). -/
theorem specStop_memStop {s : State} (h : bufferStop s) : specStop s (memStop s.params) := by
  unfold memStop
  cases hp : s.params.memErr with
  | stuck => exact ⟨h, hp⟩
  | other => exact ⟨h, hp⟩

/-- The access of the next event, where the memory does not admit it. -/
theorem exists_access_of_not_admitted {s : State} (h : ¬ accessAdmitted s) :
    ∃ a, (storeAddr s = some a ∨ loadAddr s = some a) ∧ admits s.params a = false := by
  simp only [accessAdmitted, not_and_or, not_forall, Bool.not_eq_true] at h
  obtain ⟨a, ha, hn⟩ | ⟨a, ha, hn⟩ := h
  · exact ⟨a, .inl ha, hn⟩
  · exact ⟨a, .inr ha, hn⟩

/-- An idle block makes no access. -/
theorem accessAdmitted_of_idle {s : State} (h : s.seq = .idle) : accessAdmitted s := by
  simp [accessAdmitted, storeAddr, loadAddr, h]

/-- A running operation's word is its own (R21, R23). -/
theorem State.Inv.at_of_run {s : State} {w : Word} {p : Pos} (h : s.Inv) (hs : s.seq = .run w p) :
    ∃ i, decode w = .op i ∧ s.At i p := by
  obtain ⟨-, i, hi, -⟩ := (seqOk_run hs).mp h.seq_ok
  exact ⟨i, hi, by rw [State.At, hs, encode_of_decode hi]⟩

/-- Under the invariant the sequencer has a next state where the access of its event is admitted (R21, R257). -/
theorem blockStep_answers {s : State} (h : s.Inv) (ha : accessAdmitted s) : ∃ t, blockStep s = .next t := by
  cases hs : s.seq with
  | idle => exact ⟨s, by simp only [blockStep, hs]⟩
  | run w p =>
    obtain ⟨i, hi, hat⟩ := h.at_of_run hs
    rw [blockStep_of_run hs hi, exec_at hat]
    exact codeOf_answers hat (h.posOk hat) ha

/-- Under the invariant the sequencer's step is the memory's stop where the access of its event is not admitted (R61). -/
theorem blockStep_stops {s : State} (h : s.Inv) (ha : ¬ accessAdmitted s) : blockStep s = memStop s.params := by
  cases hs : s.seq with
  | idle => exact absurd (accessAdmitted_of_idle hs) ha
  | run w p =>
    obtain ⟨i, hi, hat⟩ := h.at_of_run hs
    obtain ⟨a, haddr, hn⟩ := exists_access_of_not_admitted ha
    rw [blockStep_of_run hs hi, exec_at hat]
    exact codeOf_stops hat (h.posOk hat) haddr hn

/-- The schedule does not move the access of the next event. -/
theorem accessAdmitted_turns (s : State) (ts : List Turn) :
    accessAdmitted { s with turns := ts } ↔ accessAdmitted s := Iff.rfl

/-- The block's step stops exactly where its access is not admitted. -/
theorem BlockTurn.specStop {s : State} (hb : BlockTurn s) (h : s.Inv) : specStop s (step s) := by
  obtain ⟨ts, hstep⟩ := step_of_blockTurn hb
  rw [hstep]
  by_cases ha : accessAdmitted s
  · obtain ⟨t, ht⟩ := blockStep_answers (h.turns ts) ((accessAdmitted_turns s ts).mpr ha)
    rw [ht]
    exact ⟨fun hstop => hstop.2 ha, not_hostStops fun st ⟨⟨u, hu⟩, _⟩ => hu.not_blockTurn hb⟩
  · rw [blockStep_stops (h.turns ts) ha]
    exact specStop_memStop ⟨hb, ha⟩

/-! ### The host's step -/

/-- A word written to OP starts its operation, or ends at once (R240, R247). -/
theorem startOp_answers (w : Word) (s : State) : ∃ t, startOp w s = .next t := by
  unfold startOp
  split
  · rename_i i hi
    rw [exec_at (p := .start) (by rw [State.At, encode_of_decode hi, accept_seq])]
    exact codeOf_start_answers i _
  · exact ⟨_, rfl⟩

/-- A host write of a register always answers (R37, R38, R240). -/
theorem hostWrite_answers (r : Reg) (v : Word) (s : State) : ∃ t, hostWrite r v s = .next t := by
  unfold hostWrite
  split
  · exact ⟨_, rfl⟩
  · split
    · exact startOp_answers v s
    · exact ⟨_, rfl⟩

/-- A register access the spec does not define is the policy's stop (R69). -/
theorem specStop_undefinedAccess {s : State} (h : registerStop s) : specStop s (undefinedAccess s.params) := by
  unfold undefinedAccess
  cases hp : s.params.busErr with
  | refuse => exact ⟨h, hp⟩
  | busError => exact ⟨h, hp⟩

/-- The statement is a register access that names no register of the window (R69). -/
def UndefinedStmt (p : Params) : HostStmt → Prop
  | .busRead a n => regAt p.regBase a n = none
  | .busWrite a n _ => regAt p.regBase a n = none
  | _ => False

/-- The statement is a buffer access where no memory is (R61). -/
def UnmappedStmt (p : Params) : HostStmt → Prop
  | .bufRead a => admits p a = false
  | .bufWrite a _ => admits p a = false
  | _ => False

/-- The host's next statement is one. -/
theorem HostAt.unique {s : State} {st st' : HostStmt} (h : HostAt s st) (h' : HostAt s st') : st = st' :=
  Option.some.inj (h.2.symm.trans h'.2)

/-- The host's turn stops on a register access exactly where its statement makes an undefined one (R69). -/
theorem HostAt.registerStop_iff {s : State} {st : HostStmt} (h : HostAt s st) :
    registerStop s ↔ UndefinedStmt s.params st := by
  constructor
  · rintro ⟨a, n, hnone, hr | ⟨v, hw⟩⟩
    · obtain rfl := h.unique hr
      exact hnone
    · obtain rfl := h.unique hw
      exact hnone
  · intro hu
    cases st with
    | busRead a n => exact ⟨a, n, hu, .inl h⟩
    | busWrite a n v => exact ⟨a, n, hu, .inr ⟨v, h⟩⟩
    | _ => exact hu.elim

/-- The host's turn stops on a buffer access exactly where its statement makes one without memory (R61). -/
theorem HostAt.unmappedStop_iff {s : State} {st : HostStmt} (h : HostAt s st) :
    unmappedStop s ↔ UnmappedStmt s.params st := by
  constructor
  · rintro ⟨a, hnone, hr | ⟨v, hw⟩⟩
    · obtain rfl := h.unique hr
      exact hnone
    · obtain rfl := h.unique hw
      exact hnone
  · intro hu
    cases st with
    | bufRead a => exact ⟨a, hu, .inl h⟩
    | bufWrite a v => exact ⟨a, hu, .inr ⟨v, h⟩⟩
    | _ => exact hu.elim

/-- A statement with an undefined register access is what BUS_ERR_POLICY says (R69). -/
theorem hostStmt_of_undefined {s : State} {st : HostStmt} (h : UndefinedStmt s.params st) (pc : Nat) :
    hostStmt st pc s = undefinedAccess s.params := by
  cases st with
  | busRead a n => exact (hostStmt_undefined h pc 0).2
  | busWrite a n v => exact (hostStmt_undefined h pc v).1
  | _ => exact h.elim

/-- A statement with a buffer access where no memory is, is refused (R61). -/
theorem hostStmt_of_unmapped {s : State} {st : HostStmt} (h : UnmappedStmt s.params st) (pc : Nat) :
    hostStmt st pc s = .refused .hostBufferUnmapped := by
  cases st with
  | bufRead a => simp [hostStmt, show admits s.params a = false from h]
  | bufWrite a v => simp [hostStmt, show admits s.params a = false from h]
  | _ => exact h.elim

/-- Every other statement answers (R98, R104). -/
theorem hostStmt_answers {s : State} {st : HostStmt} (hreg : ¬ UndefinedStmt s.params st)
    (hmem : ¬ UnmappedStmt s.params st) (pc : Nat) : ∃ t, hostStmt st pc s = .next t := by
  cases st with
  | w r v => exact hostWrite_answers r v _
  | busWrite a n v =>
    obtain ⟨r, hr⟩ := Option.ne_none_iff_exists'.mp hreg
    simp only [hostStmt, hr]
    exact hostWrite_answers r v _
  | busRead a n =>
    obtain ⟨r, hr⟩ := Option.ne_none_iff_exists'.mp hreg
    simp only [hostStmt, hr]
    exact ⟨_, rfl⟩
  | bufWrite a v =>
    have ha : admits s.params a = true := Bool.not_eq_false _ ▸ hmem
    simp only [hostStmt, ha, if_true]
    exact ⟨_, rfl⟩
  | bufRead a =>
    have ha : admits s.params a = true := Bool.not_eq_false _ ▸ hmem
    simp only [hostStmt, ha, if_true]
    exact ⟨_, rfl⟩
  | _ => exact ⟨_, rfl⟩

/-- The host's step stops exactly on an undefined register access or a buffer access where no memory is. -/
theorem HostTurn.specStop {s u : State} (hu : HostTurn s u) : specStop s (step s) := by
  have hblock : ¬ bufferStop s := fun hb => hu.not_blockTurn hb.1
  cases hst : s.host.prog[s.host.pc]? with
  | none =>
    simp only [step_of_hostTurn hu, hostStep, hu.host, hst]
    exact ⟨hblock, not_hostStops fun st hat => nomatch hst.symm.trans hat.2⟩
  | some st =>
    have hat : HostAt s st := ⟨⟨u, hu⟩, hst⟩
    rw [step_of_hostStmt hu hst]
    by_cases hreg : UndefinedStmt s.params st
    · rw [hostStmt_of_undefined (hu.params ▸ hreg), hu.params]
      exact specStop_undefinedAccess (hat.registerStop_iff.mpr hreg)
    by_cases hmem : UnmappedStmt s.params st
    · rw [hostStmt_of_unmapped (hu.params ▸ hmem)]
      exact hat.unmappedStop_iff.mpr hmem
    obtain ⟨t, ht⟩ := hostStmt_answers (hu.params ▸ hreg) (hu.params ▸ hmem) s.host.pc
    rw [ht]
    exact ⟨hblock, mt hat.registerStop_iff.mp hreg, mt hat.unmappedStop_iff.mp hmem⟩

/-! ### Every step -/

/-- In a reset turn nobody else moves (R270). -/
theorem not_turn_of_reset {s : State} {ts : List Turn} (h : s.turns = .reset :: ts) :
    (¬ ∃ u, HostTurn s u) ∧ ¬ BlockTurn s := by
  simp [HostTurn, BlockTurn, h]

/-- Settles O59: in a reset turn nothing stops; the block's step stops on a buffer access the memory does not admit, and the
host's on its own statement's access, since every other statement and every other point of an operation answers. -/
theorem safeStepsStopOnlyWhereTheSpecDoes : Obligations.SafeStepsStopOnlyWhereTheSpecDoes := by
  unfold Obligations.SafeStepsStopOnlyWhereTheSpecDoes
  intro s h
  obtain ⟨u, hu⟩ | hblock | ⟨ts, hts⟩ := turn_cases s
  · exact hu.specStop
  · exact hblock.specStop h
  · obtain ⟨hhost, hblock⟩ := not_turn_of_reset hts
    simp only [step, hts, turnStep]
    exact ⟨fun hstop => hblock hstop.1, not_hostStops fun st hst => hhost hst.1⟩

end Sys2Proof.Machine
end

section
/-! What an operation does to buffer memory: the byte a read packet stores, in each of its forms, and the rest of memory
(20_memory.md R61, R66, 42_data_tokens.md R172, 43_stream_sequencer.md R204). -/

namespace Sys2Proof.Machine

/-! ### The forms of a read packet -/

/-- The three places a read packet runs in: READ_DATA, the single block of READ_BLOCKS and its block `k` (R180, R205). -/
inductive ReadForm where
  | data
  | single
  | block (k : Nat)

/-- The operation of a form. -/
def ReadForm.instr : ReadForm → Instr
  | .data => .readData
  | .single => .readBlocks
  | .block _ => .readBlocks

/-- A point of the packet as a point of its operation. -/
def ReadForm.pos : ReadForm → ReadPos → Pos
  | .data, q => .readData q
  | .single, q => .readBlocks (.single q)
  | .block k, q => .readBlocks (.block k q)

/-- The payload bytes of the packet (R180, R205). -/
def ReadForm.len (g : Regs) : ReadForm → Nat
  | .data => g.count.toNat
  | .single => blockSize
  | .block _ => blockSize

/-- Where the packet's payload goes (R34, R66, R204). -/
def ReadForm.base (g : Regs) : ReadForm → Word
  | .data => g.bufaddr
  | .single => g.bufaddr
  | .block k => blockBase g.bufaddr k

/-- One event of the packet, as its operation runs it. -/
def ReadForm.packetStep (f : ReadForm) (q : ReadPos) (s : State) : Out (Progress ReadPos Cause × State) :=
  readPacketStep (f.len s.regs) (f.base s.regs) s.regs.tmoToken q s

/-- The operation goes on with its packet (R172). -/
theorem ReadForm.exec_more {f : ReadForm} {q q' : ReadPos} {s u : State} (hat : s.At f.instr (f.pos q))
    (h : f.packetStep q s = .next (.more q', u)) : exec f.instr s = .next (goto (f.pos q') u) := by
  rw [exec_at hat]
  unfold ReadForm.packetStep at h
  cases f with
  | data =>
    simp only [ReadForm.len, ReadForm.base] at h
    simp only [ReadForm.instr, ReadForm.pos, codeOf, readDataAt, h, onNext_next]
  | single =>
    simp only [ReadForm.len, ReadForm.base] at h
    simp only [ReadForm.instr, ReadForm.pos, codeOf, readBlocksAt, readBlocksStep, h, onNext_next]
  | block k =>
    simp only [ReadForm.len, ReadForm.base] at h
    simp only [ReadForm.instr, ReadForm.pos, codeOf, readBlocksAt, readBlocksStep, h, onNext_next]

/-- The event that stores a payload byte (R172). -/
theorem ReadForm.packetStep_store {f : ReadForm} {j : Nat} {s : State} (b : Byte)
    (h : admits s.params (byteAddr (f.base s.regs) j) = true) :
    f.packetStep (.store j b) s = .next (.more (recvFrom (f.len s.regs) (j + 1)),
      { s with mem := Memory.write s.mem (byteAddr (f.base s.regs) j).toNat b,
               trace := s.trace ++ [.memWrite (byteAddr (f.base s.regs) j) b] }) := by
  simp only [ReadForm.packetStep, readPacketStep, memWrite_of_admits b h, onNext_next]

/-- The next payload byte of a block, or the CRC bytes after the last (R172). -/
theorem recvFrom_blockSize {j : Nat} (h : j < 512) :
    recvFrom blockSize (j + 1) = if j = 511 then .crc1 else .recv (j + 1) := by
  by_cases hlast : j = 511
  · simp [recvFrom, blockSize, hlast]
  · rw [recvFrom, if_pos (by unfold blockSize; omega), if_neg hlast]

/-- A step from `s` to `t` has stored byte `b` at `a`, recorded it, and changed no other byte of memory. -/
def Stored (s t : State) (a : Word) (b : Byte) : Prop :=
  t.trace = s.trace ++ [.memWrite a b] ∧ Memory.read t.mem a.toNat = b ∧
    ∀ x, x ≠ a.toNat → Memory.read t.mem x = Memory.read s.mem x

/-- The step that stores a payload byte, in every form (R172). -/
theorem ReadForm.exec_store {f : ReadForm} {j : Nat} {b : Byte} {s : State} {a : Word} (hm : Memory.wf s.mem = true)
    (ha : a = byteAddr (f.base s.regs) j) (hadm : admits s.params a = true) (hat : s.At f.instr (f.pos (.store j b))) :
    ∃ t, exec f.instr s = .next t ∧ Stored s t a b ∧ t.At f.instr (f.pos (recvFrom (f.len s.regs) (j + 1))) := by
  subst ha
  refine ⟨_, ReadForm.exec_more hat (ReadForm.packetStep_store b hadm), ⟨?_, ?_, fun x hx => ?_⟩, goto_seq _ _ _ _ hat⟩
  · rw [goto_trace]
  · rw [goto_mem]
    exact Memory.read_write_of_wf _ b hm
  · rw [goto_mem]
    exact Memory.read_write_other s.mem _ b hx

/-- Settles O34: the three forms differ in the packet's length and base alone. -/
theorem receivedByteIsStored : Obligations.ReceivedByteIsStored := by
  unfold Obligations.ReceivedByteIsStored
  intro s j b hm hj
  rw [← recvFrom_blockSize hj]
  refine ⟨fun a ha hadm _ hat => ?_, fun a ha hadm hat => ?_, fun k a ha hadm hat => ?_⟩
  · obtain ⟨t, hexec, ⟨htrace, hread, hother⟩, hpos⟩ := ReadForm.exec_store (f := .data) hm ha hadm hat
    exact ⟨t, hexec, htrace, hread, hother, hpos⟩
  · obtain ⟨t, hexec, ⟨htrace, hread, hother⟩, hpos⟩ := ReadForm.exec_store (f := .single) hm ha hadm hat
    exact ⟨t, hexec, htrace, hread, hother, hpos⟩
  · obtain ⟨t, hexec, ⟨htrace, hread, hother⟩, hpos⟩ := ReadForm.exec_store (f := .block k) hm ha hadm hat
    exact ⟨t, hexec, htrace, hread, hother, hpos⟩

/-! ### Every other byte -/

/-- Moving SEQ on, or ending the operation, leaves memory to the operation's code (R21, R244). -/
theorem Moved.mem {i : Instr} {p : Pos} {s t : State} (h : Moved i p s t) : ∃ u, Went i p s u ∧ t.mem = u.mem := by
  obtain ⟨u, hu, ⟨q, rfl⟩ | ⟨e, c, rfl⟩⟩ := h
  · exact ⟨u, hu, goto_mem q u⟩
  · exact ⟨u, hu, endOp_mem e c u⟩

/-- A step that stores nothing leaves memory (R61, R66). -/
theorem Moved.mem_of_no_store {i : Instr} {p : Pos} {s t : State} (h : Moved i p s t) (hst : storeAddr s = none) :
    t.mem = s.mem := by
  obtain ⟨u, hu, ht⟩ := h.mem
  obtain ⟨-, hmem⟩ | ⟨a, v, ha, -⟩ := hu.mem
  · exact ht.trans hmem
  · simp [hst] at ha

/-- A step leaves every byte but the one it stores (R66). -/
theorem Moved.read_other {i : Instr} {p : Pos} {s t : State} {a : Word} {x : Nat} (h : Moved i p s t)
    (hst : storeAddr s = some a) (hx : x ≠ a.toNat) : Memory.read t.mem x = Memory.read s.mem x := by
  obtain ⟨u, hu, ht⟩ := h.mem
  obtain ⟨hno, -⟩ | ⟨a', v, ha, -, hmem⟩ := hu.mem
  · simp [hno] at hst
  · obtain rfl : a = a' := Option.some.inj (hst.symm.trans ha)
    rw [ht, hmem]
    exact Memory.read_write_other s.mem _ v hx

/-- An idle block's next event, if any, stores nothing. -/
theorem storeAddr_of_idle {s : State} (h : s.seq = .idle) : storeAddr s = none := by simp [storeAddr, h]

/-- Settles O47: an idle block's step records no event, and a running one's stores where `storeAddr` says or nowhere. -/
theorem operationsWriteOnlyTheirStoredByte : Obligations.OperationsWriteOnlyTheirStoredByte := by
  unfold Obligations.OperationsWriteOnlyTheirStoredByte
  intro i s t h
  obtain ⟨hidle, hmoved⟩ | ⟨p, -, hmoved⟩ := exec_moved h
  · have hst := storeAddr_of_idle hidle
    have hmem : t.mem = s.mem := hmoved.mem_of_no_store rfl
    refine ⟨fun a ha => ?_, fun _ x => ?_, fun _ _ x => ?_⟩
    · simp [hst] at ha
    · rw [hmem]
    · rw [hmem]
  · refine ⟨fun a ha x hx => hmoved.read_other ha hx, fun hst x => ?_, fun hdata hblocks x => ?_⟩
    · rw [hmoved.mem_of_no_store hst]
    · obtain ⟨u, hu, ht⟩ := hmoved.mem
      rw [ht, hu.reads hdata hblocks]

end Sys2Proof.Machine
end

section
/-! A read packet run from its token wait to its end, and a whole READ_DATA (42_data_tokens.md R170, R172, R173, R180). -/

namespace Sys2Proof.Machine

/-! ### A stretch of an operation's run -/

/-- Operation `i` goes from `s` to `t` in `n` steps, and still runs at `t`. -/
def StepsTo (i : Instr) (n : Nat) (s t : State) : Prop := ∀ m, runOp i (n + m) s = runOp i m t

/-- No step. -/
theorem StepsTo.refl (i : Instr) (s : State) : StepsTo i 0 s s := fun m => by rw [Nat.zero_add]

/-- Two stretches are one. -/
theorem StepsTo.trans {i : Instr} {k n : Nat} {s t u : State} (h : StepsTo i k s t) (h' : StepsTo i n t u) :
    StepsTo i (k + n) s u := fun m => by rw [Nat.add_assoc, h, h']

/-- One step that leaves the block busy. -/
theorem StepsTo.of_exec {i : Instr} {s t : State} (h : exec i s = .next t) (hb : t.regs.status.busy = true) :
    StepsTo i 1 s t := fun m => by simp [Nat.add_comm 1 m, runOp, h, hb]

/-- A stretch and the step that ends the operation. -/
theorem StepsTo.runOp_eq {i : Instr} {n : Nat} {s t u : State} {e : Err} {c : Cause} (h : StepsTo i n s t)
    (hend : exec i t = .next (endOp e c u)) : runOp i (n + 1) s = .next (endOp e c u) := by
  rw [h 1]
  simp [runOp, hend]

/-! ### Bytes stored one after the other -/

/-- Memory after bytes `j`, `j + 1`, ... of a payload at `base` are stored (R66, R172). -/
def storeBytes (base : Word) : Nat → List Byte → Memory → Memory
  | _, [], m => m
  | j, b :: bs, m => storeBytes base (j + 1) bs (Memory.write m (byteAddr base j).toNat b)

/-- Two bytes of a payload that is no longer than buffer space have two addresses (R61, R66). -/
theorem byteAddr_ne (base : Word) (j : Nat) {k : Nat} (hpos : 0 < k) (hk : k < 2 ^ 32) :
    (byteAddr base j).toNat ≠ (byteAddr base (j + k)).toNat := by
  simp only [byteAddr, BitVec.toNat_add, BitVec.toNat_ofNat]
  omega

/-- The other addresses keep their bytes. -/
theorem read_storeBytes_other (base : Word) {x : Nat} : ∀ (j : Nat) (bs : List Byte) (m : Memory),
    (∀ k < bs.length, x ≠ (byteAddr base (j + k)).toNat) → Memory.read (storeBytes base j bs m) x = Memory.read m x
  | _, [], _, _ => rfl
  | j, b :: bs, m, h => by
    have htail : ∀ k < bs.length, x ≠ (byteAddr base (j + 1 + k)).toNat := fun k hk => by
      rw [Nat.add_assoc, Nat.add_comm 1 k]
      exact h (k + 1) (by simpa using hk)
    rw [storeBytes, read_storeBytes_other base (j + 1) bs _ htail]
    exact Memory.read_write_other m _ b (h 0 (by simp))

/-- Each byte is read back from its address. -/
theorem read_storeBytes (base : Word) : ∀ (j : Nat) (bs : List Byte) (m : Memory), Memory.wf m = true →
    bs.length ≤ 2 ^ 32 → ∀ k, (hk : k < bs.length) →
      Memory.read (storeBytes base j bs m) (byteAddr base (j + k)).toNat = bs[k]
  | j, b :: bs, m, hm, hlen, 0, _ => by
    have hne : ∀ k < bs.length, (byteAddr base j).toNat ≠ (byteAddr base (j + 1 + k)).toNat := fun k hk => by
      rw [Nat.add_assoc]
      simp only [List.length_cons] at hlen
      exact byteAddr_ne base j (by omega) (by omega)
    rw [storeBytes, Nat.add_zero j, read_storeBytes_other base (j + 1) bs _ hne]
    exact Memory.read_write_of_wf _ b hm
  | j, b :: bs, m, hm, hlen, k + 1, hk => by
    simp only [List.length_cons] at hlen hk
    rw [storeBytes, ← Nat.add_assoc, Nat.add_right_comm]
    exact read_storeBytes base (j + 1) bs _ (Memory.wf_write _ b hm) (by omega) k (by omega)

/-! ### The packet -/

/-- In a packet that runs with the registers and parameters of `s₀`, `s` stands at point `q`, with memory `m` and with these
bytes and readings to come. -/
structure Reading (f : ReadForm) (s₀ : State) (q : ReadPos) (m : Memory) (card : List Byte) (clock : List Word)
    (s : State) : Prop where
  pos : s.At f.instr (f.pos q)
  regs : s.regs = s₀.regs
  params : s.params = s₀.params
  mem : s.mem = m
  card : s.inputs.card = card
  clock : s.inputs.clock = clock

/-- The packet goes from `s` in `n` steps to point `q`. -/
def ReadsTo (f : ReadForm) (s₀ : State) (n : Nat) (s : State) (q : ReadPos) (m : Memory) (card : List Byte)
    (clock : List Word) : Prop := ∃ t, StepsTo f.instr n s t ∧ Reading f s₀ q m card clock t

section
variable {f : ReadForm} {s₀ s u : State} {q q' : ReadPos} {m m' : Memory} {card card' : List Byte}
  {clock clock' : List Word}

/-- Two stretches of a packet are one. -/
theorem ReadsTo.trans {k n : Nat} (h : ReadsTo f s₀ k s q m card clock)
    (h' : ∀ t, Reading f s₀ q m card clock t → ReadsTo f s₀ n t q' m' card' clock') :
    ReadsTo f s₀ (k + n) s q' m' card' clock' := by
  obtain ⟨t, hst, ht⟩ := h
  obtain ⟨v, htv, hv⟩ := h' t ht
  exact ⟨v, hst.trans htv, hv⟩

/-- No step. -/
theorem Reading.refl (h : Reading f s₀ q m card clock s) : ReadsTo f s₀ 0 s q m card clock := ⟨s, .refl _ s, h⟩

/-- An exchange takes one byte. -/
theorem Reading.took {b : Byte} (h : Reading f s₀ q m (b :: card) clock s) (tx : Byte) :
    Reading f s₀ q m card clock (s.took tx b card) := ⟨h.pos, h.regs, h.params, h.mem, rfl, h.clock⟩

/-- A reading of the time input takes one. -/
theorem Reading.timed {t : Word} (h : Reading f s₀ q m card (t :: clock) s) :
    Reading f s₀ q m card clock (s.timed t clock) := ⟨h.pos, h.regs, h.params, h.mem, h.card, rfl⟩

variable (hb : s₀.regs.status.busy = true)
include hb

/-- One event of the packet that goes on: SEQ moves on from the state after the event (R21). -/
theorem ReadsTo.of_step (h : s.At f.instr (f.pos q)) (hstep : f.packetStep q s = .next (.more q', u))
    (hu : Reading f s₀ q m' card' clock' u) : ReadsTo f s₀ 1 s q' m' card' clock' := by
  refine ⟨_, .of_exec (ReadForm.exec_more h hstep) ?_, goto_seq _ _ _ _ hu.pos, ?_, ?_, ?_, ?_, ?_⟩
  · rw [goto_regs, hu.regs, hb]
  · rw [goto_regs, hu.regs]
  · rw [goto_params, hu.params]
  · rw [goto_mem, hu.mem]
  · rw [goto_inputs, hu.card]
  · rw [goto_inputs, hu.clock]

/-- The token wait reads its `t0` (R170). -/
theorem Reading.token_start {t0 : Word} (h : Reading f s₀ (.token .start) m card (t0 :: clock) s) :
    ReadsTo f s₀ 1 s (.token (.poll t0)) m card clock :=
  .of_step hb h.pos (by simp only [ReadForm.packetStep, readPacketStep, waitTokenStep, now_of_clock h.clock]) h.timed

/-- A filler byte leads to the deadline test (R170). -/
theorem Reading.token_filler {t0 : Word} (h : Reading f s₀ (.token (.poll t0)) m (0xFF :: card) clock s) :
    ReadsTo f s₀ 1 s (.token (.test t0)) m card clock :=
  .of_step hb h.pos (by simp only [ReadForm.packetStep, readPacketStep, waitTokenStep, xchg_of_card filler h.card]; rfl)
    (h.took filler)

/-- Before the deadline the token wait goes on (R170). -/
theorem Reading.token_test {t0 t : Word} (h : Reading f s₀ (.token (.test t0)) m card (t :: clock) s)
    (ht : deadlinePassed s₀.regs.tmoToken t0 t = false) : ReadsTo f s₀ 1 s (.token (.poll t0)) m card clock :=
  .of_step hb h.pos (by simp [ReadForm.packetStep, readPacketStep, waitTokenStep, now_of_clock h.clock, h.regs, ht]) h.timed

/-- Fillers received before the deadline keep the token wait where it is (R170). -/
theorem Reading.token_wait {t0 : Word} {wait : List Byte} {ts : List Word} (hlen : wait.length = ts.length)
    (hwait : ∀ b ∈ wait, b = 0xFF) (hts : ∀ t ∈ ts, deadlinePassed s₀.regs.tmoToken t0 t = false)
    (h : Reading f s₀ (.token (.poll t0)) m (wait ++ card) (ts ++ clock) s) :
    ReadsTo f s₀ (2 * wait.length) s (.token (.poll t0)) m card clock := by
  induction wait generalizing ts s with
  | nil =>
    obtain rfl := List.length_eq_zero_iff.mp hlen.symm
    exact h.refl
  | cons b wait ih =>
    obtain ⟨t, ts, rfl⟩ := List.exists_cons_of_length_eq_add_one hlen.symm
    obtain ⟨rfl, hfillers⟩ := List.forall_mem_cons.mp hwait
    obtain ⟨ht, hlater⟩ := List.forall_mem_cons.mp hts
    have hround := (h.token_filler hb).trans fun _ h => (h.token_test hb ht).trans fun _ h =>
      ih (Nat.succ.inj hlen) hfillers hlater h
    rwa [List.length_cons, show 2 * (wait.length + 1) = 1 + (1 + 2 * wait.length) by omega]

/-- The start token leads to the payload (R170, R172). -/
theorem Reading.token_found {t0 : Word} (h : Reading f s₀ (.token (.poll t0)) m (0xFE :: card) clock s) :
    ReadsTo f s₀ 1 s (recvFrom (f.len s₀.regs) 0) m card clock :=
  .of_step hb h.pos (by simp [ReadForm.packetStep, readPacketStep, waitTokenStep, xchg_of_card filler h.card, startToken,
    h.regs]) (h.took filler)

/-- A payload byte is received (R172). -/
theorem Reading.recv {j : Nat} {b : Byte} (h : Reading f s₀ (.recv j) m (b :: card) clock s) :
    ReadsTo f s₀ 1 s (.store j b) m card clock :=
  .of_step hb h.pos (by simp only [ReadForm.packetStep, readPacketStep, xchg_of_card filler h.card]) (h.took filler)

/-- A payload byte is stored (R172). -/
theorem Reading.store {j : Nat} {b : Byte} (h : Reading f s₀ (.store j b) m card clock s)
    (ha : admits s₀.params (byteAddr (f.base s₀.regs) j) = true) :
    ReadsTo f s₀ 1 s (recvFrom (f.len s₀.regs) (j + 1)) (Memory.write m (byteAddr (f.base s₀.regs) j).toNat b) card
      clock := by
  have hstep := ReadForm.packetStep_store b (h.params ▸ h.regs ▸ ha)
  rw [h.regs, h.mem] at hstep
  exact .of_step hb h.pos hstep ⟨h.pos, rfl, h.params, rfl, h.card, h.clock⟩

/-- The rest of the payload is received and stored byte by byte (R172). -/
theorem Reading.payload : ∀ {bs : List Byte} {j : Nat} {m : Memory} {s : State}, j + bs.length = f.len s₀.regs →
    (∀ k, j ≤ k → k < f.len s₀.regs → admits s₀.params (byteAddr (f.base s₀.regs) k) = true) →
    Reading f s₀ (recvFrom (f.len s₀.regs) j) m (bs ++ card) clock s →
      ReadsTo f s₀ (2 * bs.length) s .crc1 (storeBytes (f.base s₀.regs) j bs m) card clock
  | [], j, m, s, hlen, _, h => by
    rw [recvFrom, if_neg (by simp at hlen; omega)] at h
    exact h.refl
  | b :: bs, j, m, s, hlen, ha, h => by
    simp only [List.length_cons] at hlen
    rw [recvFrom, if_pos (by omega)] at h
    have hbyte := (h.recv hb).trans fun v hv => (hv.store hb (ha j (Nat.le_refl j) (by omega))).trans fun v hv =>
      Reading.payload (by omega) (fun k hk => ha k (by omega)) hv
    rwa [List.length_cons, storeBytes, show 2 * (bs.length + 1) = 1 + (1 + 2 * bs.length) by omega]

/-- The first CRC byte is dropped (R173). -/
theorem Reading.crc1 {c : Byte} (h : Reading f s₀ .crc1 m (c :: card) clock s) :
    ReadsTo f s₀ 1 s .crc2 m card clock :=
  .of_step hb h.pos (by simp only [ReadForm.packetStep, readPacketStep, xchg_of_card filler h.card]) (h.took filler)

/-- A packet from its token wait to its second CRC byte (R172). -/
theorem Reading.packet {wait payload : List Byte} {c : Byte} {t0 : Word} {ts : List Word}
    (h : Reading f s₀ (.token .start) m (wait ++ 0xFE :: (payload ++ c :: card)) (t0 :: (ts ++ clock)) s)
    (hlen : payload.length = f.len s₀.regs) (hwait : ∀ b ∈ wait, b = 0xFF) (hts : wait.length = ts.length)
    (hdead : ∀ t ∈ ts, deadlinePassed s₀.regs.tmoToken t0 t = false)
    (ha : ∀ j < payload.length, admits s₀.params (byteAddr (f.base s₀.regs) j) = true) :
    ReadsTo f s₀ (1 + (2 * wait.length + (1 + (2 * payload.length + 1)))) s .crc2
      (storeBytes (f.base s₀.regs) 0 payload m) card clock :=
  (h.token_start hb).trans fun _ h => (h.token_wait hb hts hwait hdead).trans fun _ h =>
    (h.token_found hb).trans fun _ h =>
      (h.payload hb (by omega) fun k _ hk => ha k (by omega)).trans fun _ h => h.crc1 hb

end

/-! ### READ_DATA -/

/-- A length in 1 to 512 is not BAD_LENGTH (R180). -/
theorem badLength_eq_false {g : Regs} (h1 : 1 ≤ g.count.toNat) (h512 : g.count.toNat ≤ 512) : badLength g = false := by
  simp only [badLength, Bool.or_eq_false_iff, beq_eq_false_iff_ne, decide_eq_false_iff_not]
  exact ⟨fun h0 => by simp [h0] at h1, by omega⟩

/-- A READ_DATA of a legal length starts its packet's token wait (R180). -/
theorem readData_starts {s : State} (hs : s.Idle) (h : badLength s.regs = false) :
    ∃ t, StepsTo .readData 1 s t ∧
      Reading .data (accept (encode .readData) s) (.token .start) s.mem s.inputs.card s.inputs.clock t := by
  have hexec : exec .readData s = .next (goto (.readData (.token .start)) (accept (encode .readData) s)) := by
    have hlen : badLength (accept (encode .readData) s).regs = false := h
    simp only [exec_idle hs.1, codeOf, readDataAt, hlen, Bool.false_eq_true, if_false]
  refine ⟨_, .of_exec hexec ?_, goto_seq _ _ _ _ rfl, ?_, ?_, ?_, ?_, ?_⟩
  all_goals simp only [goto_regs, goto_params, goto_mem, goto_inputs, accept_regs, accept_mem, accept_inputs]

/-- READ_DATA ends with its packet's second CRC byte (R180). -/
theorem Reading.readData_ends {s₀ s : State} {m : Memory} {b : Byte} {card : List Byte} {clock : List Word}
    (h : Reading .data s₀ .crc2 m (b :: card) clock s) :
    exec .readData s = .next (endOp .none .none (s.took filler b card)) := by
  have hat : s.At .readData (.readData .crc2) := h.pos
  rw [exec_at hat]
  simp only [codeOf, readDataAt, readPacketStep, onNext_next, xchg_of_card filler h.card]
  rfl

/-- Settles O30: the packet runs from its token wait to its second CRC byte, storing the payload byte by byte, and the bytes'
addresses are distinct. -/
theorem readDataStoresThePayload : Obligations.ReadDataStoresThePayload := by
  unfold Obligations.ReadDataStoresThePayload
  intro s wait payload card c1 c2 t0 ts clock hs hm hlen h1 h512 hwait hts hdead ha hcard hclock
  obtain ⟨t, hst, ht⟩ := readData_starts hs (badLength_eq_false (hlen ▸ h1) (hlen ▸ h512))
  simp only [hcard, hclock, List.append_assoc, List.cons_append, List.nil_append] at ht
  obtain ⟨v, htv, hv⟩ := ht.packet rfl hlen hwait hts hdead ha
  have hrun := (hst.trans htv).runOp_eq hv.readData_ends
  rw [show 1 + (1 + (2 * wait.length + (1 + (2 * payload.length + 1)))) + 1
    = 1 + 1 + 2 * wait.length + 1 + 2 * payload.length + 2 by omega] at hrun
  refine ⟨_, hrun, ⟨rfl, rfl, rfl, rfl, rfl⟩, rfl, fun j hj => ?_, fun a hne => ?_, ?_, ?_⟩
  · have hread := read_storeBytes s.regs.bufaddr 0 payload s.mem hm (by omega) j hj
    rw [Nat.zero_add] at hread
    rw [← hread, endOp_mem, State.took_mem, hv.mem]
    rfl
  · rw [endOp_mem, State.took_mem, hv.mem]
    exact read_storeBytes_other _ 0 payload s.mem fun k hk => by
      rw [Nat.zero_add]
      exact hne k hk
  · simp [sameResp, hv.regs]
  · simp [sameCrc, hv.regs]

end Sys2Proof.Machine
end

section
/-! The host's statements, one step each (30_encoding.md R98, R104, 20_memory.md R69, R75, 70_reset_and_hazards.md R281). -/

namespace Sys2Proof.Machine

/-! ### The host's turn -/

/-- Taking a turn off the schedule leaves the block and buffer memory. -/
theorem HostTurn.sameBlock {s u : State} (h : HostTurn s u) : sameBlock s u := by
  obtain ⟨-, -, rfl⟩ | ⟨ts, -, rfl⟩ := h <;> exact ⟨rfl, rfl, rfl, rfl⟩

/-- Taking a turn off the schedule leaves the inputs. -/
theorem HostTurn.inputs {s u : State} (h : HostTurn s u) : u.inputs = s.inputs := by
  obtain ⟨-, -, rfl⟩ | ⟨ts, -, rfl⟩ := h <;> rfl

/-- What leaves the block and memory may be done in turn. -/
theorem sameBlock.trans {s t u : State} (h : sameBlock s t) (h' : sameBlock t u) : sameBlock s u := by
  obtain ⟨hregs, hseq, htrace, hmem⟩ := h
  obtain ⟨hregs', hseq', htrace', hmem'⟩ := h'
  exact ⟨hregs'.trans hregs, hseq'.trans hseq, htrace'.trans htrace, hmem'.trans hmem⟩

/-! ### Reads -/

/-- The value a host read returns rests on the registers and the counter of free draws (R39, R71). -/
theorem hostRead_value_congr {r : Reg} {s u : State} (hregs : u.regs = s.regs) (hin : u.inputs = s.inputs) :
    (hostRead r u).1 = (hostRead r s).1 := by
  simp only [hostRead, hostLoad, hregs, hin]
  split <;> rfl

/-- On its turn the host reads what it would read in the state itself. -/
theorem HostTurn.hostRead_value {s u : State} (h : HostTurn s u) (r : Reg) : (hostRead r u).1 = (hostRead r s).1 :=
  hostRead_value_congr h.regs h.inputs

/-- A host read leaves the block and memory, whatever statement comes next (R71). -/
theorem HostTurn.sameBlock_hostRead {s u : State} (h : HostTurn s u) (r : Reg) (n : Nat) :
    Machine.sameBlock s (setPc n (hostRead r u).2) := h.sameBlock.trans (hostRead_sameBlock r u)

/-- Bit 0 of a read of STATUS is BUSY (R26). -/
theorem hostRead_status_busy (s : State) : (hostRead .status s).1.getLsbD 0 = s.regs.status.busy := by
  rw [hostRead, hostLoad_exact (.inr (by decide))]
  exact (statusWord_bits s.regs.status).1

/-- A statement that reads a register, by name or by platform address (R69, R98). -/
theorem readsReg.hostStmt_eq {s u : State} {st : HostStmt} {r : Reg} (h : readsReg s st r) (hp : u.params = s.params)
    (pc : Nat) : hostStmt st pc u = .next (setPc (pc + 1) (hostRead r u).2) := by
  obtain rfl | ⟨a, n, rfl, hr⟩ := h
  · rfl
  · simp only [hostStmt, hp, hr]

/-- A read of a register (R71, R98). -/
theorem step_reads {s u : State} {st : HostStmt} {r : Reg} (hu : HostTurn s u)
    (hst : s.host.prog[s.host.pc]? = some st) (h : readsReg s st r) :
    ∃ t, step s = .next t ∧ t.host.pc = s.host.pc + 1 ∧ t.host.last = (hostRead r s).1 ∧ sameBlock s t := by
  refine ⟨_, (step_of_hostStmt hu hst).trans (h.hostStmt_eq hu.params _), rfl, ?_, hu.sameBlock_hostRead r _⟩
  exact hu.hostRead_value r

/-- A branch reads its register once and goes on where the comparison says (R104). -/
theorem step_br {s u : State} {f : Field} {eq : Bool} {v : Word} {n : Nat} (hu : HostTurn s u)
    (hst : s.host.prog[s.host.pc]? = some (.br f eq v n)) :
    ∃ t, step s = .next t ∧
      t.host.pc = (if (fieldOf f (hostRead f.reg s).1 == v) == eq then n else s.host.pc + 1) ∧ sameBlock s t := by
  refine ⟨_, step_of_hostStmt hu hst, ?_, hu.sameBlock_hostRead f.reg _⟩
  simp only [setPc_host, hu.hostRead_value]

/-- WAITDONE stays while BUSY = 1 (R98). -/
theorem step_waitDone {s u : State} (hu : HostTurn s u) (hst : s.host.prog[s.host.pc]? = some .waitDone) :
    ∃ t, step s = .next t ∧ t.host.pc = (if s.regs.status.busy then s.host.pc else s.host.pc + 1) ∧ sameBlock s t := by
  refine ⟨_, step_of_hostStmt hu hst, ?_, hu.sameBlock_hostRead .status _⟩
  simp only [setPc_host, hostRead_status_busy, hu.regs]

/-! ### Writes -/

/-- A statement that writes a register, by name or by platform address (R69, R98). -/
theorem writesReg.hostStmt_eq {s u : State} {st : HostStmt} {r : Reg} {v : Word} (h : writesReg s st r v)
    (hp : u.params = s.params) (pc : Nat) : hostStmt st pc u = hostWrite r v (setPc (pc + 1) u) := by
  obtain rfl | ⟨a, n, rfl, hr⟩ := h
  · rfl
  · simp only [hostStmt, hp, hr]

/-- The registers as the host reads them after a store (R37). -/
theorem regWord_storeReg {q r : Reg} (v : Word) (g : Regs) (hr : r ≠ .op) :
    regWord (storeReg v g r) q =
      if q = r ∧ r ∈ [Reg.arg, .count, .tmoCmd, .tmoToken, .tmoBusy, .bufaddr] then v
      else if q = r ∧ r = .cfg then v &&& 0x3 else regWord g q := by
  by_cases hq : q = r
  · subst hq
    simp only [true_and]
    exact regWord_storeReg_same v g hr
  · simp only [hq, false_and, if_false]
    exact regWord_storeReg_other v g hq

section
variable {s u : State} {st : HostStmt} {r : Reg} {v : Word} (hu : HostTurn s u)
  (hst : s.host.prog[s.host.pc]? = some st) (h : writesReg s st r v)
include hu hst h

/-- The step of a register write. -/
theorem step_of_writesReg : step s = hostWrite r v (setPc (s.host.pc + 1) u) :=
  (step_of_hostStmt hu hst).trans (h.hostStmt_eq hu.params _)

/-- A write of OP on an idle block starts the operation (R240). -/
theorem step_writes_op (hr : r = .op) (hb : s.regs.status.busy = false) :
    step s = startOp v (setPc (s.host.pc + 1) u) := by
  rw [step_of_writesReg hu hst h]
  simp [hostWrite, hr, hu.regs, hb]

/-- A write of any other register on an idle block stores or is ignored (R37). -/
theorem step_writes_idle (hr : r ≠ .op) (hb : s.regs.status.busy = false) :
    ∃ t, step s = .next t ∧ t.host.pc = s.host.pc + 1 ∧ t.seq = s.seq ∧ t.trace = s.trace ∧ t.mem = s.mem ∧
      t.inputs = s.inputs ∧ t.regs = storeReg v s.regs r := by
  obtain ⟨hregs, hseq, htrace, hmem⟩ := hu.sameBlock
  have hb' : (setPc (s.host.pc + 1) u).regs.status.busy = false := by rw [setPc_regs, hregs, hb]
  exact ⟨_, (step_of_writesReg hu hst h).trans (hostWrite_of_idle v hb' hr), rfl, hseq, htrace, hmem, hu.inputs,
    by rw [hostStore_regs, setPc_regs, hregs]⟩

/-- A write on a busy block is ignored and sets OVR (R38). -/
theorem step_writes_busy (hb : s.regs.status.busy = true) :
    ∃ t, step s = .next t ∧ t.host.pc = s.host.pc + 1 ∧ t.seq = s.seq ∧ t.trace = s.trace ∧ t.mem = s.mem ∧
      t.inputs = s.inputs ∧ t.regs = { s.regs with status := { s.regs.status with ovr := true } } := by
  obtain ⟨hregs, hseq, htrace, hmem⟩ := hu.sameBlock
  have hb' : (setPc (s.host.pc + 1) u).regs.status.busy = true := by rw [setPc_regs, hregs, hb]
  exact ⟨_, (step_of_writesReg hu hst h).trans (hostWrite_of_busy r v hb'), rfl, hseq, htrace, hmem, hu.inputs,
    by rw [setOvr_regs, setPc_regs, hregs]⟩

end

/-! ### Buffer accesses -/

/-- A buffer byte rests on STATUS, SEQ, BUFADDR, COUNT, memory and the counter of free draws (R281). -/
theorem bufLoad_value (a : Word) (s : State) :
    (bufLoad a s).1 = if s.regs.status.busy = true ∧ usesByte s a = true then Config.racingByte s.inputs.drawn
      else Memory.read s.mem a.toNat := by
  simp only [bufLoad, Bool.and_eq_true]
  split <;> rfl

/-- Which bytes an operation uses rests on the registers and SEQ (R281). -/
theorem usesByte_congr {s u : State} (a : Word) (hregs : u.regs = s.regs) (hseq : u.seq = s.seq) :
    usesByte u a = usesByte s a := by simp only [usesByte, hregs, hseq]

/-- A host access to a buffer address where no memory is, is refused (R61). -/
theorem step_of_unmapped {s u : State} {st : HostStmt} (hu : HostTurn s u)
    (hst : s.host.prog[s.host.pc]? = some st) (h : UnmappedStmt s.params st) :
    step s = .refused .hostBufferUnmapped :=
  (step_of_hostStmt hu hst).trans (hostStmt_of_unmapped (hu.params ▸ h) _)

/-- A buffer write stores its one byte (R75, R281). -/
theorem step_bufWrite {s u : State} {a : Word} {v : Byte} (hu : HostTurn s u)
    (hst : s.host.prog[s.host.pc]? = some (.bufWrite a v)) (ha : admits s.params a = true) :
    ∃ t, step s = .next t ∧ t.host.pc = s.host.pc + 1 ∧ t.regs = s.regs ∧ t.seq = s.seq ∧ t.trace = s.trace ∧
      t.inputs = s.inputs ∧ t.mem = Memory.write s.mem a.toNat v := by
  obtain ⟨hregs, hseq, htrace, hmem⟩ := hu.sameBlock
  rw [step_of_hostStmt hu hst]
  simp only [hostStmt, hu.params, ha, if_true]
  exact ⟨_, rfl, rfl, hregs, hseq, htrace, hu.inputs, by rw [setPc_mem, hmem]⟩

/-- A buffer read gives the byte, or a free value where it races (R281). -/
theorem step_bufRead {s u : State} {a : Word} (hu : HostTurn s u)
    (hst : s.host.prog[s.host.pc]? = some (.bufRead a)) (ha : admits s.params a = true) :
    ∃ t, step s = .next t ∧ t.host.pc = s.host.pc + 1 ∧ sameBlock s t ∧
      t.host.last = (if s.regs.status.busy = true ∧ usesByte s a = true then Config.racingByte s.inputs.drawn
        else Memory.read s.mem a.toNat).setWidth 32 := by
  obtain ⟨hregs, hseq, htrace, hmem⟩ := hu.sameBlock
  rw [step_of_hostStmt hu hst]
  simp only [hostStmt, hu.params, ha, if_true]
  refine ⟨_, rfl, rfl, hu.sameBlock.trans (by simp [Machine.sameBlock]), ?_⟩
  simp only [setPc_host, setLast_host, bufLoad_value, hregs, hmem, hu.inputs, usesByte_congr a hregs hseq]

/-- The bytes of the buffer an operation uses (R281). -/
theorem usesByte_iff {s : State} {w a : Word} {p : Pos} {i : Instr} (hs : s.seq = .run w p) (hi : decode w = .op i) :
    usesByte s a = true ↔
      (i = .readData ∧ (a - s.regs.bufaddr).toNat < s.regs.count.toNat) ∨
      ((i = .readBlocks ∨ i = .writeBlocks) ∧ (a - s.regs.bufaddr).toNat < 512 * s.regs.count.toNat) := by
  have huses : usesByte s a = true ↔ (a - s.regs.bufaddr).toNat < bufferBytes s.regs i := by
    simp only [usesByte, hs, hi, decide_eq_true_eq]
  rw [huses]
  cases i with
  | readData => simp [bufferBytes]
  | readBlocks => simp [bufferBytes, blockSize]
  | writeBlocks => simp [bufferBytes, blockSize]
  | _ => simp [bufferBytes]

/-! ### The parameters and the program -/

/-- The parameters and the host's program are as they were. -/
def SameSetup (s t : State) : Prop := t.params = s.params ∧ t.host.prog = s.host.prog

/-- A step of an operation leaves the parameters and the host. -/
theorem exec_setup {i : Instr} {s t : State} (h : exec i s = .next t) : SameSetup s t := by
  obtain ⟨-, hm⟩ | ⟨p, -, hm⟩ := exec_moved h
  · exact ⟨hm.frame.params, congrArg HostAgent.prog hm.frame.host⟩
  · exact ⟨hm.frame.params, congrArg HostAgent.prog hm.frame.host⟩

/-- An accepted word's first step leaves them (R240, R247). -/
theorem startOp_setup {w : Word} {s t : State} (h : startOp w s = .next t) : SameSetup s t := by
  unfold startOp at h
  split at h
  · exact exec_setup (s := accept w s) h
  · cases h
    exact ⟨rfl, rfl⟩

/-- A register write leaves them. -/
theorem hostWrite_setup {r : Reg} {v : Word} {s t : State} (h : hostWrite r v s = .next t) : SameSetup s t := by
  unfold hostWrite at h
  split at h
  · cases h
    exact ⟨rfl, rfl⟩
  · split at h
    · exact startOp_setup h
    · cases h
      exact ⟨rfl, rfl⟩

/-- A register read leaves them. -/
theorem hostRead_setup (r : Reg) (n : Nat) (s : State) : SameSetup s (setPc n (hostRead r s).2) := by
  simp [SameSetup, hostRead]

/-- A host statement leaves them: it moves `pc` and `last` of the host's fields alone. -/
theorem hostStmt_setup {st : HostStmt} {pc : Nat} {s t : State} (h : hostStmt st pc s = .next t) : SameSetup s t := by
  cases st with
  | w r v => exact hostWrite_setup (s := setPc (pc + 1) s) h
  | r r => cases h; exact hostRead_setup r _ s
  | waitDone => cases h; exact hostRead_setup .status _ s
  | goto n => cases h; exact ⟨rfl, rfl⟩
  | br f eq v n => cases h; exact hostRead_setup f.reg _ s
  | halt => cases h; exact ⟨rfl, rfl⟩
  | busWrite a n v =>
    simp only [hostStmt] at h
    split at h
    · exact hostWrite_setup (s := setPc (pc + 1) s) h
    · exact absurd h (undefinedAccess_not_next _ _)
  | busRead a n =>
    simp only [hostStmt] at h
    split at h
    · cases h; exact hostRead_setup _ _ s
    · exact absurd h (undefinedAccess_not_next _ _)
  | bufWrite a v =>
    simp only [hostStmt] at h
    split at h <;> cases h
    exact ⟨rfl, rfl⟩
  | bufRead a =>
    simp only [hostStmt] at h
    split at h <;> cases h
    simp [SameSetup]

/-- The host agent's step leaves them. -/
theorem hostStep_setup {s t : State} (h : hostStep s = .next t) : SameSetup s t := by
  unfold hostStep at h
  split at h
  · exact hostStmt_setup h
  · cases h
    exact ⟨rfl, rfl⟩

/-- The sequencer's step leaves them. -/
theorem blockStep_setup {s t : State} (h : blockStep s = .next t) : SameSetup s t := by
  unfold blockStep at h
  split at h
  · cases h
    exact ⟨rfl, rfl⟩
  · split at h
    · exact exec_setup h
    · cases h

/-- Every step leaves them (R8, R98). -/
theorem step_setup {s t : State} (h : step s = .next t) : SameSetup s t := by
  obtain ⟨u, hu⟩ | hblock | ⟨ts, hts⟩ := turn_cases s
  · rw [step_of_hostTurn hu] at h
    obtain ⟨hparams, hprog⟩ := hostStep_setup h
    exact ⟨hparams.trans hu.params, hprog.trans (by rw [hu.host])⟩
  · obtain ⟨ts, hstep⟩ := step_of_blockTurn hblock
    rw [hstep] at h
    exact blockStep_setup (s := { s with turns := ts }) h
  · simp only [step, hts, turnStep] at h
    cases h
    exact ⟨rfl, rfl⟩

/-! ### Every statement -/

/-- Settles O60: the host's turn is its next statement on the state itself but for the schedule; one lemma for each kind of
statement, and for what no step changes. -/
theorem hostStatementsMoveTheHost : Obligations.HostStatementsMoveTheHost := by
  unfold Obligations.HostStatementsMoveTheHost
  refine ⟨fun s u st hu hst =>
      ⟨fun r v hw => ⟨?_, ?_, ?_⟩, fun r hr => step_reads hu hst hr, ?_, ?_, ?_, ?_, ?_, ?_, ?_⟩,
    fun s w a p i hs hi => usesByte_iff hs hi, fun s t h => step_setup h⟩
  · exact step_writes_op hu hst hw
  · intro hr hb
    obtain ⟨t, hstep, hpc, hseq, htrace, hmem, hin, hregs⟩ := step_writes_idle hu hst hw hr hb
    exact ⟨t, hstep, hpc, hseq, htrace, hmem, hin, fun q => by rw [hregs, regWord_storeReg v s.regs hr]⟩
  · exact step_writes_busy hu hst hw
  · rintro f v n rfl
    obtain ⟨t, hstep, hpc, hsame⟩ := step_br hu hst
    exact ⟨t, hstep, by simpa using hpc, hsame⟩
  · rintro f v n rfl
    obtain ⟨t, hstep, hpc, hsame⟩ := step_br hu hst
    exact ⟨t, hstep, by simpa using hpc, hsame⟩
  · rintro rfl
    exact step_waitDone hu hst
  · rintro n rfl
    exact step_of_hostStmt hu hst
  · rintro rfl
    exact step_of_hostStmt hu hst
  · rintro a v rfl
    refine ⟨fun ha => ?_, fun ha => step_of_unmapped hu hst ha⟩
    obtain ⟨t, hstep, hpc, hregs, hseq, htrace, hin, hmem⟩ := step_bufWrite hu hst ha
    refine ⟨t, hstep, hpc, hregs, hseq, htrace, hin, fun hwf => ?_, fun x hx => ?_⟩
    · rw [hmem, Memory.read_write_of_wf _ v hwf]
    · rw [hmem, Memory.read_write_other s.mem _ v hx]
  · rintro a rfl
    exact ⟨fun ha => step_bufRead hu hst ha, fun ha => step_of_unmapped hu hst ha⟩

end Sys2Proof.Machine
end

section
/-! The operation word and the command frame: the rows of the table and the words they match, the fields of the 48-bit
frame, and SEND_CMD up to the answer of its probe (30_encoding.md R80, R81, R90 to R96, 41_command_framer.md R134, R140). -/

namespace Sys2Proof.Machine

/-! ### Decoding and encoding -/

/-- Settles O2: the decoder undoes the encoder, and a legal word is its four fields put together again. -/
theorem decodeAndEncodeAgree : Obligations.DecodeAndEncodeAgree := by
  unfold Obligations.DecodeAndEncodeAgree
  exact ⟨decode_encode, fun _ _ => encode_of_decode⟩

/-- Settles O1: each word written out is the word of its operation. -/
theorem writtenWordsDecode : Obligations.WrittenWordsDecode := by
  unfold Obligations.WrittenWordsDecode
  exact ⟨decode_encode (.sendCmdR1 12 true), decode_encode (.sendCmdR1b 63 false), decode_encode (.sendCmdR2 13 false),
    decode_encode (.sendCmdR3 58 false), decode_encode (.sendCmdR7 8 true), decode_encode (.crc7 33),
    decode_encode .waitReady, decode_encode .fill, decode_encode .readData, decode_encode .readBlocks,
    decode_encode .writeBlocks⟩

/-! ### The rows of the table -/

/-- The word of every operation stands in the operation's row (R95). -/
theorem encode_in_row (i : Instr) : Laws.TableRow.Statement i := by
  cases i with
  | sendCmdR1 idx nochk => exact Laws.TableRow.sendCmdR1 idx nochk
  | sendCmdR1b idx nochk => exact Laws.TableRow.sendCmdR1b idx nochk
  | sendCmdR2 idx nochk => exact Laws.TableRow.sendCmdR2 idx nochk
  | sendCmdR3 idx nochk => exact Laws.TableRow.sendCmdR3 idx nochk
  | sendCmdR7 idx nochk => exact Laws.TableRow.sendCmdR7 idx nochk
  | crc7 idx => exact Laws.TableRow.crc7 idx
  | waitReady => exact Laws.TableRow.waitReady
  | fill => exact Laws.TableRow.fill
  | readData => exact Laws.TableRow.readData
  | readBlocks => exact Laws.TableRow.readBlocks
  | writeBlocks => exact Laws.TableRow.writeBlocks

/-- A legal word matches the row of the operation it decodes to (R94, R95). -/
theorem row_of_decode {w : Word} {i : Instr} (h : decode w = .op i) :
    rowOf i ∈ opTable ∧ (rowOf i).matchesWord w = true := by
  obtain ⟨hmem, hmatch, -⟩ := encode_in_row i
  exact ⟨hmem, encode_of_decode h ▸ hmatch⟩

/-- A word that matches under a mask has the match's bits in every field the mask covers. -/
theorem extractLsb'_of_masked {w m v : Word} {lo len : Nat} (h : w &&& m = v)
    (hm : m.extractLsb' lo len = BitVec.allOnes len) : w.extractLsb' lo len = v.extractLsb' lo len := by
  rw [← h, BitVec.extractLsb'_and, hm, BitVec.and_allOnes]

/-- It has the match's reserved bits when the mask covers them. -/
theorem and_reservedMask_of_masked {w m v : Word} (h : w &&& m = v) (hm : m &&& reservedMask = reservedMask) :
    w &&& reservedMask = v &&& reservedMask := by
  rw [← h, BitVec.and_assoc, hm]

/-- A word of a SEND_CMD row is a SEND_CMD of the row's class, with any index and NOCHK (R95). -/
theorem decode_of_sendRow {w : Word} {rt : RespType} (h : w &&& 0xFFEFC0FF = sendWord rt 0 false) :
    decode w = .op (sendInstr rt (idxOf w) (nochkOf w)) := by
  have hopc : opcOf w = 1 := (extractLsb'_of_masked h (by decide +kernel)).trans (by cases rt <;> decide +kernel)
  have hrt : rtOf w = rt.code := (extractLsb'_of_masked h (by decide +kernel)).trans (by cases rt <;> decide +kernel)
  have hres : w &&& reservedMask = 0 :=
    (and_reservedMask_of_masked h (by decide +kernel)).trans (by cases rt <;> decide +kernel)
  have hw : w = sendWord rt (idxOf w) (nochkOf w) := by
    conv_lhs => rw [word_eq_fields hres, hopc, hrt]
    rfl
  exact (congrArg decode hw).trans (decode_sendWord ..)

/-- A word of the CRC7 row is a CRC7 with any index (R95). -/
theorem decode_of_crc7Row {w : Word} (h : w &&& 0xFFFFC0FF = 0x2) : decode w = .op (.crc7 (idxOf w)) := by
  have hopc : opcOf w = 2 := extractLsb'_of_masked h (by decide +kernel)
  have hrt : rtOf w = 0 := extractLsb'_of_masked h (by decide +kernel)
  have hres : w &&& reservedMask = 0 := and_reservedMask_of_masked h (by decide +kernel)
  have hnochk : nochkOf w = false := by
    have hbit := congrArg (fun v => BitVec.getLsbD v 20) h
    simpa [nochkOf] using hbit
  simp [decode, hres, hopc, hrt, hnochk]

/-- The three kinds of rows: SEND_CMD leaves IDX and NOCHK free, CRC7 leaves IDX free, every other row is one word (R95). -/
theorem opTable_cases {r : OpRow} (hr : r ∈ opTable) :
    (∃ rt, r.word = sendWord rt 0 false ∧ r.mask = 0xFFEFC0FF) ∨ (r.word = 0x2 ∧ r.mask = 0xFFFFC0FF) ∨
      ∃ i, r.word = encode i ∧ r.mask = BitVec.allOnes 32 := by
  fin_cases hr
  · exact .inl ⟨.r1, rfl, rfl⟩
  · exact .inl ⟨.r1b, rfl, rfl⟩
  · exact .inl ⟨.r2, rfl, rfl⟩
  · exact .inl ⟨.r3, rfl, rfl⟩
  · exact .inl ⟨.r7, rfl, rfl⟩
  · exact .inr (.inl ⟨rfl, rfl⟩)
  · exact .inr (.inr ⟨.waitReady, rfl, rfl⟩)
  · exact .inr (.inr ⟨.fill, rfl, rfl⟩)
  · exact .inr (.inr ⟨.readData, rfl, rfl⟩)
  · exact .inr (.inr ⟨.readBlocks, rfl, rfl⟩)
  · exact .inr (.inr ⟨.writeBlocks, rfl, rfl⟩)

/-- A word matches a row when its bits under the mask are the row's (R95). -/
theorem OpRow.matchesWord_iff {r : OpRow} {w : Word} : r.matchesWord w = true ↔ w &&& r.mask = r.word := beq_iff_eq

/-- A word that matches a row is legal (R94). -/
theorem decode_of_matchesWord {w : Word} {r : OpRow} (hr : r ∈ opTable) (h : r.matchesWord w = true) :
    ∃ i, decode w = .op i := by
  rw [OpRow.matchesWord_iff] at h
  obtain ⟨rt, hword, hmask⟩ | ⟨hword, hmask⟩ | ⟨i, hword, hmask⟩ := opTable_cases hr
  all_goals rw [hword, hmask] at h
  · exact ⟨_, decode_of_sendRow h⟩
  · exact ⟨_, decode_of_crc7Row h⟩
  · rw [BitVec.and_allOnes] at h
    exact ⟨i, h ▸ decode_encode i⟩

/-- Any two rows differ in a bit that both masks cover (R95). -/
theorem opTable_conflict : opTable.Pairwise fun r r' => r.word &&& r'.mask ≠ r'.word &&& r.mask := by decide +kernel

/-- A word does not match two rows that differ in a bit both masks cover. -/
theorem OpRow.not_both_match {w : Word} {r r' : OpRow} (hne : r.word &&& r'.mask ≠ r'.word &&& r.mask)
    (h : r.matchesWord w = true) : ¬ r'.matchesWord w = true := by
  intro h'
  rw [OpRow.matchesWord_iff] at h h'
  exact hne (by rw [← h, ← h', BitVec.and_assoc, BitVec.and_assoc, BitVec.and_comm r.mask])

/-- Where no two entries of a list pass a test, at most one does. -/
theorem countP_le_one {α : Type} {p : α → Bool} {l : List α} (h : l.Pairwise fun a b => p a = true → ¬ p b = true) :
    l.countP p ≤ 1 := by
  induction h with
  | nil => simp
  | @cons a l ha _ ih =>
    by_cases hp : p a = true
    · have hrest : l.countP p = 0 := List.countP_eq_zero.mpr fun b hb => ha b hb hp
      simp [hp, hrest]
    · simpa [hp] using ih

/-! ### Illegal words -/

/-- A word that decodes to no operation is illegal (R96). -/
theorem exists_illegal_of_not_op {w : Word} (h : ∀ i, decode w ≠ .op i) : ∃ why, decode w = .illegal why := by
  cases hd : decode w with
  | op i => exact absurd hd (h i)
  | illegal why => exact ⟨why, rfl⟩

/-- An illegal word written to OP on an idle block is accepted and ends at once (R240, R247). -/
theorem hostWrite_op_of_illegal {w : Word} {why : Illegal} {s : State} (hi : decode w = .illegal why)
    (hb : s.regs.status.busy = false) :
    hostWrite .op w s = .next (endOp .illegalOp .badOpWord (accept w s)) := by
  simp [hostWrite, hb, startOp, hi]

/-- Settles O3: a legal word matches its operation's row, a row fixes enough of a word to decode it, and no two rows agree
under both masks. -/
theorem legalExactlyWhenARowMatches : Obligations.LegalExactlyWhenARowMatches := by
  unfold Obligations.LegalExactlyWhenARowMatches
  refine fun w => ⟨⟨fun ⟨i, hi⟩ => ⟨rowOf i, row_of_decode hi⟩, fun ⟨r, hr, h⟩ => decode_of_matchesWord hr h⟩,
    countP_le_one (opTable_conflict.imp OpRow.not_both_match), fun i => row_of_decode, fun hnone s hs => ?_⟩
  obtain ⟨why, hwhy⟩ : ∃ why, decode w = .illegal why := exists_illegal_of_not_op fun i hi => by
    obtain ⟨hmem, hmatch⟩ := row_of_decode hi
    exact Bool.false_ne_true ((hnone _ hmem).symm.trans hmatch)
  exact ⟨_, hostWrite_op_of_illegal hwhy hs.2, ⟨rfl, rfl, rfl, rfl, rfl⟩, rfl⟩

/-! ### The 48-bit frame -/

/-- The 48 bits of a frame, byte 0 highest, with the argument's four bytes between its first and its last byte (R80). -/
def frameBits (f0 : Byte) (arg : Word) (f5 : Byte) : BitVec 48 :=
  f0 ++ arg.extractLsb' 24 8 ++ arg.extractLsb' 16 8 ++ arg.extractLsb' 8 8 ++ arg.extractLsb' 0 8 ++ f5

/-- A frame's bits are those of its last byte, of the argument and of its first byte, from bit 0 up. -/
theorem getLsbD_frameBits (f0 : Byte) (arg : Word) (f5 : Byte) (k : Nat) :
    (frameBits f0 arg f5).getLsbD k =
      if k < 8 then f5.getLsbD k else if k < 40 then arg.getLsbD (k - 8) else f0.getLsbD (k - 40) := by
  simp only [frameBits, BitVec.getLsbD_append, BitVec.getLsbD_extractLsb']
  grind

/-- Index, argument and CRC7 of a frame are read from its first byte, its middle and its last byte (R80). -/
theorem extractLsb'_frameBits (f0 : Byte) (arg : Word) (f5 : Byte) :
    (frameBits f0 arg f5).extractLsb' 40 6 = f0.extractLsb' 0 6 ∧ (frameBits f0 arg f5).extractLsb' 8 32 = arg ∧
      (frameBits f0 arg f5).extractLsb' 1 7 = f5.extractLsb' 1 7 := by
  refine ⟨?_, ?_, ?_⟩
  all_goals
    refine BitVec.eq_of_getLsbD_eq fun k hk => ?_
    simp only [BitVec.getLsbD_extractLsb', getLsbD_frameBits]
    grind

/-- Byte 0 is the start bit 0, the transmission bit 1 and the index (R80, R81). -/
theorem frameHead_fields : ∀ idx : BitVec 6, (frameHead idx).getLsbD 7 = false ∧ (frameHead idx).getLsbD 6 = true ∧
    (frameHead idx).extractLsb' 0 6 = idx := by decide +kernel

/-- Byte 5 is the CRC7 and the end bit 1 (R80, R114). -/
theorem crcByte5_fields : ∀ c : BitVec 7, (crcByte5 c).extractLsb' 1 7 = c ∧ (crcByte5 c).getLsbD 0 = true := by
  decide +kernel

/-- Settles O8: the six bytes are R81's, and each field of the frame is read from the byte that holds it. -/
theorem frameCarriesIndexArgumentAndCrc : Obligations.FrameCarriesIndexArgumentAndCrc := by
  unfold Obligations.FrameCarriesIndexArgumentAndCrc
  intro idx arg
  obtain ⟨hstart, htransmission, hidx⟩ := frameHead_fields idx
  obtain ⟨hcrc, hend⟩ := crcByte5_fields (frameCrc idx arg)
  obtain ⟨hbits40, hbits8, hbits1⟩ := extractLsb'_frameBits (frameHead idx) arg (crcByte5 (frameCrc idx arg))
  exact ⟨_, _, _, _, _, _, rfl, rfl, rfl, rfl, rfl, rfl, rfl,
    (getLsbD_frameBits ..).trans hstart, (getLsbD_frameBits ..).trans htransmission, hbits40.trans hidx, hbits8,
    hbits1.trans hcrc, (getLsbD_frameBits ..).trans hend⟩

/-! ### SEND_CMD up to its probe -/

/-- Settles O15: the accept, then the frame built and RESP cleared (R134). -/
theorem sendCmdStarts : Obligations.SendCmdStarts := by
  unfold Obligations.SendCmdStarts
  intro rt idx nochk s hs
  rw [exec_idle hs.1, codeOf_sendInstr, sendCmdAt, goto_of_run _ rfl]
  cases nochk <;> rfl

/-- A SEND_CMD whose probe returns a byte other than 0xFF ends there (R134, R140). -/
theorem exec_probe_not_ready {rt : RespType} {idx : BitVec 6} {nochk : Bool} {s : State} {b : Byte} {card : List Byte}
    (hat : s.At (sendInstr rt idx nochk) (.sendCmd .probe)) (hcard : s.inputs.card = b :: card) (hb : b ≠ 0xFF) :
    exec (sendInstr rt idx nochk) s = .next (endOp .responseError .notReady (s.took filler b card)) := by
  have hready : busReady b = false := by simpa [busReady] using hb
  rw [exec_at hat, codeOf_sendInstr]
  simp [sendCmdAt, commandStep, xchg_of_card filler hcard, hready, sendErr]

/-- RESP as the host reads it once it is cleared (R134). -/
theorem regWord_resp_of_cleared {g : Regs} (hbyte : g.byte0 = 0xFF) (hn : g.nresp = 0) :
    regWord g .resp = 0x000000FF := by
  simp [regWord, respWord, hbyte, hn]

/-- Settles O17: one step to the probe and the one that ends there; RESP and RESPX are as the first step cleared them. -/
theorem busyProbeEndsSendCmd : Obligations.BusyProbeEndsSendCmd := by
  unfold Obligations.BusyProbeEndsSendCmd
  intro rt idx s b card hs hcard hb
  have hstart := sendCmdStarts rt idx false s hs
  refine ⟨_, (StepsTo.of_exec hstart rfl).runOp_eq (exec_probe_not_ready (b := b) (card := card) ?_ ?_ hb),
    ⟨rfl, rfl, rfl, rfl, rfl⟩, rfl, rfl, regWord_resp_of_cleared rfl rfl, rfl, rfl⟩
  · rfl
  · exact hcard

end Sys2Proof.Machine
end

section
/-! CRC7: the register is linear, the nibble-table form and the properties that follow from it, the source's vector, and the
operation that computes it (40_crc7.md R110 to R116). -/

namespace Sys2Proof.Machine

/-! ### Linearity -/

/-- One bit of R110's loop shifts the register and adds the feedback constant or nothing. -/
theorem crcBitWith_eq (g r : BitVec 7) (b : Bool) :
    crcBitWith g r b = (r <<< 1) ^^^ (if (r.getLsbD 6 ^^ b) then g else 0) := by
  unfold crcBitWith
  split <;> simp

/-- One bit of R110's loop is linear in the register and the bit together. -/
theorem crcBitWith_xor (g r r' : BitVec 7) (b b' : Bool) :
    crcBitWith g (r ^^^ r') (b ^^ b') = crcBitWith g r b ^^^ crcBitWith g r' b' := by
  have hfeed (c c' : Bool) : (if (c ^^ c') then g else 0) = (if c then g else 0) ^^^ (if c' then g else 0) := by
    cases c <;> cases c' <;> simp
  simp only [crcBitWith_eq, BitVec.getLsbD_xor, BitVec.shiftLeft_xor_distrib, hfeed]
  ac_rfl

/-- Feeding inputs one after the other is linear when feeding one of them is. -/
theorem foldl_zipWith_xor {α : Type} {w : Nat} {f : BitVec w → α → BitVec w} {op : α → α → α}
    (hf : ∀ r r' a a', f (r ^^^ r') (op a a') = f r a ^^^ f r' a') : ∀ {as bs : List α}, as.length = bs.length →
      ∀ r r', (List.zipWith op as bs).foldl f (r ^^^ r') = as.foldl f r ^^^ bs.foldl f r'
  | [], [], _, _, _ => rfl
  | a :: as, b :: bs, h, r, r' => by
    simp only [List.zipWith_cons_cons, List.foldl_cons, hf]
    exact foldl_zipWith_xor hf (Nat.succ.inj h) _ _

/-- The bits of a sum of two bytes (R110). -/
theorem bitsOf_xor (b b' : Byte) : bitsOf (b ^^^ b') = List.zipWith (· ^^ ·) (bitsOf b) (bitsOf b') := by
  simp [bitsOf]

/-- One byte of R110's loop is linear in the register and the byte together. -/
theorem crcByteWith_xor (g r r' : BitVec 7) (b b' : Byte) :
    crcByteWith g (r ^^^ r') (b ^^^ b') = crcByteWith g r b ^^^ crcByteWith g r' b' := by
  rw [crcByteWith, bitsOf_xor]
  exact foldl_zipWith_xor (crcBitWith_xor g) (by rfl) r r'

/-- crc7 is linear over messages of equal length (R116). -/
theorem crc7_zipWith_xor {a b : List Byte} (h : a.length = b.length) :
    crc7 (List.zipWith (· ^^^ ·) a b) = crc7 a ^^^ crc7 b :=
  foldl_zipWith_xor (crcByteWith_xor crcPoly) h 0 0

/-- Zero bytes have the crc7 zero: a message of them is the sum of itself with itself (R116). -/
theorem crc7_replicate_zero (n : Nat) : crc7 (List.replicate n 0x00) = 0 := by
  have hsum : crc7 (List.zipWith (· ^^^ ·) (List.replicate n 0x00) (List.replicate n 0x00)) = 0 := by
    rw [crc7_zipWith_xor rfl]
    exact BitVec.xor_self
  rwa [List.zipWith_replicate', show (0x00 : Byte) ^^^ 0x00 = 0x00 from rfl] at hsum

/-- Settles O7: the loop is linear bit by bit, so byte by byte, so over messages. -/
theorem crc7IsLinear : Obligations.Crc7IsLinear := by
  unfold Obligations.Crc7IsLinear
  exact ⟨rfl, crc7_replicate_zero, fun _ _ => crc7_zipWith_xor, by decide +kernel, by decide +kernel, by decide +kernel⟩

/-! ### The nibble-table form -/

/-- The bits of a nibble, most significant first, as R113's table takes them. -/
def nibbleBits (n : BitVec 4) : List Bool := [n.getLsbD 3, n.getLsbD 2, n.getLsbD 1, n.getLsbD 0]

/-- R110's loop over the four bits of a nibble. -/
def feedNibble (r : BitVec 7) (n : BitVec 4) : BitVec 7 := (nibbleBits n).foldl (crcBitWith crcPoly) r

/-- Four bits of R110's loop are linear in the register and the nibble together. -/
theorem feedNibble_xor (r r' : BitVec 7) (n n' : BitVec 4) :
    feedNibble (r ^^^ r') (n ^^^ n') = feedNibble r n ^^^ feedNibble r' n' := by
  have hbits : nibbleBits (n ^^^ n') = List.zipWith (· ^^ ·) (nibbleBits n) (nibbleBits n') := by simp [nibbleBits]
  rw [feedNibble, hbits]
  exact foldl_zipWith_xor (crcBitWith_xor crcPoly) (by rfl) r r'

/-- The table's entries are what R110's loop makes of a nibble on a zero register (R113). -/
theorem crcTable_eq_feedNibble : ∀ n : BitVec 4, crcTable.getD n.toNat 0 = feedNibble 0 n := by decide +kernel

/-- A zero nibble shifts the register by four and feeds its upper four bits back (R113). -/
theorem feedNibble_zero : ∀ r : BitVec 7, feedNibble r 0 = (r <<< 4) ^^^ feedNibble 0 (r.extractLsb' 3 4) := by
  decide +kernel

/-- One nibble of R113's loop is four bits of R110's: by linearity the register and the nibble can be fed apart. -/
theorem crcNibble_eq_feedNibble (r : BitVec 7) (n : BitVec 4) : crcNibble r n = feedNibble r n := by
  calc crcNibble r n
      = (r <<< 4) ^^^ feedNibble (0 ^^^ 0) (r.extractLsb' 3 4 ^^^ n) := by rw [crcNibble, crcTable_eq_feedNibble]; rfl
    _ = feedNibble r 0 ^^^ feedNibble 0 n := by rw [feedNibble_xor, ← BitVec.xor_assoc, ← feedNibble_zero]
    _ = feedNibble (r ^^^ 0) (0 ^^^ n) := (feedNibble_xor r 0 0 n).symm
    _ = feedNibble r n := by simp

/-- A byte's bits are those of its upper nibble, then those of its lower one. -/
theorem bitsOf_eq_nibbleBits (b : Byte) :
    bitsOf b = nibbleBits (b.extractLsb' 4 4) ++ nibbleBits (b.extractLsb' 0 4) := by
  simp [bitsOf, nibbleBits]

/-- The nibble-table form is R110's loop on every message (R113). -/
theorem crc7Nibble_eq_crc7 (m : List Byte) : crc7Nibble m = crc7 m := by
  have hbyte (r : BitVec 7) (b : Byte) :
      crcNibble (crcNibble r (b.extractLsb' 4 4)) (b.extractLsb' 0 4) = crcByteWith crcPoly r b := by
    simp only [crcNibble_eq_feedNibble, crcByteWith, bitsOf_eq_nibbleBits, List.foldl_append, feedNibble]
  simp only [crc7Nibble, hbyte]
  rfl

/-- Settles O6: nibble by nibble the table form does what R110's loop does. -/
theorem nibbleTableFormIsCrc7 : Obligations.NibbleTableFormIsCrc7 := by
  unfold Obligations.NibbleTableFormIsCrc7
  exact ⟨crc7Nibble_eq_crc7, crcTable_eq_feedNibble⟩

/-! ### The source's vector -/

/-- CMD0's five bytes have the crc7 0x4A (R111). -/
theorem crc7_cmd0 : crc7 [0x40, 0x00, 0x00, 0x00, 0x00] = 0x4A := by decide +kernel

/-- Only R110's feedback constant gives the source's value (R111). -/
theorem crc7With_eq_vector_iff : ∀ g : BitVec 7, crc7With g [0x40, 0x00, 0x00, 0x00, 0x00] = 0x4A ↔ g = 0x09 := by
  decide +kernel

/-- Settles O5: the vector and the 128 feedback constants are computed; the nibble form agrees on every message. -/
theorem crc7MeetsTheSourcesVector : Obligations.Crc7MeetsTheSourcesVector := by
  unfold Obligations.Crc7MeetsTheSourcesVector
  exact ⟨crc7_cmd0, rfl, crc7With_eq_vector_iff, fun m _ => crc7Nibble_eq_crc7 m⟩

/-! ### The operation CRC7 -/

/-- CRC7 on an idle block builds the frame on the accepted state and ends in that step (R115, R240). -/
theorem exec_crc7_idle {idx : BitVec 6} {s : State} (h : s.seq = .idle) :
    exec (.crc7 idx) s = .next (finish (buildFrame idx s.regs.arg (accept (encode (.crc7 idx)) s))) := exec_idle h

/-- CRC as the host reads it after CMD0's frame with argument 0 (R111, R114). -/
theorem regWord_crc_buildFrame_zero (s : State) : regWord (finish (buildFrame 0 0 s)).regs .crc = 0x0000954A := by
  have hcrc : frameCrc 0 0 = 0x4A := crc7_cmd0
  simp only [regWord, crcWord, finish_regs, buildFrame_regs, hcrc]
  decide

/-- Settles O9: the accept, the frame built and the end are one step, field by field the state of the statement. -/
theorem crc7OperationCompletes : Obligations.Crc7OperationCompletes := by
  unfold Obligations.Crc7OperationCompletes
  refine ⟨fun idx s hs => exec_crc7_idle hs.1, by decide +kernel, rfl, fun s hs harg => ?_⟩
  have hword : encode (.crc7 0) = 0x00000002 := by decide
  have hstart : startOp 0x00000002 s = exec (.crc7 0) s := by rw [← hword, startOp, decode_encode, exec_accept hs.1]
  refine ⟨_, hstart.trans (exec_crc7_idle hs.1), ?_⟩
  rw [harg, regWord_crc_buildFrame_zero]

end Sys2Proof.Machine
end

section
/-! The framer's operations run one event a step reach the state of their pseudocode run whole: the pseudocode as a function
of the state, a helper procedure run event by event, and an operation run on to its end (41_command_framer.md R131 to R134,
R140, R150, R155). -/

namespace Sys2Proof.Machine

/-! ### The pseudocode as a function of the state -/

/-- What runs whole in sequence runs whole part by part. -/
theorem Act.bind_eq_some {α β : Type} {m : Act α} {f : α → Act β} {s : State} {d : β × State} :
    (m >>= f) s = some d ↔ ∃ a u, m s = some (a, u) ∧ f a u = some d :=
  Option.bind_eq_some_iff.trans Prod.exists

@[simp] theorem Act.pure_apply {α : Type} (a : α) (s : State) : (pure a : Act α) s = some (a, s) := rfl
@[simp] theorem Act.ite_apply {α : Type} (c : Prop) [Decidable c] (m m' : Act α) (s : State) :
    (if c then m else m') s = if c then m s else m' s := by split <;> rfl

/-! An event or a register update, then the rest: neither can fail. -/

@[simp] theorem Act.xchgA_bind {α : Type} (tx : Byte) (f : Byte → Act α) (s : State) :
    (xchgA tx >>= f) s = f (xchg tx s).1 (xchg tx s).2 := rfl
@[simp] theorem Act.nowA_bind {α : Type} (f : Word → Act α) (s : State) : (nowA >>= f) s = f (now s).1 (now s).2 := rfl
@[simp] theorem Act.setA_bind {α : Type} (g : State → State) (f : Unit → Act α) (s : State) :
    (setA g >>= f) s = f () (g s) := rfl
@[simp] theorem Act.getA_bind {α β : Type} (g : State → α) (f : α → Act β) (s : State) :
    (getA g >>= f) s = f (g s) s := rfl

/-! ### A helper procedure run event by event -/

/-- A helper that stands in `d` returns `r` in state `t` when its events are run one after the other (R12, R21). -/
inductive Reaches {π ρ : Type} (step : π → State → Progress π ρ × State) : Progress π ρ × State → ρ → State → Prop
  | ret (r : ρ) (t : State) : Reaches step (.ret r, t) r t
  | more {p : π} {s t : State} {r : ρ} (h : Reaches step (step p s) r t) : Reaches step (.more p, s) r t

/-- The rounds of `wait_ready` (R131). -/
theorem waitReadyLoop_reaches {T t0 : Word} {b : Bool} {t : State} : ∀ {n : Nat} {s : State},
    waitReadyLoop T t0 n s = some (b, t) → Reaches (waitReadyStep T) (.more (.poll t0), s) b t
  | 0, s, h => by cases h
  | n + 1, s, h => by
    simp only [waitReadyLoop, Act.xchgA_bind, Act.nowA_bind, Act.ite_apply, Act.pure_apply] at h
    refine .more ?_
    simp only [waitReadyStep]
    split at h
    · cases h
      rw [if_pos ‹_›]
      exact .ret _ _
    · rw [if_neg ‹_›]
      refine .more ?_
      simp only [waitReadyStep]
      split at h
      · cases h
        rw [if_pos ‹_›]
        exact .ret _ _
      · rw [if_neg ‹_›]
        exact waitReadyLoop_reaches h

/-- `wait_ready` (R131). -/
theorem waitReadyP_reaches {fuel : Nat} {T : Word} {b : Bool} {s t : State} (h : waitReadyP fuel T s = some (b, t)) :
    Reaches (waitReadyStep T) (.more .start, s) b t := by
  rw [waitReadyP, Act.nowA_bind] at h
  exact .more (waitReadyLoop_reaches h)

/-! ### `command` -/

/-- A busy wait inside a command: its points are the command's, its result is one of the command's (R134). -/
def busyProgress : Progress WaitPos Bool → Progress CmdPos Cause
  | .more w => .more (.busy w)
  | .ret w => .ret (if w then .none else .busyTimeout)

/-- One event of a command's busy wait is one event of the wait (R134). -/
theorem commandStep_busy (c : CmdCall) (w : WaitPos) (s : State) :
    commandStep c (.busy w) s = (busyProgress (waitReadyStep c.tbusy w s).1, (waitReadyStep c.tbusy w s).2) := by
  simp only [commandStep]
  congr 1
  cases (waitReadyStep c.tbusy w s).1 with
  | more w' => rfl
  | ret b => cases b <;> rfl

section
variable {c : CmdCall} {k : Cause} {s t u : State}

/-- A command's busy wait returns what the wait returns (R134). -/
theorem Reaches.busy {d : Progress WaitPos Bool × State} {w : Bool} (h : Reaches (waitReadyStep c.tbusy) d w t) :
    Reaches (commandStep c) (busyProgress d.1, d.2) (if w then .none else .busyTimeout) t := by
  induction h with
  | ret w t => exact .ret _ t
  | more h ih => exact .more (by rwa [commandStep_busy])

/-- The six bytes of a frame (R134). -/
theorem sendBytes_reaches : ∀ {bs : List Byte} {b : Byte} {s : State}, sendBytes (b :: bs) s = some ((), u) →
    Reaches (commandStep c) (.more (afterFrame c), u) k t → Reaches (commandStep c) (.more (.frame b bs), s) k t
  | [], b, s, hsend, hnext => by
    cases hsend
    exact .more hnext
  | b' :: bs, b, s, hsend, hnext => .more (sendBytes_reaches (b := b') (bs := bs) hsend hnext)

/-- The stuff bytes (R134). -/
theorem stuffBytes_reaches : ∀ {n : Nat} {s : State}, fillBytes (n + 1) s = some ((), u) →
    Reaches (commandStep c) (.more (.search 0), u) k t → Reaches (commandStep c) (.more (.stuff n), s) k t
  | 0, s, hfill, hnext => by
    cases hfill
    exact .more hnext
  | n + 1, s, hfill, hnext => .more (stuffBytes_reaches (n := n) hfill hnext)

/-- What follows the frame: the stuff bytes, if there are any, then the search (R134). -/
theorem afterFrame_reaches (hfill : fillBytes c.stuff s = some ((), u))
    (hnext : Reaches (commandStep c) (.more (.search 0), u) k t) :
    Reaches (commandStep c) (.more (afterFrame c), s) k t := by
  unfold afterFrame
  split <;> rename_i hn <;> rw [hn] at hfill
  · cases hfill
    exact hnext
  · exact stuffBytes_reaches hfill hnext

/-- Where a command goes when its search is over: nothing found, or response[0] (R132, R134). -/
def afterSearch (c : CmdCall) (found : Option Byte) (s : State) : Progress CmdPos Cause × State :=
  match found with
  | none => (.ret .respNotFound, s)
  | some r => afterFound c r s

/-- The response search with `n + 1` exchanges left (R132). -/
theorem searchP_reaches {found : Option Byte} {n j : Nat} {s : State} (hj : j + (n + 1) = s.params.respPollMax.toNat)
    (hsearch : searchP (n + 1) s = some (found, u)) (hnext : Reaches (commandStep c) (afterSearch c found u) k t) :
    Reaches (commandStep c) (.more (.search j), s) k t := by
  have hmax : (xchg filler s).2.params.respPollMax.toNat = j + (n + 1) := hj.symm
  simp only [searchP, Act.xchgA_bind, Act.ite_apply, Act.pure_apply] at hsearch
  refine .more ?_
  simp only [commandStep, hmax]
  split at hsearch
  · cases hsearch
    rwa [if_pos ‹_›]
  · rw [if_neg ‹_›]
    cases n with
    | zero =>
      cases hsearch
      rw [if_neg (by omega)]
      exact hnext
    | succ m =>
      rw [if_pos (by omega)]
      exact searchP_reaches (by rw [hmax]; omega) hsearch hnext

/-- The extra response bytes (R134). -/
theorem extraP_reaches {r : Byte} {x' : Word} : ∀ {n : Nat} {x : Word} {s : State},
    extraP (n + 1) x s = some (x', u) → Reaches (commandStep c) (storeResp c r x' u) k t →
      Reaches (commandStep c) (.more (.extra r x n), s) k t
  | 0, x, s, hextra, hnext => by
    cases hextra
    exact .more hnext
  | n + 1, x, s, hextra, hnext => .more (extraP_reaches (n := n) hextra hnext)

/-- A command once response[0] is found (R133, R134). -/
theorem afterFound_reaches {r : Byte} {x : Word} (hextra : extraP (nextra c.rt) 0 s = some (x, u))
    (hnext : Reaches (commandStep c) (storeResp c r x u) k t) : Reaches (commandStep c) (afterFound c r s) k t := by
  unfold afterFound
  split <;> rename_i hn <;> rw [hn] at hextra
  · cases hextra
    exact hnext
  · exact extraP_reaches hextra hnext

/-- `command` once response[0] is found, in the pseudocode: the extra bytes, RESP and RESPX, the wait of an R1b (R134). -/
def responseP (fuel : Nat) (c : CmdCall) (r : Byte) : Act Cause := do
  let x ← extraP (nextra c.rt) 0
  setA (putResp (nextra c.rt) r x)
  if c.rt = .r1b then do
    let w ← waitReadyP fuel c.tbusy
    pure (if w then .none else .busyTimeout)
  else pure .none

/-- The response of a command, from response[0] on (R134). -/
theorem responseP_reaches {fuel : Nat} {r : Byte} (h : responseP fuel c r s = some (k, t)) :
    Reaches (commandStep c) (afterFound c r s) k t := by
  obtain ⟨x, v, hextra, h⟩ := Act.bind_eq_some.mp h
  refine afterFound_reaches hextra ?_
  rw [Act.setA_bind, Act.ite_apply] at h
  unfold storeResp
  split at h
  · rw [if_pos ‹_›]
    obtain ⟨w, v, hwait, hret⟩ := Act.bind_eq_some.mp h
    cases hret
    exact (waitReadyP_reaches hwait).busy
  · rw [if_neg ‹_›]
    cases h
    exact .ret _ _

/-- `command` after its probe, in the pseudocode: the frame, the stuff bytes, the search and the response (R134). -/
def framedP (fuel : Nat) (c : CmdCall) : Act Cause := do
  sendBytes (frameBytes c.idx c.arg)
  fillBytes c.stuff
  let polls ← getA fun s => s.params.respPollMax.toNat
  let found ← searchP polls
  match found with
  | none => pure .respNotFound
  | some r => responseP fuel c r

/-- A command from its first frame byte on (R134). -/
theorem framedP_reaches {fuel : Nat} (h : framedP fuel c s = some (k, t)) :
    Reaches (commandStep c) (.more (.frame (frameHead c.idx) (frameTail c.idx c.arg)), s) k t := by
  obtain ⟨_, s₁, hsend, h⟩ := Act.bind_eq_some.mp h
  obtain ⟨_, s₂, hfill, h⟩ := Act.bind_eq_some.mp h
  obtain ⟨n, hmax⟩ := Nat.exists_eq_add_one.mpr (respPollMax_pos s₂.params.respPollMax)
  rw [Act.getA_bind, hmax] at h
  obtain ⟨found, s₃, hsearch, h⟩ := Act.bind_eq_some.mp h
  refine sendBytes_reaches hsend (afterFrame_reaches hfill (searchP_reaches (by omega) hsearch ?_))
  cases found with
  | none =>
    cases h
    exact .ret _ _
  | some r => exact responseP_reaches h

/-- `command` builds the frame, clears RESP, and sends the frame when the probe lets it (R134). -/
theorem commandP_eq (fuel : Nat) (c : CmdCall) : commandP fuel c = (do
    setA fun s => clearResp (buildFrame c.idx c.arg s)
    let ok ← probeP c.chk
    if ok then framedP fuel c else pure .notReady) := rfl

/-- `command` (R134). -/
theorem commandP_reaches {fuel : Nat} (h : commandP fuel c s = some (k, t)) :
    Reaches (commandStep c) (.more (commandStart c s).1, (commandStart c s).2) k t := by
  rw [commandP_eq, Act.setA_bind] at h
  simp only [commandStart]
  cases hchk : c.chk with
  | false =>
    simp only [hchk, probeP, Bool.false_eq_true, if_false, pure_bind, if_true] at h ⊢
    exact framedP_reaches h
  | true =>
    simp only [hchk, probeP, if_true, bind_assoc, pure_bind, Act.xchgA_bind, Act.ite_apply, Act.pure_apply] at h ⊢
    refine .more ?_
    simp only [commandStep]
    split at h
    · rw [if_pos ‹_›]
      exact framedP_reaches h
    · rw [if_neg ‹_›]
      cases h
      exact .ret _ _

end

/-! ### An operation run on to its end -/

/-- Operation `i`, run on from the first state, ends in the second (R17). -/
inductive EndsIn (i : Instr) : State → State → Prop
  | ended {t : State} (hb : t.regs.status.busy = false) : EndsIn i t t
  | step {s u t : State} (hb : s.regs.status.busy = true) (h : exec i s = .next u) (hu : EndsIn i u t) : EndsIn i s t

/-- An operation whose first step leads to a state from which it ends in `t` reaches `t` in some number of steps. -/
theorem EndsIn.exists_runOp {i : Instr} {s u t : State} (hu : EndsIn i u t) (h : exec i s = .next u) :
    ∃ n, runOp i n s = .next t ∧ t.regs.status.busy = false := by
  induction hu generalizing s with
  | ended hb => exact ⟨1, by simp [runOp, h, hb], hb⟩
  | step hb hnext _ ih =>
    obtain ⟨n, hn, hend⟩ := ih hnext
    exact ⟨n + 1, by simp [runOp, h, hb, hn], hend⟩

/-- The block is busy and has the operands of `g`, which no operation writes (R38). -/
def RunsWith (g : Regs) (s : State) : Prop := s.regs.status.busy = true ∧ sameOperands g s.regs

/-- An accepted operation runs with the operands it finds (R240). -/
theorem runsWith_accept (w : Word) (s : State) : RunsWith s.regs (accept w s) :=
  ⟨rfl, rfl, rfl, rfl, rfl, rfl, rfl, rfl, rfl⟩

/-- The state an operation's step leaves when its helper stands in `d`: SEQ at the helper's next point, or the
operation's end for the helper's result (R12, R21). -/
def helperLands {π ρ : Type} (i : Instr) (pos : π → Pos) (fin : ρ → State → State) (d : Progress π ρ × State) : State :=
  match d.1 with
  | .more q => d.2.goes i (pos q)
  | .ret r => fin r d.2

/-- An operation that runs a helper and ends with its result ends as the helper's run whole says. -/
theorem Reaches.endsIn {π ρ : Type} {step : π → State → Progress π ρ × State} {i : Instr} {pos : π → Pos}
    {fin : ρ → State → State} {g : Regs} {d : Progress π ρ × State} {r : ρ} {t : State}
    (hfin : ∀ r s, (fin r s).regs.status.busy = false)
    (hexec : ∀ q s, RunsWith g s → exec i (s.goes i (pos q)) = .next (helperLands i pos fin (step q s)))
    (hkeep : ∀ q s, RunsWith g s → RunsWith g (step q s).2)
    (h : Reaches step d r t) (hd : RunsWith g d.2) : EndsIn i (helperLands i pos fin d) (fin r t) := by
  induction h with
  | ret r t => exact .ended (hfin r t)
  | more _ ih => exact .step hd.1 (hexec _ _ hd) (ih (hkeep _ _ hd))

/-! ### SEND_CMD, CRC7, WAIT_READY, FILL -/

/-- A command keeps the operands and leaves the block busy (R134). -/
theorem commandStep_runsWith {g : Regs} (c : CmdCall) (q : CmdPos) (s : State) (h : RunsWith g s) :
    RunsWith g (commandStep c q s).2 := by
  obtain ⟨e, n, hs | ⟨r, x, hs⟩⟩ := commandStep_state c q s
  · rw [hs]
    exact h
  · rw [hs]
    exact h

/-- A wait keeps the operands and leaves the block busy (R131). -/
theorem waitReadyStep_runsWith {g : Regs} (T : Word) (q : WaitPos) (s : State) (h : RunsWith g s) :
    RunsWith g (waitReadyStep T q s).2 := by
  obtain ⟨e, n, hs⟩ := waitReadyStep_state T q s
  rw [hs]
  exact h

/-- One event of a command neither looks at SEQ nor moves it (R21). -/
theorem commandStep_goes (c : CmdCall) (q : CmdPos) (s : State) (i : Instr) (p : Pos) :
    commandStep c q (s.goes i p) = ((commandStep c q s).1, (commandStep c q s).2.goes i p) := by
  cases q with
  | search k =>
    have hxchg : xchg filler (s.goes i p) = ((xchg filler s).1, (xchg filler s).2.goes i p) := rfl
    simp only [commandStep, hxchg]
    split
    · unfold afterFound
      split <;> rfl
    · rfl
  | extra r x more => cases more <;> rfl
  | busy w => cases w <;> rfl
  | _ => rfl

/-- One event of a wait neither looks at SEQ nor moves it (R21). -/
theorem waitReadyStep_goes (T : Word) (q : WaitPos) (s : State) (i : Instr) (p : Pos) :
    waitReadyStep T q (s.goes i p) = ((waitReadyStep T q s).1, (waitReadyStep T q s).2.goes i p) := by
  cases q <;> rfl

/-- A step of SEND_CMD, at a point of its command (R140). -/
theorem exec_sendCmd_goes {rt : RespType} {idx : BitVec 6} {nochk : Bool} {g : Regs} (q : CmdPos) (s : State)
    (h : RunsWith g s) : exec (sendInstr rt idx nochk) (s.goes (sendInstr rt idx nochk) (.sendCmd q)) =
      .next (helperLands (sendInstr rt idx nochk) .sendCmd (fun e => endOp (sendErr e) e)
        (commandStep (sendCall rt idx nochk g) q s)) := by
  have hcall : sendCall rt idx nochk (s.goes (sendInstr rt idx nochk) (.sendCmd q)).regs = sendCall rt idx nochk g :=
    sendCall_congr rt idx nochk h.2
  rw [exec_at (State.goes_seq ..), codeOf_sendInstr]
  simp only [sendCmdAt, hcall, commandStep_goes, helperLands]
  cases (commandStep (sendCall rt idx nochk g) q s).1 with
  | more q' => rfl
  | ret e => rfl

/-- SEND_CMD written to an idle block ends as its pseudocode does (R134, R140). -/
theorem sendCmd_runs_pseudocode {rt : RespType} {idx : BitVec 6} {nochk : Bool} {fuel : Nat} {s t : State}
    (hs : s.Idle) (h : wholeRun fuel (sendInstr rt idx nochk) s = some t) :
    ∃ n, runOp (sendInstr rt idx nochk) n s = .next t ∧ t.regs.status.busy = false := by
  have hp : pseudocode fuel (sendInstr rt idx nochk) = sendCmdP fuel rt idx nochk := by cases rt <;> rfl
  obtain ⟨⟨_, v⟩, hrun, rfl⟩ := Option.map_eq_some_iff.mp h
  rw [hp, sendCmdP, Act.getA_bind] at hrun
  obtain ⟨k, u, hcmd, hend⟩ := Act.bind_eq_some.mp hrun
  cases hend
  have hruns : RunsWith s.regs (commandStart (sendCall rt idx nochk s.regs)
      (accept (encode (sendInstr rt idx nochk)) s)).2 := runsWith_accept (encode (sendInstr rt idx nochk)) s
  refine ((commandP_reaches hcmd).endsIn (fun _ _ => rfl) exec_sendCmd_goes (commandStep_runsWith _) hruns).exists_runOp ?_
  rw [exec_idle hs.1, codeOf_sendInstr]
  rfl

/-- A step of WAIT_READY, at a point of its wait (R150). -/
theorem exec_waitReady_goes {g : Regs} (q : WaitPos) (s : State) (h : RunsWith g s) :
    exec .waitReady (s.goes .waitReady (.waitReady q)) =
      .next (helperLands .waitReady .waitReady (fun w => if w then finish else endOp .timeout .busyTimeout)
        (waitReadyStep g.tmoCmd q s)) := by
  obtain ⟨-, -, -, -, -, htmo, -⟩ := h
  rw [exec_at (State.goes_seq ..)]
  simp only [codeOf, waitReadyAt, State.goes_regs, htmo, waitReadyStep_goes, helperLands]
  cases (waitReadyStep g.tmoCmd q s).1 with
  | more q' => rfl
  | ret w => cases w <;> rfl

/-- WAIT_READY written to an idle block ends as its pseudocode does (R131, R150). -/
theorem waitReady_runs_pseudocode {fuel : Nat} {s t : State} (hs : s.Idle) (h : wholeRun fuel .waitReady s = some t) :
    ∃ n, runOp .waitReady n s = .next t ∧ t.regs.status.busy = false := by
  obtain ⟨⟨_, v⟩, hrun, rfl⟩ := Option.map_eq_some_iff.mp h
  rw [pseudocode, waitReadyOpP, Act.getA_bind] at hrun
  obtain ⟨w, u, hwait, hend⟩ := Act.bind_eq_some.mp hrun
  cases hend
  exact ((waitReadyP_reaches hwait).endsIn (fun w _ => by cases w <;> rfl) exec_waitReady_goes
    (waitReadyStep_runsWith _) (runsWith_accept _ s)).exists_runOp (exec_idle hs.1)

/-- FILL with its exchanges still to do ends as the pseudocode's loop does (R155). -/
theorem fillFrom_endsIn {t : State} : ∀ {n : Nat} {s : State} {p : Pos}, s.regs.status.busy = true →
    fillBytes n s = some ((), t) → EndsIn .fill (fillFrom n (s.goes .fill p)) (finish t)
  | 0, s, p, _, h => by
    cases h
    exact .ended rfl
  | n + 1, s, p, hb, h =>
    .step hb (exec_at (State.goes_seq s .fill (.fill n))) (fillFrom_endsIn (s := (xchg filler s).2) hb h)

/-- FILL written to an idle block ends as its pseudocode does (R155). -/
theorem fill_runs_pseudocode {fuel : Nat} {s t : State} (hs : s.Idle) (h : wholeRun fuel .fill s = some t) :
    ∃ n, runOp .fill n s = .next t ∧ t.regs.status.busy = false := by
  obtain ⟨⟨_, v⟩, hrun, rfl⟩ := Option.map_eq_some_iff.mp h
  rw [pseudocode, fillP, Act.getA_bind] at hrun
  obtain ⟨_, u, hfill, hend⟩ := Act.bind_eq_some.mp hrun
  cases hend
  exact (fillFrom_endsIn rfl hfill).exists_runOp (exec_idle hs.1)

/-- CRC7 written to an idle block ends, in that step, as its pseudocode does (R115). -/
theorem crc7_runs_pseudocode {idx : BitVec 6} {fuel : Nat} {s t : State} (hs : s.Idle)
    (h : wholeRun fuel (.crc7 idx) s = some t) : ∃ n, runOp (.crc7 idx) n s = .next t ∧ t.regs.status.busy = false := by
  cases h
  exact (EndsIn.ended rfl).exists_runOp (exec_crc7_idle hs.1)

/-- Settles O42: SEND_CMD of every class by its command, WAIT_READY by its wait, FILL by its exchanges, CRC7 in one step. -/
theorem framerRunsItsPseudocode : Obligations.FramerRunsItsPseudocode := by
  unfold Obligations.FramerRunsItsPseudocode
  intro i fuel s t hread hreads hwrites hs h
  cases i with
  | sendCmdR1 idx nochk => exact sendCmd_runs_pseudocode (rt := .r1) hs h
  | sendCmdR1b idx nochk => exact sendCmd_runs_pseudocode (rt := .r1b) hs h
  | sendCmdR2 idx nochk => exact sendCmd_runs_pseudocode (rt := .r2) hs h
  | sendCmdR3 idx nochk => exact sendCmd_runs_pseudocode (rt := .r3) hs h
  | sendCmdR7 idx nochk => exact sendCmd_runs_pseudocode (rt := .r7) hs h
  | crc7 idx => exact crc7_runs_pseudocode hs h
  | waitReady => exact waitReady_runs_pseudocode hs h
  | fill => exact fill_runs_pseudocode hs h
  | readData => exact absurd rfl hread
  | readBlocks => exact absurd rfl hreads
  | writeBlocks => exact absurd rfl hwrites

end Sys2Proof.Machine
end

section
/-! Scripted events: one equation for each case of the framer's helper procedures, and the steps in which its operations end
(00_scope.md R11, 41_command_framer.md R131 to R135, R140). -/

namespace Sys2Proof.Machine

/-! ### The state after scripted events -/

/-- The state after the events `es`, with `card` and `clock` still to come (R11). -/
def State.heard (s : State) (es : List Event) (card : List Byte) (clock : List Word) : State :=
  { s with inputs := { s.inputs with card := card, clock := clock }, trace := s.trace ++ es }

@[simp] theorem State.heard_regs (s : State) (es : List Event) (card : List Byte) (clock : List Word) :
    (s.heard es card clock).regs = s.regs := rfl
@[simp] theorem State.heard_seq (s : State) (es : List Event) (card : List Byte) (clock : List Word) :
    (s.heard es card clock).seq = s.seq := rfl
@[simp] theorem State.heard_trace (s : State) (es : List Event) (card : List Byte) (clock : List Word) :
    (s.heard es card clock).trace = s.trace ++ es := rfl
@[simp] theorem State.heard_mem (s : State) (es : List Event) (card : List Byte) (clock : List Word) :
    (s.heard es card clock).mem = s.mem := rfl
@[simp] theorem State.heard_inputs (s : State) (es : List Event) (card : List Byte) (clock : List Word) :
    (s.heard es card clock).inputs = { s.inputs with card := card, clock := clock } := rfl
@[simp] theorem State.heard_host (s : State) (es : List Event) (card : List Byte) (clock : List Word) :
    (s.heard es card clock).host = s.host := rfl
@[simp] theorem State.heard_turns (s : State) (es : List Event) (card : List Byte) (clock : List Word) :
    (s.heard es card clock).turns = s.turns := rfl
@[simp] theorem State.heard_params (s : State) (es : List Event) (card : List Byte) (clock : List Word) :
    (s.heard es card clock).params = s.params := rfl

/-- No event yet. -/
theorem State.heard_nil {s : State} {card : List Byte} {clock : List Word} (hcard : s.inputs.card = card)
    (hclock : s.inputs.clock = clock) : s.heard [] card clock = s := by
  subst hcard hclock
  simp [State.heard]

/-- An exchange is one more event. -/
@[simp] theorem State.heard_took (s : State) (es : List Event) (tx rx : Byte) (card' card : List Byte)
    (clock : List Word) : (s.heard es card' clock).took tx rx card = s.heard (es ++ [.xchg tx rx]) card clock := by
  simp [State.heard, State.took]

/-- A reading of the time input is one more event. -/
@[simp] theorem State.heard_timed (s : State) (es : List Event) (t : Word) (card : List Byte)
    (clock' clock : List Word) : (s.heard es card clock').timed t clock = s.heard (es ++ [.now t]) card clock := by
  simp [State.heard, State.timed]

/-- The exchanges of fillers (R86). -/
theorem exchanges_filler (rx : List Byte) :
    exchanges (List.replicate rx.length filler) rx = rx.map (Event.xchg filler) := by
  induction rx with
  | nil => rfl
  | cons b rx ih => exact congrArg _ ih

/-! ### One event of the bus-ready wait -/

section
variable {T t0 t : Word} {b : Byte} {s : State} {card : List Byte} {clock : List Word}

/-- The wait's first reading is its `t0` (R131). -/
theorem waitReadyStep_start (h : s.inputs.clock = t :: clock) :
    waitReadyStep T .start s = (.more (.poll t), s.timed t clock) := by
  simp only [waitReadyStep, now_of_clock h]

/-- A 0xFF ends the wait (R131). -/
theorem waitReadyStep_ready (h : s.inputs.card = 0xFF :: card) :
    waitReadyStep T (.poll t0) s = (.ret true, s.took filler 0xFF card) := by
  simp only [waitReadyStep, xchg_of_card filler h]
  rfl

/-- A busy byte leads to the deadline test (R131). -/
theorem waitReadyStep_busy (h : s.inputs.card = b :: card) (hb : b ≠ 0xFF) :
    waitReadyStep T (.poll t0) s = (.more (.test t0), s.took filler b card) := by
  simp [waitReadyStep, xchg_of_card filler h, show busReady b = false by simpa [busReady] using hb]

/-- Before the deadline the wait goes on (R131). -/
theorem waitReadyStep_early (h : s.inputs.clock = t :: clock) (ht : deadlinePassed T t0 t = false) :
    waitReadyStep T (.test t0) s = (.more (.poll t0), s.timed t clock) := by
  simp [waitReadyStep, now_of_clock h, ht]

/-- At the deadline the wait expires (R131). -/
theorem waitReadyStep_expired (h : s.inputs.clock = t :: clock) (ht : deadlinePassed T t0 t = true) :
    waitReadyStep T (.test t0) s = (.ret false, s.timed t clock) := by
  simp [waitReadyStep, now_of_clock h, ht]

end

/-! ### One event of a command -/

section
variable {c : CmdCall} {b b' r : Byte} {k m : Nat} {x : Word} {s : State} {rest card : List Byte}

/-- A 0xFF answers the probe: the frame follows (R134). -/
theorem commandStep_probe_ready (h : s.inputs.card = 0xFF :: card) :
    commandStep c .probe s = (.more (.frame (frameHead c.idx) (frameTail c.idx c.arg)), s.took filler 0xFF card) := by
  simp only [commandStep, xchg_of_card filler h]
  rfl

/-- The answer to a frame byte is dropped (R135). -/
theorem commandStep_frame_cons (h : s.inputs.card = r :: card) :
    commandStep c (.frame b (b' :: rest)) s = (.more (.frame b' rest), s.took b r card) := by
  simp only [commandStep, xchg_of_card b h]

/-- The answer to the last frame byte is dropped (R135). -/
theorem commandStep_frame_last (h : s.inputs.card = r :: card) :
    commandStep c (.frame b []) s = (.more (afterFrame c), s.took b r card) := by
  simp only [commandStep, xchg_of_card b h]

/-- The answer to a stuff byte is dropped (R135). -/
theorem commandStep_stuff_succ (h : s.inputs.card = r :: card) :
    commandStep c (.stuff (m + 1)) s = (.more (.stuff m), s.took filler r card) := by
  simp only [commandStep, xchg_of_card filler h]

/-- The answer to the last stuff byte is dropped, and the search starts (R135). -/
theorem commandStep_stuff_last (h : s.inputs.card = r :: card) :
    commandStep c (.stuff 0) s = (.more (.search 0), s.took filler r card) := by
  simp only [commandStep, xchg_of_card filler h]

/-- The search finds response[0] (R132). -/
theorem commandStep_search_found (h : s.inputs.card = r :: card) (hr : isResponse r = true) :
    commandStep c (.search k) s = afterFound c r (s.took filler r card) := by
  simp only [commandStep, xchg_of_card filler h, hr, if_true]

/-- The search goes on while exchanges are left to it (R132). -/
theorem commandStep_search_next (h : s.inputs.card = r :: card) (hr : isResponse r = false)
    (hk : k + 1 < s.params.respPollMax.toNat) :
    commandStep c (.search k) s = (.more (.search (k + 1)), s.took filler r card) := by
  simp [commandStep, xchg_of_card filler h, hr, hk]

/-- The search's last exchange finds nothing (R132). -/
theorem commandStep_search_last (h : s.inputs.card = r :: card) (hr : isResponse r = false)
    (hk : k + 1 = s.params.respPollMax.toNat) :
    commandStep c (.search k) s = (.ret .respNotFound, s.took filler r card) := by
  simp [commandStep, xchg_of_card filler h, hr, hk]

/-- The bytes gathered in RESPX, one more than before (R134). -/
def gather (x : Word) (b : Byte) : Word := (x <<< 8) ||| b.setWidth 32

/-- An extra response byte with others to follow (R134). -/
theorem commandStep_extra_succ (h : s.inputs.card = b :: card) :
    commandStep c (.extra r x (m + 1)) s = (.more (.extra r (gather x b) m), s.took filler b card) := by
  simp only [commandStep, xchg_of_card filler h, gather]

/-- The last extra response byte (R134). -/
theorem commandStep_extra_last (h : s.inputs.card = b :: card) :
    commandStep c (.extra r x 0) s = storeResp c r (gather x b) (s.took filler b card) := by
  simp only [commandStep, xchg_of_card filler h, gather]

/-- Without a busy wait a command returns once its response is stored (R134). -/
theorem storeResp_returns (hc : c.rt ≠ .r1b) : storeResp c r x s = (.ret .none, putResp (nextra c.rt) r x s) := by
  rw [storeResp, if_neg hc]

/-- The response of an R1b is stored before its busy wait (R134). -/
theorem storeResp_waits (hc : c.rt = .r1b) : storeResp c r x s = (.more (.busy .start), putResp 0 r x s) := by
  rw [storeResp, if_pos hc, hc]
  rfl

end

/-! ### The steps in which an operation ends -/

/-- SEND_CMD ends with the result its command returns (R140). -/
theorem exec_sendCmd_ret {rt : RespType} {idx : BitVec 6} {nochk : Bool} {q : CmdPos} {e : Cause} {s u : State}
    (hat : s.At (sendInstr rt idx nochk) (.sendCmd q))
    (h : commandStep (sendCall rt idx nochk s.regs) q s = (.ret e, u)) :
    exec (sendInstr rt idx nochk) s = .next (endOp (sendErr e) e u) := by
  rw [exec_at hat, codeOf_sendInstr]
  simp only [sendCmdAt, h]

/-- A class with extra bytes completes with the last of them (R143 to R145). -/
theorem exec_sendCmd_extra_last {rt : RespType} {idx : BitVec 6} {nochk : Bool} {r b : Byte} {x : Word} {s : State}
    {card : List Byte} (hrt : rt ≠ .r1b) (hat : s.At (sendInstr rt idx nochk) (.sendCmd (.extra r x 0)))
    (h : s.inputs.card = b :: card) : exec (sendInstr rt idx nochk) s =
      .next (finish (putResp (nextra rt) r (gather x b) (s.took filler b card))) :=
  exec_sendCmd_ret hat ((commandStep_extra_last h).trans (storeResp_returns hrt))

/-- Settles O16: the command returns in that step, with its response stored there, or before the busy wait for R1b. -/
theorem sendCmdCompletes : Obligations.SendCmdCompletes := by
  unfold Obligations.SendCmdCompletes
  intro idx nochk s b card hcard
  refine ⟨fun k hat hb => ?_, fun t0 hat hb => ?_, fun r hat => ?_, fun r x hat => ?_, fun r x hat => ?_⟩
  · exact exec_sendCmd_ret (rt := .r1) hat (commandStep_search_found hcard hb)
  · subst hb
    exact exec_sendCmd_ret (rt := .r1b) hat (by rw [commandStep_busy, waitReadyStep_ready hcard]; rfl)
  · have hx : gather 0 b = b.setWidth 32 := by simp [gather]
    exact hx ▸ exec_sendCmd_extra_last (rt := .r2) (by decide) hat hcard
  · exact exec_sendCmd_extra_last (rt := .r3) (by decide) hat hcard
  · exact exec_sendCmd_extra_last (rt := .r7) (by decide) hat hcard

/-- Settles O18: the equation of each frame and stuff byte names the answer in the trace alone. -/
theorem frameAndStuffAnswersAreIgnored : Obligations.FrameAndStuffAnswersAreIgnored := by
  unfold Obligations.FrameAndStuffAnswersAreIgnored
  intro c s b rx rest card more hcard
  constructor
  · cases rest with
    | nil => exact commandStep_frame_last hcard
    | cons b' rest => exact commandStep_frame_cons hcard
  · cases more with
    | zero => exact commandStep_stuff_last hcard
    | succ m => exact commandStep_stuff_succ hcard

/-- A reading `d` after `t0`, modulo 2^32, has reached the deadline exactly when `d` has (R131). -/
theorem deadlinePassed_add_iff {T t0 : Word} {d : Nat} (hd : d < 2 ^ 32) :
    deadlinePassed T t0 (t0 + BitVec.ofNat 32 d) = true ↔ T.toNat ≤ d := by
  have hdiff : (t0 + BitVec.ofNat 32 d) - t0 = BitVec.ofNat 32 d := by rw [add_sub_cancel_left]
  rw [deadlinePassed, hdiff, decide_eq_true_iff, BitVec.le_def, BitVec.toNat_ofNat, Nat.mod_eq_of_lt hd]

/-- Settles O23: the difference modulo 2^32 undoes the wrap, and 0 is reached by every reading. -/
theorem deadlineTestToleratesWrap : Obligations.DeadlineTestToleratesWrap := by
  unfold Obligations.DeadlineTestToleratesWrap
  refine ⟨fun T t0 d hd => deadlinePassed_add_iff hd, fun s t0 u b card clock hb hcard hclock => ?_⟩
  have hzero : deadlinePassed 0 t0 u = true := by simp [deadlinePassed, BitVec.le_def]
  exact ⟨waitReadyStep_busy hcard hb, waitReadyStep_expired hclock hzero⟩

/-- Settles O26: the wait returns ready, no exchange of FILL is left, the packet returns. -/
theorem waitFillAndReadDataComplete : Obligations.WaitFillAndReadDataComplete := by
  unfold Obligations.WaitFillAndReadDataComplete
  intro s b card hcard
  refine ⟨fun t0 hat hb => ?_, fun hat => ?_, fun hat => ?_⟩
  · subst hb
    rw [exec_at hat]
    simp only [codeOf, waitReadyAt, waitReadyStep_ready hcard]
    rfl
  · rw [exec_at hat]
    simp only [codeOf, fillAt, xchg_of_card filler hcard]
    rfl
  · exact Reading.readData_ends (s₀ := s) ⟨hat, rfl, rfl, rfl, hcard, rfl⟩

end Sys2Proof.Machine
end

section
/-! Whole runs of SEND_CMD, WAIT_READY and FILL: a helper procedure run for a number of scripted events, the operation that
runs it, and the bytes sent and received on the way (41_command_framer.md R131 to R145, R150, R155). -/

namespace Sys2Proof.Machine

/-! ### A helper procedure run for a number of events -/

/-- A helper that stands in `d` stands in `d'` after `n` of its events (R12, R21). -/
inductive Advances {π ρ : Type} (step : π → State → Progress π ρ × State) :
    Nat → Progress π ρ × State → Progress π ρ × State → Prop
  | refl (d : Progress π ρ × State) : Advances step 0 d d
  | more {p : π} {s : State} {n : Nat} {d' : Progress π ρ × State} (h : Advances step n (step p s) d') :
      Advances step (n + 1) (.more p, s) d'

section
variable {π ρ : Type} {step : π → State → Progress π ρ × State} {p : π} {s : State} {k n : Nat}
  {d d' d'' : Progress π ρ × State}

/-- One event, then the rest. -/
theorem Advances.cons (h : step p s = d) (h' : Advances step n d d') : Advances step (n + 1) (.more p, s) d' :=
  .more (h ▸ h')

/-- One scripted exchange, then the rest. -/
theorem Advances.byte {q : Progress π ρ} {es : List Event} {tx rx : Byte} {card : List Byte} {clock : List Word}
    (h : step p (s.heard es (rx :: card) clock) = (q, (s.heard es (rx :: card) clock).took tx rx card))
    (h' : Advances step n (q, s.heard (es ++ [.xchg tx rx]) card clock) d) :
    Advances step (n + 1) (.more p, s.heard es (rx :: card) clock) d := .cons (h.trans (by rw [State.heard_took])) h'

/-- One scripted reading of the time input, then the rest. -/
theorem Advances.time {q : Progress π ρ} {es : List Event} {t : Word} {card : List Byte} {clock : List Word}
    (h : step p (s.heard es card (t :: clock)) = (q, (s.heard es card (t :: clock)).timed t clock))
    (h' : Advances step n (q, s.heard (es ++ [.now t]) card clock) d) :
    Advances step (n + 1) (.more p, s.heard es card (t :: clock)) d := .cons (h.trans (by rw [State.heard_timed])) h'

/-- Two stretches of events are one. -/
theorem Advances.trans (h : Advances step k d d') (h' : Advances step n d' d'') : Advances step (k + n) d d'' := by
  induction h with
  | refl d => rwa [Nat.zero_add]
  | more _ ih =>
    rw [Nat.add_right_comm]
    exact .more (ih h')

/-- An operation whose step leads to a helper that returns after `n` events ends, `n` steps later, with the helper's
result. -/
theorem Advances.runOp_eq {i : Instr} {pos : π → Pos} {fin : ρ → State → State} {g : Regs} {r : ρ} {t : State}
    (hfin : ∀ r s, (fin r s).regs.status.busy = false)
    (hexec : ∀ q s, RunsWith g s → exec i (s.goes i (pos q)) = .next (helperLands i pos fin (step q s)))
    (hkeep : ∀ q s, RunsWith g s → RunsWith g (step q s).2)
    (h : Advances step n d (.ret r, t)) (hd : RunsWith g d.2)
    (hs : exec i s = .next (helperLands i pos fin d)) : runOp i (n + 1) s = .next (fin r t) := by
  generalize hret : ((.ret r, t) : Progress π ρ × State) = d' at h
  induction h generalizing s with
  | refl d =>
    subst hret
    simp [runOp, hs, helperLands, hfin]
  | @more q u n d' _ ih =>
    rw [Nat.add_comm (n + 1) 1]
    exact (StepsTo.of_exec hs hd.1 (n + 1)).trans (ih (hkeep q u hd) (hexec q u hd) hret)

end

/-! ### WAIT_READY -/

/-- The events of a wait's rounds that find the bus busy (R131). -/
def busyRounds (busy : List Byte) (ts : List Word) : List Event :=
  (List.zipWith (fun b t => [Event.xchg filler b, .now t]) busy ts).flatten

section
variable {T t0 : Word} {s : State} {es : List Event} {busy card : List Byte} {ts clock : List Word}

/-- Busy bytes before the deadline keep the wait where it is (R131). -/
theorem advances_busyRounds (hbusy : ∀ b ∈ busy, b ≠ 0xFF) (hlen : busy.length = ts.length)
    (hts : ∀ t ∈ ts, deadlinePassed T t0 t = false) : Advances (waitReadyStep T) (2 * busy.length)
      (.more (.poll t0), s.heard es (busy ++ card) (ts ++ clock))
      (.more (.poll t0), s.heard (es ++ busyRounds busy ts) card clock) := by
  induction busy generalizing ts es with
  | nil =>
    obtain rfl := List.length_eq_zero_iff.mp hlen.symm
    simpa [busyRounds] using Advances.refl _
  | cons b busy ih =>
    obtain ⟨t, ts, rfl⟩ := List.exists_cons_of_length_eq_add_one hlen.symm
    obtain ⟨hb, hbusy⟩ := List.forall_mem_cons.mp hbusy
    obtain ⟨ht, hts⟩ := List.forall_mem_cons.mp hts
    have hrest := ih (es := es ++ [.xchg filler b] ++ [.now t]) hbusy (Nat.succ.inj hlen) hts
    have hround : Advances (waitReadyStep T) (2 * busy.length + 1 + 1)
        (.more (.poll t0), s.heard es (b :: (busy ++ card)) (t :: (ts ++ clock)))
        (.more (.poll t0), s.heard (es ++ [.xchg filler b] ++ [.now t] ++ busyRounds busy ts) card clock) :=
      .byte (waitReadyStep_busy rfl hb) (.time (waitReadyStep_early rfl ht) hrest)
    simpa [busyRounds, Nat.mul_add] using hround

/-- A wait that ends ready: its `t0`, the busy rounds, a 0xFF (R131). -/
theorem advances_ready (hbusy : ∀ b ∈ busy, b ≠ 0xFF) (hlen : busy.length = ts.length)
    (hts : ∀ t ∈ ts, deadlinePassed T t0 t = false) : Advances (waitReadyStep T) (2 * busy.length + 1 + 1)
      (.more .start, s.heard es (busy ++ 0xFF :: card) (t0 :: (ts ++ clock)))
      (.ret true, s.heard (es ++ [.now t0] ++ busyRounds busy ts ++ [.xchg filler 0xFF]) card clock) :=
  .time (waitReadyStep_start rfl)
    ((advances_busyRounds hbusy hlen hts).trans (.byte (waitReadyStep_ready rfl) (.refl _)))

/-- A wait that expires: its `t0`, the busy rounds, a busy byte and a reading at the deadline (R131). -/
theorem advances_expired {b : Byte} {u : Word} (hbusy : ∀ b ∈ busy, b ≠ 0xFF) (hlen : busy.length = ts.length)
    (hts : ∀ t ∈ ts, deadlinePassed T t0 t = false) (hb : b ≠ 0xFF) (hu : deadlinePassed T t0 u = true) :
    Advances (waitReadyStep T) (2 * busy.length + 2 + 1)
      (.more .start, s.heard es (busy ++ b :: card) (t0 :: (ts ++ u :: clock)))
      (.ret false, s.heard (es ++ [.now t0] ++ busyRounds busy ts ++ [.xchg filler b] ++ [.now u]) card clock) :=
  .time (waitReadyStep_start rfl) ((advances_busyRounds hbusy hlen hts).trans
    (.byte (waitReadyStep_busy rfl hb) (.time (waitReadyStep_expired rfl hu) (.refl _))))

end

/-- WAIT_READY written to an idle block ends with the result of its wait (R150). -/
theorem waitReady_runOp {s t : State} {n : Nat} {w : Bool} (hs : s.Idle)
    (h : Advances (waitReadyStep s.regs.tmoCmd) n (.more .start, accept (encode .waitReady) s) (.ret w, t)) :
    runOp .waitReady (n + 1) s = .next (if w then finish t else endOp .timeout .busyTimeout t) := by
  rw [h.runOp_eq (fin := fun w => if w then finish else endOp .timeout .busyTimeout) (fun w _ => by cases w <;> rfl)
    exec_waitReady_goes (waitReadyStep_runsWith _) (runsWith_accept _ s) (exec_idle hs.1)]
  cases w <;> rfl

/-- Settles O22: the wait by induction on its busy rounds, then the round that ends it. -/
theorem waitReadyPollsUntilReadyOrDeadline : Obligations.WaitReadyPollsUntilReadyOrDeadline := by
  unfold Obligations.WaitReadyPollsUntilReadyOrDeadline
  intro s busy card t0 ts clock hs hbusy hlen hts
  constructor
  · intro hcard hclock
    have hwait := advances_ready (s := accept (encode .waitReady) s) (es := []) (card := card) (clock := clock)
      hbusy hlen hts
    rw [State.heard_nil (by simpa using hcard) (by simpa using hclock)] at hwait
    rw [show 1 + 1 + 2 * busy.length + 1 = 2 * busy.length + 1 + 1 + 1 by omega, waitReady_runOp hs hwait]
    simp only [List.append_assoc, List.nil_append]
    rfl
  · intro b u hb hu hcard hclock
    have hwait := advances_expired (s := accept (encode .waitReady) s) (es := []) (card := card) (clock := clock)
      hbusy hlen hts hb hu
    rw [State.heard_nil (by simpa using hcard) (by simpa using hclock)] at hwait
    rw [show 1 + 1 + 2 * busy.length + 2 = 2 * busy.length + 2 + 1 + 1 by omega, waitReady_runOp hs hwait]
    simp only [List.append_assoc, List.nil_append]
    rfl

/-! ### FILL -/

/-- A FILL that has `n` exchanges to do ends after them, whatever the card returns (R155). -/
theorem fillFrom_runOp {p : Pos} : ∀ {n : Nat} {s u : State}, s.regs.status.busy = true →
    exec .fill u = .next (fillFrom n (s.goes .fill p)) → ∃ (rx : List Byte) (m : Inputs), rx.length = n ∧
      runOp .fill (1 + n) u = .next (finish { s with inputs := m, trace := s.trace ++ rx.map (.xchg filler) })
  | 0, s, u, _, h => ⟨[], s.inputs, rfl, by simp [runOp, h, fillFrom]; rfl⟩
  | n + 1, s, u, hb, h => by
    obtain ⟨b, m, hx⟩ := xchg_spec filler s
    obtain ⟨rx, m', hlen, hrun⟩ := fillFrom_runOp (s := (xchg filler s).2) hb
      (exec_at (State.goes_seq s .fill (.fill n)))
    have hfirst : runOp .fill (1 + (n + 1)) u = runOp .fill (n + 1) (s.goes .fill (.fill n)) :=
      StepsTo.of_exec h hb (n + 1)
    refine ⟨b :: rx, m', congrArg _ hlen, ?_⟩
    rw [hfirst, Nat.add_comm n 1, hrun, hx]
    simp [State.after]

/-- Settles O25: by induction on the exchanges still to do. -/
theorem fillClocksCountFillerBytes : Obligations.FillClocksCountFillerBytes := by
  unfold Obligations.FillClocksCountFillerBytes
  intro s hs
  obtain ⟨rx, m, hlen, hrun⟩ := fillFrom_runOp (s := accept (encode .fill) s) (p := .start) rfl (exec_idle hs.1)
  exact ⟨_, rx, hrun, hlen, rfl, rfl, rfl, rfl⟩

/-! ### A command -/

section
variable {c : CmdCall} {s : State} {es : List Event} {card : List Byte} {clock : List Word}

/-- The rest of the frame is sent whatever the card returns (R134, R135). -/
theorem advances_frame : ∀ {rest frx : List Byte} {b : Byte} {es : List Event}, frx.length = rest.length + 1 →
    Advances (commandStep c) (rest.length + 1) (.more (.frame b rest), s.heard es (frx ++ card) clock)
      (.more (afterFrame c), s.heard (es ++ exchanges (b :: rest) frx) card clock)
  | [], [r], b, es, _ => .byte (commandStep_frame_last rfl) (.refl _)
  | b' :: rest, r :: frx, b, es, h => by
    have hrest := advances_frame (b := b') (es := es ++ [.xchg b r]) (Nat.succ.inj h)
    rw [List.append_assoc] at hrest
    exact .byte (commandStep_frame_cons rfl) hrest

/-- Search exchanges that find nothing, with others left (R132). -/
theorem advances_noise : ∀ {noise : List Byte} {k : Nat} {es : List Event},
    k + noise.length < s.params.respPollMax.toNat → (∀ b ∈ noise, isResponse b = false) →
    Advances (commandStep c) noise.length (.more (.search k), s.heard es (noise ++ card) clock)
      (.more (.search (k + noise.length)), s.heard (es ++ noise.map (.xchg filler)) card clock)
  | [], k, es, _, _ => by
    rw [List.map_nil, List.append_nil]
    exact .refl _
  | b :: noise, k, es, hk, hnoise => by
    obtain ⟨hb, hnoise⟩ := List.forall_mem_cons.mp hnoise
    rw [List.length_cons, Nat.add_comm noise.length, ← Nat.add_assoc] at hk ⊢
    have hrest := advances_noise (es := es ++ [.xchg filler b]) hk hnoise
    rw [List.append_assoc] at hrest
    rw [Nat.add_comm 1]
    exact .byte (commandStep_search_next rfl hb (by rw [State.heard_params]; omega)) hrest

/-- A search that finds nothing (R132). -/
theorem advances_quiet {quiet : List Byte} (hlen : quiet.length = s.params.respPollMax.toNat)
    (hquiet : ∀ b ∈ quiet, isResponse b = false) : Advances (commandStep c) quiet.length
      (.more (.search 0), s.heard es (quiet ++ card) clock)
      (.ret .respNotFound, s.heard (es ++ quiet.map (.xchg filler)) card clock) := by
  obtain rfl | ⟨noise, b, rfl⟩ := List.eq_nil_or_concat' quiet
  · exact absurd hlen (respPollMax_pos _).ne
  · rw [List.length_append, List.length_singleton] at hlen ⊢
    have hnoise := advances_noise (c := c) (s := s) (k := 0) (es := es) (card := b :: card) (clock := clock) (by omega)
      fun x hx => hquiet x (List.mem_append_left _ hx)
    have hlast := hnoise.trans
      (.byte (commandStep_search_last rfl (hquiet b (by simp)) (by simpa using hlen)) (.refl _))
    simpa using hlast

/-- The extra response bytes, then the response is stored (R134). -/
theorem advances_extra : ∀ {xs : List Byte} {b r : Byte} {x : Word} {es : List Event},
    Advances (commandStep c) (xs.length + 1) (.more (.extra r x xs.length), s.heard es (b :: (xs ++ card)) clock)
      (storeResp c r ((b :: xs).foldl gather x) (s.heard (es ++ (b :: xs).map (.xchg filler)) card clock))
  | [], b, r, x, es => .cons ((commandStep_extra_last rfl).trans (by rw [State.heard_took]; rfl)) (.refl _)
  | b' :: xs, b, r, x, es => by
    have hrest := advances_extra (xs := xs) (b := b') (r := r) (x := gather x b) (es := es ++ [.xchg filler b])
    rw [List.append_assoc] at hrest
    exact .byte (commandStep_extra_succ rfl) hrest

/-- From response[0] on: the extra bytes of the class, then the response is stored (R133, R134). -/
theorem advances_afterFound {r : Byte} {xs : List Byte} (hlen : xs.length = nextra c.rt) :
    Advances (commandStep c) xs.length (afterFound c r (s.heard es (xs ++ card) clock))
      (storeResp c r (xs.foldl gather 0) (s.heard (es ++ xs.map (.xchg filler)) card clock)) := by
  cases xs with
  | nil =>
    rw [afterFound, ← hlen, List.map_nil, List.append_nil]
    exact .refl _
  | cons b xs =>
    rw [afterFound, ← hlen]
    exact advances_extra

/-- A search that finds response[0], and the class's extra bytes (R132 to R134). -/
theorem advances_response {noise xs : List Byte} {r : Byte} (hnoise : noise.length < s.params.respPollMax.toNat)
    (hquiet : ∀ b ∈ noise, isResponse b = false) (hr : isResponse r = true) (hlen : xs.length = nextra c.rt) :
    Advances (commandStep c) (noise.length + (xs.length + 1))
      (.more (.search 0), s.heard es (noise ++ r :: (xs ++ card)) clock)
      (storeResp c r (xs.foldl gather 0)
        (s.heard (es ++ (noise ++ r :: xs).map (.xchg filler)) card clock)) := by
  have hfound := (advances_noise (c := c) (es := es) (card := r :: (xs ++ card)) (clock := clock)
    (by rwa [Nat.zero_add]) hquiet).trans 
    (.cons ((commandStep_search_found rfl hr).trans (by rw [State.heard_took])) (advances_afterFound hlen))
  simpa using hfound

end

/-! ### SEND_CMD -/

/-- The state of a SEND_CMD before its first event: the accept, the frame built, RESP and RESPX cleared (R134, R240). -/
def sendStarted (rt : RespType) (idx : BitVec 6) (nochk : Bool) (s : State) : State :=
  clearResp (buildFrame idx s.regs.arg (accept (encode (sendInstr rt idx nochk)) s))

/-- The exchanges of a SEND_CMD up to the end of its frame: the probe that finds the bus ready, with NOCHK = 0, and the six
frame bytes, answered by `frx` (R134, R140). -/
def frameExchanges (idx : BitVec 6) (nochk : Bool) (arg : Word) (frx : List Byte) : List Event :=
  exchanges ((if nochk then [] else [0xFF]) ++ frameBytes idx arg) ((if nochk then [] else [0xFF]) ++ frx)

/-- The exchanges of the frame, then of fillers. -/
theorem frameExchanges_append_filler {idx : BitVec 6} {nochk : Bool} {arg : Word} {frx : List Byte} (rx : List Byte)
    (hfrx : frx.length = 6) : frameExchanges idx nochk arg frx ++ rx.map (Event.xchg filler) =
      exchanges ((if nochk then [] else [0xFF]) ++ frameBytes idx arg ++ List.replicate rx.length 0xFF)
        ((if nochk then [] else [0xFF]) ++ frx ++ rx) := by
  have hlen : ((if nochk then [] else [0xFF]) ++ frameBytes idx arg).length =
      ((if nochk then [] else [0xFF]) ++ frx).length := by
    rw [List.length_append, List.length_append, hfrx]
    rfl
  rw [exchanges, List.zipWith_append hlen, ← exchanges_filler]
  rfl

section
variable {rt : RespType} {idx : BitVec 6} {nochk : Bool} {s t : State} {frx card : List Byte} {clock : List Word} {n : Nat}

/-- A SEND_CMD from its first event to the end of its frame (R134, R140). -/
theorem advances_framed {g : Regs} {v : State} (hfrx : frx.length = 6) :
    Advances (commandStep (sendCall rt idx nochk g)) ((if nochk then 0 else 1) + 6)
      (.more (commandStart (sendCall rt idx nochk g) v).1,
        s.heard [] ((if nochk then [] else [0xFF]) ++ frx ++ card) clock)
      (.more (.search 0), s.heard (frameExchanges idx nochk g.arg frx) card clock) := by
  have hframe (es : List Event) := advances_frame (c := sendCall rt idx nochk g) (rest := frameTail idx g.arg)
    (frx := frx) (b := frameHead idx) (es := es) (s := s) (card := card) (clock := clock) hfrx
  cases nochk with
  | true => exact hframe []
  | false =>
    rw [Nat.add_comm]
    exact .byte (commandStep_probe_ready rfl) (hframe [.xchg filler 0xFF])

/-- SEND_CMD written to an idle block ends, once its frame is sent, with the result of its command (R134, R140). -/
theorem sendCmd_runOp {e : Cause} (hs : s.Idle) (hfrx : frx.length = 6)
    (hcard : s.inputs.card = (if nochk then [] else [0xFF]) ++ frx ++ card)
    (h : Advances (commandStep (sendCall rt idx nochk s.regs)) n (.more (.search 0),
      (sendStarted rt idx nochk s).heard (frameExchanges idx nochk s.regs.arg frx) card s.inputs.clock) (.ret e, t)) :
    runOp (sendInstr rt idx nochk) (1 + (if nochk then 0 else 1) + 6 + n) s = .next (endOp (sendErr e) e t) := by
  have hframed := advances_framed (rt := rt) (idx := idx) (nochk := nochk) (g := s.regs)
    (s := sendStarted rt idx nochk s) (v := accept (encode (sendInstr rt idx nochk)) s) (card := card)
    (clock := s.inputs.clock) hfrx
  have hinputs : (sendStarted rt idx nochk s).heard [] ((if nochk then [] else [0xFF]) ++ frx ++ card) s.inputs.clock =
      sendStarted rt idx nochk s := State.heard_nil hcard rfl
  rw [hinputs] at hframed
  have hexec : exec (sendInstr rt idx nochk) s = .next (helperLands (sendInstr rt idx nochk) .sendCmd
      (fun e => endOp (sendErr e) e) (.more (commandStart (sendCall rt idx nochk s.regs)
        (accept (encode (sendInstr rt idx nochk)) s)).1, sendStarted rt idx nochk s)) := by
    rw [exec_idle hs.1, codeOf_sendInstr]
    rfl
  have hrun := (hframed.trans h).runOp_eq (fun _ _ => rfl) exec_sendCmd_goes (commandStep_runsWith _)
    (runsWith_accept (encode (sendInstr rt idx nochk)) s) hexec
  rwa [Nat.add_comm _ 1, ← Nat.add_assoc, ← Nat.add_assoc] at hrun

end

/-- Settles O21: the search runs through its budget, and RESP and RESPX are as the first step cleared them. -/
theorem noResponseEndsSendCmd : Obligations.NoResponseEndsSendCmd := by
  unfold Obligations.NoResponseEndsSendCmd
  intro rt idx nochk s frx noise card hs hfrx hlen hnoise hcard
  rw [List.append_assoc _ noise] at hcard
  exact ⟨_, sendCmd_runOp hs hfrx hcard (advances_quiet hlen hnoise), ⟨rfl, rfl, rfl, rfl, rfl⟩, rfl, rfl,
    regWord_resp_of_cleared rfl rfl, rfl⟩

/-! ### RESP and RESPX -/

/-- RESP as the host reads it once a response is stored (R29, R134). -/
theorem regWord_resp_putResp (rt : RespType) (r : Byte) (x : Word) (s : State) :
    regWord (putResp (nextra rt) r x s).regs .resp = (BitVec.ofNat 32 (1 + nextra rt) <<< 8) ||| r.setWidth 32 := by
  rw [BitVec.or_comm]
  cases rt <;> rfl

/-- One more byte gathered is one more digit to the base 256, while RESPX has room for it (R30, R134). -/
theorem gather_toNat {x : Word} (b : Byte) (hx : x.toNat < 2 ^ 24) : (gather x b).toNat = 256 * x.toNat + b.toNat := by
  have hshift : (x <<< 8).toNat = x.toNat <<< 8 := by
    rw [BitVec.toNat_shiftLeft, Nat.shiftLeft_eq, Nat.mod_eq_of_lt (by omega)]
  have hwide : (b.setWidth 32).toNat = b.toNat := BitVec.toNat_setWidth_of_le (by decide)
  rw [gather, BitVec.toNat_or, hshift, hwide, ← Nat.shiftLeft_add_eq_or_of_lt b.isLt, Nat.shiftLeft_eq, Nat.mul_comm]

/-- Up to four extra bytes stand in RESPX most significant first (R30, R134). -/
theorem foldl_gather_toNat : ∀ (xs : List Byte) (k : Nat) (x : Word), k + xs.length ≤ 4 → x.toNat < 256 ^ k →
    (xs.foldl gather x).toNat = xs.foldl (fun n b => 256 * n + b.toNat) x.toNat
  | [], _, _, _, _ => rfl
  | b :: xs, k, x, hk, hx => by
    rw [List.length_cons] at hk
    have hpow : 256 ^ k ≤ 256 ^ 3 := Nat.pow_le_pow_right (by decide) (by omega)
    have hgather := gather_toNat (x := x) b (by omega)
    have hlt : (gather x b).toNat < 256 ^ (k + 1) := by
      have := b.isLt
      rw [Nat.pow_succ]
      omega
    rw [List.foldl_cons, List.foldl_cons, ← hgather]
    exact foldl_gather_toNat xs (k + 1) _ (by omega) hlt

/-- Settles O19: the search finds the response and the extra bytes are gathered; without a response R7 ends as every
class does. -/
theorem sendCmdCollectsItsResponse : Obligations.SendCmdCollectsItsResponse := by
  unfold Obligations.SendCmdCollectsItsResponse
  constructor
  · intro rt idx nochk s frx noise xs card r hs hrt hfrx hnoise hquiet hr hxs hcard
    have hresp := advances_response (c := sendCall rt idx nochk s.regs) (s := sendStarted rt idx nochk s)
      (es := frameExchanges idx nochk s.regs.arg frx) (card := card) (clock := s.inputs.clock) hnoise hquiet hr hxs
    rw [storeResp_returns hrt] at hresp
    have hrun := sendCmd_runOp hs hfrx (by simpa using hcard) hresp
    have hcount : (noise ++ r :: xs).length = noise.length + 1 + xs.length := by simp; omega
    have hsent := frameExchanges_append_filler (idx := idx) (nochk := nochk) (arg := s.regs.arg) (noise ++ r :: xs) hfrx
    rw [show ∀ a : Nat, a + (noise.length + (xs.length + 1)) = a + noise.length + 1 + xs.length by omega] at hrun
    refine ⟨_, hrun, ⟨rfl, rfl, rfl, rfl, rfl⟩, rfl, rfl, ?_, regWord_resp_putResp rt r (xs.foldl gather 0) s, ?_⟩
    · rw [← hcount, List.append_assoc _ [r] xs, List.append_assoc _ noise]
      exact congrArg _ hsent
    · exact foldl_gather_toNat xs 0 0 (by rw [hxs, Nat.zero_add]; exact nextra_le_four rt) (by decide)
  · intro idx nochk s frx quiet card hs hfrx hlen hquiet hcard
    obtain ⟨t, hrun, hend, -⟩ := noResponseEndsSendCmd .r7 idx nochk s frx quiet card hs hfrx hlen hquiet hcard
    exact ⟨t, hrun, hend⟩

/-! ### The busy wait of an R1b -/

/-- A command's busy wait advances as the wait does (R134). -/
theorem Advances.busy {c : CmdCall} {n : Nat} {d d' : Progress WaitPos Bool × State}
    (h : Advances (waitReadyStep c.tbusy) n d d') :
    Advances (commandStep c) n (busyProgress d.1, d.2) (busyProgress d'.1, d'.2) := by
  induction h with
  | refl d => exact .refl _
  | more _ ih => exact .more (by rwa [commandStep_busy])

/-- SEND_CMD R1b whose search finds response[0] stores it and ends with the result of its bus-ready wait (R142). -/
theorem sendCmdR1b_runOp {idx : BitVec 6} {nochk w : Bool} {s t : State} {frx noise card : List Byte} {r : Byte} {n : Nat}
    (hs : s.Idle) (hfrx : frx.length = 6) (hnoise : noise.length < s.params.respPollMax.toNat)
    (hquiet : ∀ b ∈ noise, isResponse b = false) (hr : isResponse r = true)
    (hcard : s.inputs.card = (if nochk then [] else [0xFF]) ++ frx ++ (noise ++ r :: card))
    (hwait : Advances (waitReadyStep s.regs.tmoCmd) n (.more .start, (putResp 0 r 0 (sendStarted .r1b idx nochk s)).heard
      (frameExchanges idx nochk s.regs.arg frx ++ (noise ++ [r]).map (.xchg filler)) card s.inputs.clock) (.ret w, t)) :
    runOp (.sendCmdR1b idx nochk) (1 + (if nochk then 0 else 1) + 6 + (noise.length + 1 + n)) s =
      .next (if w then finish t else endOp .timeout .busyTimeout t) := by
  have hresp := advances_response (c := sendCall .r1b idx nochk s.regs) (s := sendStarted .r1b idx nochk s) (xs := [])
    (es := frameExchanges idx nochk s.regs.arg frx) (card := card) (clock := s.inputs.clock) hnoise hquiet hr rfl
  rw [storeResp_waits rfl] at hresp
  have hbusy := Advances.busy (c := sendCall .r1b idx nochk s.regs) hwait
  have hrun := sendCmd_runOp hs hfrx hcard (hresp.trans hbusy)
  cases w <;> exact hrun

/-- Settles O20: the response, then the bus-ready wait of WAIT_READY; without a response SEND_CMD ends as every class
does, and reads no time. -/
theorem sendCmdR1bWaitsForBusReady : Obligations.SendCmdR1bWaitsForBusReady := by
  unfold Obligations.SendCmdR1bWaitsForBusReady
  intro idx nochk s frx noise busy card r t0 ts clock hs hfrx hnoise hquiet hr hbusy hlen hts
  refine ⟨fun hcard hclock => ?_, fun b u hb hu hcard hclock => ?_, fun quiet hlen hquiet hcard => ?_⟩
  · have hwait := advances_ready (s := putResp 0 r 0 (sendStarted .r1b idx nochk s)) (card := card) (clock := clock)
      (es := frameExchanges idx nochk s.regs.arg frx ++ (noise ++ [r]).map (.xchg filler)) hbusy hlen hts
    rw [← List.cons_append, ← hclock] at hwait
    have hrun := sendCmdR1b_runOp hs hfrx hnoise hquiet hr (by simpa using hcard) hwait
    rw [show ∀ a : Nat, a + (noise.length + 1 + (2 * busy.length + 1 + 1)) = a + noise.length + 1 + 1 + 2 * busy.length + 1
      by omega] at hrun
    exact ⟨_, hrun, ⟨rfl, rfl, rfl, rfl, rfl⟩, regWord_resp_putResp .r1b r 0 s, rfl⟩
  · have hwait := advances_expired (s := putResp 0 r 0 (sendStarted .r1b idx nochk s)) (card := card) (clock := clock)
      (es := frameExchanges idx nochk s.regs.arg frx ++ (noise ++ [r]).map (.xchg filler)) hbusy hlen hts hb hu
    rw [show t0 :: (ts ++ u :: clock) = s.inputs.clock by simp [hclock]] at hwait
    have hrun := sendCmdR1b_runOp hs hfrx hnoise hquiet hr (by simpa using hcard) hwait
    rw [show ∀ a : Nat, a + (noise.length + 1 + (2 * busy.length + 2 + 1)) = a + noise.length + 1 + 1 + 2 * busy.length + 2
      by omega] at hrun
    exact ⟨_, hrun, ⟨rfl, rfl, rfl, rfl, rfl⟩, regWord_resp_putResp .r1b r 0 s, rfl⟩
  · obtain ⟨t, hrun, hend, -, hkept, -⟩ :=
      noResponseEndsSendCmd .r1b idx nochk s frx quiet card hs hfrx hlen hquiet hcard
    exact ⟨t, hrun, hend, hkept⟩

end Sys2Proof.Machine
end

section
/-! Helper procedures that may access buffer memory, run event by event: what they keep, a helper run inside another, and an
operation that goes on with a helper's result (00_scope.md R12, 10_state.md R21, 42_data_tokens.md R170 to R179,
43_stream_sequencer.md R202). -/

namespace Sys2Proof.Machine

/-! ### What every helper keeps -/

/-- The block is busy with the operands and the parameters of `s₀`, which no operation writes (R8, R38). -/
def RunsLike (s₀ s : State) : Prop := RunsWith s₀.regs s ∧ s.params = s₀.params

/-- An accepted operation runs (R240). -/
theorem runsLike_accept (w : Word) (s : State) : RunsLike (accept w s) (accept w s) := ⟨⟨rfl, .of_eq rfl⟩, rfl⟩

/-- A helper, one event at a time, neither looks at SEQ nor moves it, and leaves the block running with its operands and
parameters. -/
structure Steady {π ρ : Type} (step : π → State → Out (Progress π ρ × State)) : Prop where
  goes : ∀ {q s d}, step q s = .next d → ∀ i p, step q (s.goes i p) = .next (d.1, d.2.goes i p)
  keeps : ∀ {s₀ q s d}, RunsLike s₀ s → step q s = .next d → RunsLike s₀ d.2

/-- A helper without buffer accesses, which always answers. -/
def answering {π ρ : Type} (step : π → State → Progress π ρ × State) : π → State → Out (Progress π ρ × State) :=
  fun q s => .next (step q s)

/-- Such a helper is steady when each of its events is. -/
theorem Steady.of_answering {π ρ : Type} {step : π → State → Progress π ρ × State}
    (hgoes : ∀ q s i p, step q (s.goes i p) = ((step q s).1, (step q s).2.goes i p))
    (hkeeps : ∀ s₀ q s, RunsLike s₀ s → RunsLike s₀ (step q s).2) : Steady (answering step) where
  goes h i p := by
    cases h
    exact congrArg _ (hgoes _ _ i p)
  keeps hs h := by
    cases h
    exact hkeeps _ _ _ hs

/-- An event and a response stored leave the block running as before (R134). -/
theorem RunsLike.of_command {s₀ s : State} (c : CmdCall) (q : CmdPos) (h : RunsLike s₀ s) :
    RunsLike s₀ (commandStep c q s).2 := by
  obtain ⟨e, n, hs | ⟨r, x, hs⟩⟩ := commandStep_state c q s <;> rw [hs] <;> exact h

/-- So does an event alone. -/
theorem RunsLike.of_after {s₀ s u : State} (h : RunsLike s₀ s) (hu : ∃ e n, u = s.after e n) : RunsLike s₀ u := by
  obtain ⟨e, n, rfl⟩ := hu
  exact h

/-- The bus-ready wait (R131). -/
theorem waitReadyStep_steady (T : Word) : Steady (answering (waitReadyStep T)) :=
  .of_answering (waitReadyStep_goes T) fun _ q s h => h.of_after (waitReadyStep_state T q s)

/-- `command` (R134). -/
theorem commandStep_steady (c : CmdCall) : Steady (answering (commandStep c)) :=
  .of_answering (commandStep_goes c) fun _ q _ h => h.of_command c q

/-- One event of the start-token detector neither looks at SEQ nor moves it (R21). -/
theorem waitTokenStep_goes (T : Word) (q : TokenPos) (s : State) (i : Instr) (p : Pos) :
    waitTokenStep T q (s.goes i p) = ((waitTokenStep T q s).1, (waitTokenStep T q s).2.goes i p) := by
  cases q <;> rfl

/-- The start-token detector (R170). -/
theorem waitTokenStep_steady (T : Word) : Steady (answering (waitTokenStep T)) :=
  .of_answering (waitTokenStep_goes T) fun _ q s h => h.of_after (waitTokenStep_spec T q s).1

/-- One event of a data command neither looks at SEQ nor moves it (R21). -/
theorem seqCommandStep_goes (idx : BitVec 6) (q : SeqCmdPos) (s : State) (i : Instr) (p : Pos) :
    seqCommandStep idx q (s.goes i p) = ((seqCommandStep idx q s).1, (seqCommandStep idx q s).2.goes i p) := by
  cases q with
  | ready w =>
    simp only [seqCommandStep, waitReadyStep_goes, State.goes_regs]
    cases (waitReadyStep s.regs.tmoBusy w s).1 with
    | more w' => rfl
    | ret b => cases b <;> rfl
  | cmd q => simp only [seqCommandStep, commandStep_goes, State.goes_regs]

/-- `seq_command` (R202). -/
theorem seqCommandStep_steady (idx : BitVec 6) : Steady (answering (seqCommandStep idx)) :=
  .of_answering (seqCommandStep_goes idx) fun s₀ q s h => by
    obtain ⟨e, n, hs | hs | ⟨r, x, hs⟩⟩ := seqCommandStep_state idx q s <;> rw [hs] <;> exact h

/-- One event of the stop sequence neither looks at SEQ nor moves it (R21). -/
theorem stopWriteStep_goes (T : Word) (q : StopPos) (s : State) (i : Instr) (p : Pos) :
    stopWriteStep T q (s.goes i p) = ((stopWriteStep T q s).1, (stopWriteStep T q s).2.goes i p) := by
  cases q with
  | ready1 w => simp only [stopWriteStep, waitReadyStep_goes]
  | token w1 => rfl
  | skip w1 more => rfl
  | ready2 w1 w => simp only [stopWriteStep, waitReadyStep_goes]

/-- `stop_write` (R179). -/
theorem stopWriteStep_steady (T : Word) : Steady (answering (stopWriteStep T)) :=
  .of_answering (stopWriteStep_goes T) fun _ q s h => h.of_after (stopWriteStep_state T q s)

/-- `read_packet` (R172). -/
theorem readPacketStep_steady (len : Nat) (base T : Word) : Steady (readPacketStep len base T) where
  goes {q s d} h i p := by
    cases q with
    | token w =>
      cases h
      simp only [readPacketStep, waitTokenStep_goes]
    | store j b =>
      obtain ⟨u, hw, h⟩ := onNext_eq_next h
      obtain ⟨ha, rfl⟩ := memWrite_next hw
      cases h
      rw [readPacketStep, memWrite_of_admits b (s := s.goes i p) ha]
      rfl
    | _ =>
      cases h
      rfl
  keeps hs h := by
    obtain ⟨⟨e, n, -, hd⟩ | ⟨j, b, -, -, hd⟩, -⟩ := readPacketStep_spec h <;> rw [hd] <;> exact hs

/-- `write_packet` (R177). -/
theorem writePacketStep_steady (tok : Byte) (base T : Word) : Steady (writePacketStep tok base T) where
  goes {q s d} h i p := by
    cases q with
    | ready w =>
      cases h
      simp only [writePacketStep, waitReadyStep_goes]
    | fetch j =>
      obtain ⟨u, hr, h⟩ := onNext_eq_next h
      obtain ⟨ha, rfl⟩ := memRead_next hr
      cases h
      rw [writePacketStep, memRead_of_admits (s := s.goes i p) ha]
      rfl
    | _ =>
      cases h
      rfl
  keeps hs h := hs.of_after (writePacketStep_spec h).1

/-! ### A helper run to its result -/

/-- A helper that stands in `d` returns `r` in state `t` when its events are run one after the other and the memory admits
each access (R12, R21, R61). -/
inductive Returns {π ρ : Type} (step : π → State → Out (Progress π ρ × State)) : Progress π ρ × State → ρ → State → Prop
  | ret (r : ρ) (t : State) : Returns step (.ret r, t) r t
  | more {p : π} {s t : State} {d : Progress π ρ × State} {r : ρ} (hp : step p s = .next d) (h : Returns step d r t) :
      Returns step (.more p, s) r t

/-- A helper without buffer accesses returns what it reaches. -/
theorem Reaches.returns {π ρ : Type} {step : π → State → Progress π ρ × State} {d : Progress π ρ × State} {r : ρ}
    {t : State} (h : Reaches step d r t) : Returns (answering step) d r t := by
  induction h with
  | ret r t => exact .ret r t
  | more _ ih => exact .more rfl ih

/-- A helper run inside another: its points are points of the other, and `fin` is what the other does with its result. -/
def within {π ρ π' ρ' : Type} (pos : π → π') (fin : ρ → State → Progress π' ρ' × State) (d : Progress π ρ × State) :
    Progress π' ρ' × State :=
  match d.1 with
  | .more q => (.more (pos q), d.2)
  | .ret r => fin r d.2

section
variable {π ρ : Type} {step : π → State → Out (Progress π ρ × State)} {s₀ s t u : State} {r : ρ}

/-- A helper that runs another one returns what it returns with the other's result (R12). -/
theorem Returns.inside {π' ρ' : Type} {step' : π' → State → Out (Progress π' ρ' × State)} {pos : π → π'}
    {fin : ρ → State → Progress π' ρ' × State} {d : Progress π ρ × State} {r' : ρ'} (hsteady : Steady step)
    (hstep : ∀ q s d, RunsLike s₀ s → step q s = .next d → step' (pos q) s = .next (within pos fin d))
    (h : Returns step d r u) (hd : RunsLike s₀ d.2) (hnext : RunsLike s₀ u → Returns step' (fin r u) r' t) :
    Returns step' (within pos fin d) r' t := by
  induction h with
  | ret r u => exact hnext hd
  | more hp _ ih => exact .more (hstep _ _ _ hd hp) (ih (hsteady.keeps hd hp) hnext)

/-- Where an operation's step leads when its helper stands in `d`: SEQ moves to the helper's next point, or `fin` is done
with the helper's result (R12, R21). -/
def landsAt (pos : π → Pos) (fin : ρ → State → State) (d : Progress π ρ × State) : State :=
  match d.1 with
  | .more q => goto (pos q) d.2
  | .ret r => fin r d.2

/-- An operation that runs a helper ends where it ends with the helper's result (R12, R21). -/
theorem Returns.endsIn {i : Instr} {pos : π → Pos} {fin : ρ → State → State} {q : π} (hsteady : Steady step)
    (hexec : ∀ q s d, RunsLike s₀ s → s.At i (pos q) → step q s = .next d → exec i s = .next (landsAt pos fin d))
    (h : Returns step (.more q, s) r u) (hs : RunsLike s₀ s)
    (hnext : ∀ p, RunsLike s₀ u → EndsIn i (fin r (u.goes i p)) t) : EndsIn i (s.goes i (pos q)) t := by
  generalize hd : ((.more q, s) : Progress π ρ × State) = d at h
  induction h generalizing q s with
  | ret r u => cases hd
  | @more q s u d r hp hret ih =>
    cases hd
    have hkept := hsteady.keeps hs hp
    refine .step hs.1.1 (hexec _ _ _ hs (State.goes_seq ..) (hsteady.goes hp i (pos q))) ?_
    obtain ⟨q' | r', v⟩ := d
    · exact ih (q := q') (s := v) hkept hnext rfl
    · cases hret
      exact hnext _ hkept

end

/-! ### The data packets -/

/-- The rounds of `wait_token` (R170). -/
theorem waitTokenLoop_reaches {T t0 : Word} {c : Cause} {t : State} : ∀ {n : Nat} {s : State},
    waitTokenLoop T t0 n s = some (c, t) → Reaches (waitTokenStep T) (.more (.poll t0), s) c t
  | 0, s, h => by cases h
  | n + 1, s, h => by
    simp only [waitTokenLoop, Act.xchgA_bind, Act.nowA_bind, Act.ite_apply, Act.pure_apply] at h
    refine .more ?_
    simp only [waitTokenStep]
    split at h
    · cases h
      rw [if_pos ‹_›]
      exact .ret _ _
    · rw [if_neg ‹_›]
      split at h
      · rw [if_pos ‹_›]
        refine .more ?_
        simp only [waitTokenStep]
        split at h
        · cases h
          rw [if_pos ‹_›]
          exact .ret _ _
        · rw [if_neg ‹_›]
          exact waitTokenLoop_reaches h
      · cases h
        rw [if_neg ‹_›]
        exact .ret _ _

/-- `wait_token` (R170). -/
theorem waitTokenP_reaches {fuel : Nat} {T : Word} {c : Cause} {s t : State} (h : waitTokenP fuel T s = some (c, t)) :
    Reaches (waitTokenStep T) (.more .start, s) c t := by
  rw [waitTokenP, Act.nowA_bind] at h
  exact .more (waitTokenLoop_reaches h)

/-- A buffer write run whole is one the memory admits (R61). -/
theorem memWriteA_eq_some {a : Word} {v : Byte} {s : State} {d : Unit × State} (h : memWriteA a v s = some d) :
    memWrite a v s = .next d.2 := by
  unfold memWriteA at h
  split at h <;> cases h
  assumption

/-- A buffer read run whole is one the memory admits (R61). -/
theorem memReadA_eq_some {a : Word} {s : State} {d : Byte × State} (h : memReadA a s = some d) :
    memRead a s = .next d := by
  unfold memReadA at h
  split at h <;> cases h
  assumption

section
variable {base T : Word} {c : Cause} {s₀ s t u : State}

/-- The payload of a read packet from byte `j` on (R172). -/
theorem recvBytes_returns {len : Nat} : ∀ {n j : Nat} {s : State}, j + n = len →
    recvBytes base j n s = some ((), u) → Returns (readPacketStep len base T) (.more .crc1, u) c t →
      Returns (readPacketStep len base T) (.more (recvFrom len j), s) c t
  | 0, j, s, hj, hrecv, hnext => by
    cases hrecv
    rwa [recvFrom, if_neg (by omega)]
  | n + 1, j, s, hj, hrecv, hnext => by
    rw [recvBytes, Act.xchgA_bind] at hrecv
    obtain ⟨_, v, hstore, hrecv⟩ := Act.bind_eq_some.mp hrecv
    have hstored : readPacketStep len base T (.store j (xchg filler s).1) (xchg filler s).2 =
        .next (.more (recvFrom len (j + 1)), v) := by rw [readPacketStep, memWriteA_eq_some hstore, onNext_next]
    rw [recvFrom, if_pos (by omega)]
    exact .more rfl (.more hstored (recvBytes_returns (by omega) hrecv hnext))

/-- What a read packet does with the result of its token wait (R172). -/
def afterToken (len : Nat) (c : Cause) (s : State) : Progress ReadPos Cause × State :=
  (if c = .none then .more (recvFrom len 0) else .ret c, s)

/-- One event of a read packet's token wait is one event of the wait (R172). -/
theorem readPacketStep_token (len : Nat) (base T : Word) (q : TokenPos) (s : State) :
    readPacketStep len base T (.token q) s = .next (within .token (afterToken len) (waitTokenStep T q s)) := by
  simp only [readPacketStep, within, afterToken]
  cases (waitTokenStep T q s).1 with
  | more q' => rfl
  | ret c => cases c <;> rfl

/-- `read_packet` (R172). -/
theorem readPacketP_returns {fuel len : Nat} (hs : RunsLike s₀ s) (h : readPacketP fuel len base T s = some (c, t)) :
    Returns (readPacketStep len base T) (.more (.token .start), s) c t := by
  obtain ⟨k, v, hwait, h⟩ := Act.bind_eq_some.mp h
  rw [Act.ite_apply] at h
  refine (waitTokenP_reaches hwait).returns.inside (pos := .token) (fin := afterToken len) (waitTokenStep_steady T)
    (fun q s d _ hd => ?_) hs fun _ => ?_
  · cases hd
    exact readPacketStep_token len base T q s
  · unfold afterToken
    split at h
    · obtain ⟨_, w, hrecv, h⟩ := Act.bind_eq_some.mp h
      cases h
      rw [if_pos ‹_›]
      exact recvBytes_returns (Nat.zero_add len) hrecv (.more rfl (.more rfl (.ret _ _)))
    · cases h
      rw [if_neg ‹_›]
      exact .ret _ _

/-- The payload of a write packet from byte `j` on (R177). -/
theorem sendPayload_returns {tok : Byte} : ∀ {n j : Nat} {s : State}, j + n = blockSize →
    sendPayload base j n s = some ((), u) → Returns (writePacketStep tok base T) (.more .crc1, u) c t →
      Returns (writePacketStep tok base T) (.more (fetchFrom j), s) c t
  | 0, j, s, hj, hsend, hnext => by
    cases hsend
    rwa [fetchFrom, if_neg (by omega)]
  | n + 1, j, s, hj, hsend, hnext => by
    obtain ⟨b, v, hfetch, hsend⟩ := Act.bind_eq_some.mp hsend
    have hfetched : writePacketStep tok base T (.fetch j) s = .next (.more (.send j b), v) := by
      rw [writePacketStep, memReadA_eq_some hfetch, onNext_next]
    rw [fetchFrom, if_pos (by omega)]
    exact .more hfetched (.more rfl (sendPayload_returns (by omega) hsend hnext))

/-- What a write packet does with the result of its wait (R177). -/
def afterReady (w : Bool) (s : State) : Progress WritePos Cause × State :=
  (if w then .more .token else .ret .busyTimeout, s)

/-- One event of a write packet's wait is one event of the wait (R177). -/
theorem writePacketStep_ready (tok : Byte) (base T : Word) (q : WaitPos) (s : State) :
    writePacketStep tok base T (.ready q) s = .next (within .ready afterReady (waitReadyStep T q s)) := by
  simp only [writePacketStep, within, afterReady]
  cases (waitReadyStep T q s).1 with
  | more q' => rfl
  | ret w => cases w <;> rfl

/-- `write_packet` (R177). -/
theorem writePacketP_returns {fuel : Nat} {tok : Byte} (hs : RunsLike s₀ s)
    (h : writePacketP fuel tok base T s = some (c, t)) :
    Returns (writePacketStep tok base T) (.more (.ready .start), s) c t := by
  obtain ⟨w, v, hwait, h⟩ := Act.bind_eq_some.mp h
  refine (waitReadyP_reaches hwait).returns.inside (pos := .ready) (fin := afterReady) (waitReadyStep_steady T)
    (fun q s d _ hd => ?_) hs fun _ => ?_
  · cases hd
    exact writePacketStep_ready tok base T q s
  · cases w with
    | false =>
      cases h
      exact .ret _ _
    | true =>
      simp only [if_true, Act.xchgA_bind] at h
      obtain ⟨_, x, hsend, h⟩ := Act.bind_eq_some.mp h
      cases h
      exact .more rfl (sendPayload_returns (Nat.zero_add _) hsend (.more rfl (.more rfl (.more rfl (.ret _ _)))))

/-! ### The stop sequence -/

/-- The skip bytes of the stop sequence (R179). -/
theorem skipBytes_returns {w1 : Bool} : ∀ {n : Nat} {s : State}, fillBytes n s = some ((), u) →
    Returns (answering (stopWriteStep T)) (.more (.ready2 w1 .start), u) c t →
      Returns (answering (stopWriteStep T)) (.more (skipFrom w1 n), s) c t
  | 0, s, hfill, hnext => by
    cases hfill
    exact hnext
  | n + 1, s, hfill, hnext => .more rfl (skipBytes_returns (n := n) hfill hnext)

/-- Skip bytes leave the block running as before. -/
theorem RunsLike.of_fillBytes : ∀ {n : Nat} {s : State}, RunsLike s₀ s → fillBytes n s = some ((), u) → RunsLike s₀ u
  | 0, s, hs, hfill => by
    cases hfill
    exact hs
  | n + 1, s, hs, hfill => RunsLike.of_fillBytes (n := n) (s := (xchg filler s).2) hs hfill

/-- What the stop sequence does with the results of its two waits (R179). -/
def afterStopWaits (w1 w2 : Bool) (s : State) : Progress StopPos Cause × State :=
  (.ret (if w1 && w2 then .none else .busyTimeout), s)

/-- One event of the stop sequence's first wait is one event of the wait (R179). -/
theorem stopWriteStep_ready1 (T : Word) (q : WaitPos) (s : State) :
    stopWriteStep T (.ready1 q) s = within .ready1 (fun w s => (.more (.token w), s)) (waitReadyStep T q s) := by
  simp only [stopWriteStep, within]
  cases (waitReadyStep T q s).1 <;> rfl

/-- So is one event of its second wait (R179). -/
theorem stopWriteStep_ready2 (T : Word) (w1 : Bool) (q : WaitPos) (s : State) :
    stopWriteStep T (.ready2 w1 q) s = within (.ready2 w1) (afterStopWaits w1) (waitReadyStep T q s) := by
  simp only [stopWriteStep, within]
  cases (waitReadyStep T q s).1 <;> rfl

/-- `stop_write` (R179). -/
theorem stopWriteP_returns {fuel : Nat} (hs : RunsLike s₀ s) (h : stopWriteP fuel T s = some (c, t)) :
    Returns (answering (stopWriteStep T)) (.more (.ready1 .start), s) c t := by
  obtain ⟨w1, v, hwait1, h⟩ := Act.bind_eq_some.mp h
  rw [Act.xchgA_bind, Act.getA_bind] at h
  obtain ⟨_, x, hskip, h⟩ := Act.bind_eq_some.mp h
  obtain ⟨w2, y, hwait2, h⟩ := Act.bind_eq_some.mp h
  cases h
  refine (waitReadyP_reaches hwait1).returns.inside (waitReadyStep_steady T)
    (fun q s d _ hd => by cases hd; exact congrArg _ (stopWriteStep_ready1 T q s)) hs fun hv =>
      .more rfl (skipBytes_returns hskip ?_)
  exact (waitReadyP_reaches hwait2).returns.inside (fin := afterStopWaits w1) (waitReadyStep_steady T)
    (fun q s d _ hd => by cases hd; exact congrArg _ (stopWriteStep_ready2 T w1 q s)) 
    (.of_fillBytes (s := (xchg stopToken v).2) hv hskip) fun _ => .ret _ _

/-! ### The data command -/

/-- A data command's call rests on ARG and CFG.HC, which its steps keep (R201, R202). -/
theorem dataCall_congr {g g' : Regs} (idx : BitVec 6) (h : sameOperands g g') : dataCall idx g' = dataCall idx g := by
  obtain ⟨harg, -, hhc, -⟩ := h
  simp only [dataCall, cardAddr, harg, hhc]

/-- Framing a command leaves the block running as before (R134). -/
theorem RunsLike.commandStart (c : CmdCall) (h : RunsLike s₀ s) : RunsLike s₀ (commandStart c s).2 := h

/-- What a data command does with the result of its wait: the command is framed (R202). -/
def afterSeqWait (c : CmdCall) (w : Bool) (s : State) : Progress SeqCmdPos Cause × State :=
  if w then (.more (.cmd (commandStart c s).1), (commandStart c s).2) else (.ret .notReady, s)

/-- What a data command does with the result of its command: any R1 but 0x00 is an error (R203). -/
def afterSeqCmd (c : Cause) (s : State) : Progress SeqCmdPos Cause × State :=
  (.ret (if c = .none then if s.regs.byte0 = 0x00 then .none else .r1Error else c), s)

/-- One event of a data command's wait is one event of the wait (R202). -/
theorem seqCommandStep_ready {idx : BitVec 6} (q : WaitPos) (hs : RunsLike s₀ s) :
    seqCommandStep idx (.ready q) s =
      within .ready (afterSeqWait (dataCall idx s₀.regs)) (waitReadyStep s₀.regs.tmoBusy q s) := by
  have hcall := dataCall_congr idx hs.1.2
  obtain ⟨-, -, -, -, -, -, htmo, -⟩ := hs.1.2
  simp only [seqCommandStep, hcall, htmo, within, afterSeqWait]
  cases (waitReadyStep s₀.regs.tmoBusy q s).1 with
  | more q' => rfl
  | ret w => cases w <;> rfl

/-- One event of a data command's command is one event of the command (R202). -/
theorem seqCommandStep_cmd {idx : BitVec 6} (q : CmdPos) (hs : RunsLike s₀ s) :
    seqCommandStep idx (.cmd q) s = within .cmd afterSeqCmd (commandStep (dataCall idx s₀.regs) q s) := by
  simp only [seqCommandStep, dataCall_congr idx hs.1.2, within, afterSeqCmd]
  cases (commandStep (dataCall idx s₀.regs) q s).1 with
  | more q' => rfl
  | ret c => cases c <;> rfl

/-- `seq_command` (R202, R203). -/
theorem seqCommandP_returns {fuel : Nat} {idx : BitVec 6} (hs : RunsLike s₀ s)
    (h : seqCommandP fuel idx s = some (c, t)) :
    Returns (answering (seqCommandStep idx)) (.more (.ready .start), s) c t := by
  obtain ⟨-, -, -, -, -, -, htmo, -⟩ := hs.1.2
  rw [seqCommandP, Act.getA_bind, htmo] at h
  obtain ⟨w, v, hwait, h⟩ := Act.bind_eq_some.mp h
  refine (waitReadyP_reaches hwait).returns.inside (waitReadyStep_steady _)
    (fun q s d hs hd => by cases hd; exact congrArg _ (seqCommandStep_ready q hs)) hs fun hv => ?_
  cases w with
  | false =>
    cases h
    exact .ret _ _
  | true =>
    simp only [if_true, Act.getA_bind, dataCall_congr idx hv.1.2] at h
    obtain ⟨k, x, hcmd, h⟩ := Act.bind_eq_some.mp h
    rw [afterSeqWait, if_pos rfl]
    refine (commandP_reaches hcmd).returns.inside (step' := answering (seqCommandStep idx)) (pos := .cmd)
      (fin := afterSeqCmd) (commandStep_steady _)
      (fun q s d hs hd => by cases hd; exact congrArg _ (seqCommandStep_cmd q hs)) (hv.commandStart _) fun _ => ?_
    rw [Act.ite_apply, Act.getA_bind] at h
    unfold afterSeqCmd
    by_cases hk : k = .none
    · rw [if_pos hk] at h ⊢
      cases h
      exact .ret _ _
    · rw [if_neg hk] at h ⊢
      cases h
      exact .ret _ _

end

end Sys2Proof.Machine
end

section
/-! The steps of the data operations, each in terms of one event of the helper it runs: the read packet in its three forms,
the write packet in its two, the data command, the final wait, CMD12 and the stop sequence (42_data_tokens.md R172, R177 to
R180, 43_stream_sequencer.md R202, R205, R215). -/

namespace Sys2Proof.Machine

/-! ### The steps of READ_DATA and READ_BLOCKS -/

/-- What an operation does with the result of its read packet (R180, R205). -/
def ReadForm.after : ReadForm → Cause → State → State
  | .data, c, s => endStream .readFailed c s
  | .single, c, s => if c = .none then finish (setBlkdone 1 s) else endOp .readFailed c s
  | .block k, c, s => if c = .none then nextReadBlock (k + 1) (setBlkdone (k + 1) s) else startStop c s

/-- A step of an operation at a point of its read packet (R172). -/
theorem ReadForm.exec_packet {f : ReadForm} {q : ReadPos} {s : State} {d : Progress ReadPos Cause × State}
    (hat : s.At f.instr (f.pos q)) (h : f.packetStep q s = .next d) :
    exec f.instr s = .next (landsAt f.pos f.after d) := by
  obtain ⟨q' | c, u⟩ := d
  · exact ReadForm.exec_more hat h
  · rw [exec_at hat]
    unfold ReadForm.packetStep at h
    cases f with
    | data =>
      simp only [ReadForm.len, ReadForm.base] at h
      simp only [ReadForm.instr, ReadForm.pos, codeOf, readDataAt, h, onNext_next]
      cases c <;> rfl
    | single =>
      simp only [ReadForm.len, ReadForm.base] at h
      simp only [ReadForm.instr, ReadForm.pos, codeOf, readBlocksAt, readBlocksStep, h, onNext_next]
      cases c <;> rfl
    | block k =>
      simp only [ReadForm.len, ReadForm.base] at h
      simp only [ReadForm.instr, ReadForm.pos, codeOf, readBlocksAt, readBlocksStep, h, onNext_next]
      cases c <;> rfl

/-- What READ_BLOCKS does with the result of its data command (R204, R205). -/
def afterReadCommand (c : Cause) (s : State) : State :=
  if c = .none then if singleBlock s.regs then goto (.readBlocks (.single (.token .start))) s else nextReadBlock 0 s
  else endOp .readFailed c s

/-- A step of READ_BLOCKS at a point of its data command (R202, R205). -/
theorem exec_readBlocks_cmd {q : SeqCmdPos} {s : State} (hat : s.At .readBlocks (.readBlocks (.cmd q))) :
    exec .readBlocks s =
      .next (landsAt (fun q => .readBlocks (.cmd q)) afterReadCommand (seqCommandStep (readIdx s.regs) q s)) := by
  rw [exec_at hat]
  simp only [codeOf, readBlocksAt, readBlocksStep, landsAt, afterReadCommand]
  cases (seqCommandStep (readIdx s.regs) q s).1 with
  | more q' => rfl
  | ret c => cases c <;> rfl

/-- A step of READ_BLOCKS at a point of its CMD12 (R205, R208). -/
theorem exec_readBlocks_stop {e : Cause} {q : CmdPos} {s : State} (hat : s.At .readBlocks (.readBlocks (.stop e q))) :
    exec .readBlocks s = .next (landsAt (fun q => .readBlocks (.stop e q))
      (fun c => endStream .readFailed (firstError e c)) (commandStep (stopCall s.params s.regs) q s)) := by
  rw [exec_at hat]
  simp only [codeOf, readBlocksAt, readBlocksStep, landsAt]
  cases (commandStep (stopCall s.params s.regs) q s).1 <;> rfl

/-! ### The steps of WRITE_BLOCKS -/

/-- The two places a write packet runs in: the single block of WRITE_BLOCKS and its block `k` (R215). -/
inductive WriteForm where
  | single
  | block (k : Nat)

/-- A point of the packet as a point of WRITE_BLOCKS. -/
def WriteForm.pos : WriteForm → WritePos → Pos
  | .single, q => .writeBlocks (.single q)
  | .block k, q => .writeBlocks (.block k q)

/-- The packet's start token (R87, R204). -/
def WriteForm.tok : WriteForm → Byte
  | .single => startToken
  | .block _ => multiToken

/-- Where the packet's payload comes from (R34, R66, R204). -/
def WriteForm.base (g : Regs) : WriteForm → Word
  | .single => g.bufaddr
  | .block k => blockBase g.bufaddr k

/-- One event of the packet, as WRITE_BLOCKS runs it. -/
def WriteForm.packetStep (f : WriteForm) (q : WritePos) (s : State) : Out (Progress WritePos Cause × State) :=
  writePacketStep f.tok (f.base s.regs) s.regs.tmoBusy q s

/-- What WRITE_BLOCKS does with the result of its packet (R215). -/
def WriteForm.after : WriteForm → Cause → State → State
  | .single, c, s => afterSinglePacket c s
  | .block k, c, s =>
    if c = .none then nextWriteBlock (k + 1) (setBlkdone (k + 1) s)
    else goto (.writeBlocks (.stop c (.ready1 .start))) s

/-- A step of WRITE_BLOCKS at a point of its packet (R177). -/
theorem WriteForm.exec_packet {f : WriteForm} {q : WritePos} {s : State} {d : Progress WritePos Cause × State}
    (hat : s.At .writeBlocks (f.pos q)) (h : f.packetStep q s = .next d) :
    exec .writeBlocks s = .next (landsAt f.pos f.after d) := by
  rw [exec_at hat]
  unfold WriteForm.packetStep at h
  cases f with
  | single =>
    simp only [WriteForm.tok, WriteForm.base] at h
    simp only [WriteForm.pos, codeOf, writeBlocksAt, writeBlocksStep, h, onNext_next]
    rcases d with ⟨_ | c, u⟩ <;> rfl
  | block k =>
    simp only [WriteForm.tok, WriteForm.base] at h
    simp only [WriteForm.pos, codeOf, writeBlocksAt, writeBlocksStep, h, onNext_next]
    obtain ⟨q' | c, u⟩ := d
    · rfl
    · cases c <;> rfl

/-- What WRITE_BLOCKS does with the result of its data command (R204, R215). -/
def afterWriteCommand (c : Cause) (s : State) : State :=
  if c = .none then if singleBlock s.regs then goto (.writeBlocks (.single (.ready .start))) s else nextWriteBlock 0 s
  else endOp .writeFailed c s

/-- A step of WRITE_BLOCKS at a point of its data command (R202, R215). -/
theorem exec_writeBlocks_cmd {q : SeqCmdPos} {s : State} (hat : s.At .writeBlocks (.writeBlocks (.cmd q))) :
    exec .writeBlocks s =
      .next (landsAt (fun q => .writeBlocks (.cmd q)) afterWriteCommand (seqCommandStep (writeIdx s.regs) q s)) := by
  rw [exec_at hat]
  simp only [codeOf, writeBlocksAt, writeBlocksStep, landsAt, afterWriteCommand]
  cases (seqCommandStep (writeIdx s.regs) q s).1 with
  | more q' => rfl
  | ret c => cases c <;> rfl

/-- A step of WRITE_BLOCKS at a point of the single form's final wait (R215). -/
theorem exec_writeBlocks_lastWait {c : Cause} {q : WaitPos} {s : State}
    (hat : s.At .writeBlocks (.writeBlocks (.lastWait c q))) :
    exec .writeBlocks s = .next (landsAt (fun q => .writeBlocks (.lastWait c q)) (endSingleWrite c)
      (waitReadyStep s.regs.tmoBusy q s)) := by
  rw [exec_at hat]
  simp only [codeOf, writeBlocksAt, writeBlocksStep, landsAt]
  cases (waitReadyStep s.regs.tmoBusy q s).1 <;> rfl

/-- A step of WRITE_BLOCKS at a point of its stop sequence (R179, R215). -/
theorem exec_writeBlocks_stop {e : Cause} {q : StopPos} {s : State}
    (hat : s.At .writeBlocks (.writeBlocks (.stop e q))) :
    exec .writeBlocks s = .next (landsAt (fun q => .writeBlocks (.stop e q))
      (fun c => endStream .writeFailed (firstError e c)) (stopWriteStep s.regs.tmoBusy q s)) := by
  rw [exec_at hat]
  simp only [codeOf, writeBlocksAt, writeBlocksStep, landsAt]
  cases (stopWriteStep s.regs.tmoBusy q s).1 <;> rfl

end Sys2Proof.Machine
end

section
/-! The data operations run one event a step reach the state of their pseudocode run whole: READ_DATA, then READ_BLOCKS and
WRITE_BLOCKS by their data command, their packets and their clean-up (42_data_tokens.md R172, R177 to R180,
43_stream_sequencer.md R202, R205, R215). -/

namespace Sys2Proof.Machine

section
variable {s₀ s u t : State} {fuel : Nat} {c : Cause}

/-! ### Ends and their SEQ -/

/-- The end of a stream does not depend on where SEQ stands (R244). -/
theorem endStream_endsIn (i : Instr) (err : Err) (e : Cause) (s : State) (p : Pos) :
    EndsIn i (endStream err e (s.goes i p)) (endStream err e s) := by
  unfold endStream
  split <;> exact .ended rfl

/-- COUNT is an operand. -/
theorem RunsLike.count (h : RunsLike s₀ s) : s.regs.count = s₀.regs.count := by
  obtain ⟨⟨-, -, hcount, -⟩, -⟩ := h
  exact hcount

/-- The form of a stream rests on COUNT (R204). -/
theorem RunsLike.singleBlock (h : RunsLike s₀ s) : singleBlock s.regs = singleBlock s₀.regs := by
  simp only [Machine.singleBlock, h.count]

/-! ### Read packets -/

/-- The packet's length, base and deadline rest on the operands. -/
theorem ReadForm.packetStep_of_runs (f : ReadForm) (q : ReadPos) (h : RunsLike s₀ s) :
    f.packetStep q s = readPacketStep (f.len s₀.regs) (f.base s₀.regs) s₀.regs.tmoToken q s := by
  obtain ⟨-, hcount, -, -, -, htmo, -, hbuf⟩ := h.1.2
  cases f <;> simp only [ReadForm.packetStep, ReadForm.len, ReadForm.base, hcount, htmo, hbuf]

/-- An operation at the start of its read packet ends where it ends with the packet's result (R172). -/
theorem ReadForm.packet_endsIn {f : ReadForm} (hs : RunsLike s₀ s)
    (h : readPacketP fuel (f.len s₀.regs) (f.base s₀.regs) s₀.regs.tmoToken s = some (c, u))
    (hnext : ∀ p, RunsLike s₀ u → EndsIn f.instr (f.after c (u.goes f.instr p)) t) :
    EndsIn f.instr (s.goes f.instr (f.pos (.token .start))) t :=
  (readPacketP_returns hs h).endsIn (readPacketStep_steady _ _ _)
    (fun _ _ _ hs hat hd => ReadForm.exec_packet hat ((f.packetStep_of_runs _ hs).trans hd)) hs hnext

/-! ### READ_DATA -/

/-- Settles O43: the packet's run whole is its events one after the other, and READ_DATA ends with its result. -/
theorem readDataRunsItsPseudocode : Obligations.ReadDataRunsItsPseudocode := by
  unfold Obligations.ReadDataRunsItsPseudocode
  intro fuel s t hs h
  obtain ⟨⟨_, v⟩, hrun, rfl⟩ := Option.map_eq_some_iff.mp h
  have hexec : exec .readData s = readDataAt .start (accept (encode .readData) s) := exec_idle hs.1
  rw [pseudocode, readDataP, Act.getA_bind, Act.ite_apply] at hrun
  by_cases hlen : badLength (accept (encode .readData) s).regs = true
  · rw [if_pos hlen] at hrun
    cases hrun
    exact (EndsIn.ended rfl).exists_runOp (hexec.trans (by rw [readDataAt, if_pos hlen]))
  · rw [if_neg hlen] at hrun
    obtain ⟨c, u, hpacket, hend⟩ := Act.bind_eq_some.mp hrun
    cases hend
    exact (ReadForm.packet_endsIn (f := .data) (runsLike_accept _ s) hpacket fun p _ =>
      endStream_endsIn .readData .readFailed c u p).exists_runOp (hexec.trans (by rw [readDataAt, if_neg hlen]; rfl))

/-! ### READ_BLOCKS -/

/-- The index of the data command rests on COUNT (R204). -/
theorem readIdx_of_runs (h : RunsLike s₀ s) : readIdx s.regs = readIdx s₀.regs := by
  rw [readIdx, readIdx, h.singleBlock]

/-- CMD12's call rests on the parameters and on TMO_BUSY (R208). -/
theorem stopCall_of_runs (h : RunsLike s₀ s) : stopCall s.params s.regs = stopCall s₀.params s₀.regs := by
  obtain ⟨-, -, -, -, -, -, htmo, -⟩ := h.1.2
  simp only [stopCall, h.2, htmo]

/-- READ_BLOCKS at the start of its data command ends where it ends with the command's result (R202). -/
theorem readCommand_endsIn (hs : RunsLike s₀ s) (h : seqCommandP fuel (readIdx s₀.regs) s = some (c, u))
    (hnext : ∀ p, RunsLike s₀ u → EndsIn .readBlocks (afterReadCommand c (u.goes .readBlocks p)) t) :
    EndsIn .readBlocks (s.goes .readBlocks (.readBlocks (.cmd (.ready .start)))) t :=
  (seqCommandP_returns hs h).endsIn (pos := fun q => .readBlocks (.cmd q)) (seqCommandStep_steady _)
    (fun _ _ _ hs hat hd => by cases hd; rw [exec_readBlocks_cmd hat, readIdx_of_runs hs]) hs hnext

/-- A read stream whose CMD12 is framed ends with the first error (R205, R209). -/
theorem startStop_endsIn {e : Cause} (hs : RunsLike s₀ s)
    (h : commandP fuel (stopCall s.params s.regs) s = some (c, u)) (p : Pos) :
    EndsIn .readBlocks (startStop e (s.goes .readBlocks p)) (endStream .readFailed (firstError e c) u) := by
  rw [stopCall_of_runs hs] at h
  have hstop := (commandP_reaches h).returns.endsIn (i := .readBlocks) (pos := fun q => .readBlocks (.stop e q))
    (commandStep_steady _)
    (fun _ _ _ hs hat hd => by cases hd; rw [exec_readBlocks_stop hat, stopCall_of_runs hs]) (hs.commandStart _)
    fun p _ => endStream_endsIn .readBlocks .readFailed (firstError e c) u p
  rw [← stopCall_of_runs hs] at hstop
  exact hstop

/-- A read stream from block `k` on ends where its CMD12 ends with the first error recorded (R205). -/
theorem readStream_endsIn {e : Cause}
    (hstop : ∀ p, RunsLike s₀ u → EndsIn .readBlocks (startStop e (u.goes .readBlocks p)) t) :
    ∀ {n k : Nat} {s : State}, RunsLike s₀ s → k + n = s₀.regs.count.toNat →
      readStream fuel s₀.regs.bufaddr s₀.regs.tmoToken k n s = some (e, u) →
      ∀ p, EndsIn .readBlocks (nextReadBlock k (s.goes .readBlocks p)) t
  | 0, k, s, hs, hk, h, p => by
    cases h
    rw [nextReadBlock, if_neg (by rw [State.goes_regs, hs.count]; omega)]
    exact hstop p hs
  | n + 1, k, s, hs, hk, h, p => by
    obtain ⟨c, v, hpacket, h⟩ := Act.bind_eq_some.mp h
    rw [nextReadBlock, if_pos (by rw [State.goes_regs, hs.count]; omega)]
    refine ReadForm.packet_endsIn (f := .block k) (s := s) hs hpacket fun p hv => ?_
    rw [Act.ite_apply] at h
    rw [ReadForm.after]
    by_cases hc : c = .none
    · rw [if_pos hc] at h ⊢
      exact readStream_endsIn hstop (s := setBlkdone (k + 1) v) hv (by omega) h p
    · rw [if_neg hc] at h ⊢
      cases h
      exact hstop p hv

/-- READ_BLOCKS after its data command, in the pseudocode (R205). -/
def readPhaseP (fuel : Nat) (g : Regs) : Act Unit :=
  if singleBlock g then do
    let c ← readPacketP fuel blockSize g.bufaddr g.tmoToken
    if c = .none then do
      setA (setBlkdone 1)
      setA finish
    else setA (endOp .readFailed c)
  else do
    let e ← readStream fuel g.bufaddr g.tmoToken 0 g.count.toNat
    let call ← getA fun s => stopCall s.params s.regs
    let c ← commandP fuel call
    setA (endStream .readFailed (firstError e c))

/-- The two forms of READ_BLOCKS differ in the data command's index and in what follows it (R204, R205). -/
theorem readBlocksP_eq (fuel : Nat) : readBlocksP fuel = (do
    let g ← getA fun s => s.regs
    if g.count = 0 then setA finish
    else if addrOverflows g then setA (endOp .readFailed .addrOverflow)
    else do
      let c ← seqCommandP fuel (readIdx g)
      if c = .none then readPhaseP fuel g else setA (endOp .readFailed c)) := by
  unfold readBlocksP
  refine congrArg _ (funext fun g => ?_)
  by_cases hg : singleBlock g = true <;> simp only [readPhaseP, readIdx, hg, if_true, Bool.false_eq_true, if_false]

/-- READ_BLOCKS after its data command ends as its pseudocode does (R205). -/
theorem readPhase_endsIn (hs : RunsLike s₀ s) (h : readPhaseP fuel s₀.regs s = some ((), t)) (p : Pos) :
    EndsIn .readBlocks (afterReadCommand .none (s.goes .readBlocks p)) t := by
  rw [readPhaseP, Act.ite_apply] at h
  rw [afterReadCommand, if_pos rfl, State.goes_regs, hs.singleBlock]
  by_cases hg : singleBlock s₀.regs = true
  · rw [if_pos hg] at h ⊢
    obtain ⟨c, u, hpacket, h⟩ := Act.bind_eq_some.mp h
    refine ReadForm.packet_endsIn (f := .single) (s := s) hs hpacket fun p _ => ?_
    rw [Act.ite_apply] at h
    rw [ReadForm.after]
    split at h <;> cases h
    · rw [if_pos ‹_›]
      exact .ended rfl
    · rw [if_neg ‹_›]
      exact .ended rfl
  · rw [if_neg hg] at h ⊢
    obtain ⟨e, u, hstream, h⟩ := Act.bind_eq_some.mp h
    rw [Act.getA_bind] at h
    obtain ⟨c, v, hcmd, hend⟩ := Act.bind_eq_some.mp h
    cases hend
    exact readStream_endsIn (fun p hu => startStop_endsIn hu hcmd p) hs (Nat.zero_add _) hstream p

/-- Settles O44: the data command, then the single packet or the stream and its CMD12, each run whole as its events one
after the other. -/
theorem readBlocksRunsItsPseudocode : Obligations.ReadBlocksRunsItsPseudocode := by
  unfold Obligations.ReadBlocksRunsItsPseudocode
  intro fuel s t hs h
  obtain ⟨⟨_, v⟩, hrun, rfl⟩ := Option.map_eq_some_iff.mp h
  have hexec : exec .readBlocks s = .next (readBlocksStart (accept (encode .readBlocks) s)) := exec_idle hs.1
  rw [pseudocode, readBlocksP_eq, Act.getA_bind, Act.ite_apply, Act.ite_apply] at hrun
  refine EndsIn.exists_runOp ?_ hexec
  unfold readBlocksStart
  by_cases hcount : (accept (encode .readBlocks) s).regs.count = 0
  · rw [if_pos hcount] at hrun ⊢
    cases hrun
    exact .ended rfl
  rw [if_neg hcount] at hrun ⊢
  by_cases hover : addrOverflows (accept (encode .readBlocks) s).regs = true
  · rw [if_pos hover] at hrun ⊢
    cases hrun
    exact .ended rfl
  rw [if_neg hover] at hrun ⊢
  obtain ⟨c, u, hcmd, hrun⟩ := Act.bind_eq_some.mp hrun
  refine readCommand_endsIn (runsLike_accept _ s) hcmd fun p hu => ?_
  rw [Act.ite_apply] at hrun
  by_cases hc : c = .none
  · rw [if_pos hc] at hrun
    rw [hc]
    exact readPhase_endsIn hu hrun p
  · rw [if_neg hc] at hrun
    cases hrun
    rw [afterReadCommand, if_neg hc]
    exact .ended rfl

/-! ### WRITE_BLOCKS -/

/-- The packet's base and deadline rest on the operands. -/
theorem WriteForm.packetStep_of_runs (f : WriteForm) (q : WritePos) (h : RunsLike s₀ s) :
    f.packetStep q s = writePacketStep f.tok (f.base s₀.regs) s₀.regs.tmoBusy q s := by
  obtain ⟨-, -, -, -, -, -, htmo, hbuf⟩ := h.1.2
  cases f <;> simp only [WriteForm.packetStep, WriteForm.base, htmo, hbuf]

/-- TMO_BUSY is an operand. -/
theorem RunsLike.tmoBusy (h : RunsLike s₀ s) : s.regs.tmoBusy = s₀.regs.tmoBusy := by
  obtain ⟨⟨-, -, -, -, -, -, -, htmo, -⟩, -⟩ := h
  exact htmo

/-- The index of the data command rests on COUNT (R204). -/
theorem writeIdx_of_runs (h : RunsLike s₀ s) : writeIdx s.regs = writeIdx s₀.regs := by
  rw [writeIdx, writeIdx, h.singleBlock]

/-- WRITE_BLOCKS at the start of a packet ends where it ends with the packet's result (R177). -/
theorem WriteForm.packet_endsIn {f : WriteForm} (hs : RunsLike s₀ s)
    (h : writePacketP fuel f.tok (f.base s₀.regs) s₀.regs.tmoBusy s = some (c, u))
    (hnext : ∀ p, RunsLike s₀ u → EndsIn .writeBlocks (f.after c (u.goes .writeBlocks p)) t) :
    EndsIn .writeBlocks (s.goes .writeBlocks (f.pos (.ready .start))) t :=
  (writePacketP_returns hs h).endsIn (writePacketStep_steady _ _ _)
    (fun _ _ _ hs hat hd => WriteForm.exec_packet hat ((f.packetStep_of_runs _ hs).trans hd)) hs hnext

/-- WRITE_BLOCKS at the start of its data command ends where it ends with the command's result (R202). -/
theorem writeCommand_endsIn (hs : RunsLike s₀ s) (h : seqCommandP fuel (writeIdx s₀.regs) s = some (c, u))
    (hnext : ∀ p, RunsLike s₀ u → EndsIn .writeBlocks (afterWriteCommand c (u.goes .writeBlocks p)) t) :
    EndsIn .writeBlocks (s.goes .writeBlocks (.writeBlocks (.cmd (.ready .start)))) t :=
  (seqCommandP_returns hs h).endsIn (pos := fun q => .writeBlocks (.cmd q)) (seqCommandStep_steady _)
    (fun _ _ _ hs hat hd => by cases hd; rw [exec_writeBlocks_cmd hat, writeIdx_of_runs hs]) hs hnext

/-- The single form at the start of its final wait ends with the packet's result, then the wait's (R215, R217). -/
theorem lastWait_endsIn {w : Bool} (hs : RunsLike s₀ s) (h : waitReadyP fuel s₀.regs.tmoBusy s = some (w, u)) :
    EndsIn .writeBlocks (s.goes .writeBlocks (.writeBlocks (.lastWait c .start))) (endSingleWrite c w u) := by
  refine (waitReadyP_reaches h).returns.endsIn (pos := fun q => .writeBlocks (.lastWait c q)) (waitReadyStep_steady _)
    (fun _ _ _ hs hat hd => by cases hd; rw [exec_writeBlocks_lastWait hat, hs.tmoBusy]) hs fun p _ => ?_
  unfold endSingleWrite
  split
  · exact .ended rfl
  · split <;> exact .ended rfl

/-- The single form ends, once its packet has, as the pseudocode does (R215, R217). -/
theorem afterSinglePacket_endsIn {w : Bool} (hc : c ≠ .busyTimeout) (hs : RunsLike s₀ s)
    (h : waitReadyP fuel s₀.regs.tmoBusy ((if c = .none then setBlkdone 1 else id) s) = some (w, u)) (p : Pos) :
    EndsIn .writeBlocks (afterSinglePacket c (s.goes .writeBlocks p)) (endSingleWrite c w u) := by
  rw [afterSinglePacket, if_neg hc]
  by_cases hnone : c = .none
  · rw [if_pos hnone] at h ⊢
    exact lastWait_endsIn (s := setBlkdone 1 s) hs h
  · rw [if_neg hnone] at h ⊢
    exact lastWait_endsIn (s := s) hs h

/-- A write stream at the start of its stop sequence ends with the first error (R179, R219). -/
theorem stopWrite_endsIn {e : Cause} (hs : RunsLike s₀ s) (h : stopWriteP fuel s₀.regs.tmoBusy s = some (c, u)) :
    EndsIn .writeBlocks (s.goes .writeBlocks (.writeBlocks (.stop e (.ready1 .start))))
      (endStream .writeFailed (firstError e c) u) :=
  (stopWriteP_returns hs h).endsIn (pos := fun q => .writeBlocks (.stop e q)) (stopWriteStep_steady _)
    (fun _ _ _ hs hat hd => by cases hd; rw [exec_writeBlocks_stop hat, hs.tmoBusy]) hs
    fun p _ => endStream_endsIn .writeBlocks .writeFailed (firstError e c) u p

/-- A write stream from block `k` on ends where its stop sequence ends with the first error recorded (R215). -/
theorem writeStream_endsIn {e : Cause}
    (hstop : RunsLike s₀ u → EndsIn .writeBlocks (u.goes .writeBlocks (.writeBlocks (.stop e (.ready1 .start)))) t) :
    ∀ {n k : Nat} {s : State}, RunsLike s₀ s → k + n = s₀.regs.count.toNat →
      writeStream fuel s₀.regs.bufaddr s₀.regs.tmoBusy k n s = some (e, u) →
      ∀ p, EndsIn .writeBlocks (nextWriteBlock k (s.goes .writeBlocks p)) t
  | 0, k, s, hs, hk, h, p => by
    cases h
    rw [nextWriteBlock, if_neg (by rw [State.goes_regs, hs.count]; omega)]
    exact hstop hs
  | n + 1, k, s, hs, hk, h, p => by
    obtain ⟨c, v, hpacket, h⟩ := Act.bind_eq_some.mp h
    rw [nextWriteBlock, if_pos (by rw [State.goes_regs, hs.count]; omega)]
    refine WriteForm.packet_endsIn (f := .block k) (s := s) hs hpacket fun p hv => ?_
    rw [Act.ite_apply] at h
    rw [WriteForm.after]
    by_cases hc : c = .none
    · rw [if_pos hc] at h ⊢
      exact writeStream_endsIn hstop (s := setBlkdone (k + 1) v) hv (by omega) h p
    · rw [if_neg hc] at h ⊢
      cases h
      exact hstop hv

/-- WRITE_BLOCKS after its data command, in the pseudocode (R215). -/
def writePhaseP (fuel : Nat) (g : Regs) : Act Unit :=
  if singleBlock g then do
    let c ← writePacketP fuel startToken g.bufaddr g.tmoBusy
    if c = .busyTimeout then setA (endOp .writeFailed .busyTimeout)
    else do
      setA (if c = .none then setBlkdone 1 else id)
      let w ← waitReadyP fuel g.tmoBusy
      setA (endSingleWrite c w)
  else do
    let e ← writeStream fuel g.bufaddr g.tmoBusy 0 g.count.toNat
    let c ← stopWriteP fuel g.tmoBusy
    setA (endStream .writeFailed (firstError e c))

/-- The two forms of WRITE_BLOCKS differ in the data command's index and in what follows it (R204, R215). -/
theorem writeBlocksP_eq (fuel : Nat) : writeBlocksP fuel = (do
    let g ← getA fun s => s.regs
    if g.wp then setA (endOp .writeProtected .wpSet)
    else if g.count = 0 then setA finish
    else if addrOverflows g then setA (endOp .writeFailed .addrOverflow)
    else do
      let c ← seqCommandP fuel (writeIdx g)
      if c = .none then writePhaseP fuel g else setA (endOp .writeFailed c)) := by
  unfold writeBlocksP
  refine congrArg _ (funext fun g => ?_)
  by_cases hg : singleBlock g = true <;> simp only [writePhaseP, writeIdx, hg, if_true, Bool.false_eq_true, if_false]

/-- WRITE_BLOCKS after its data command ends as its pseudocode does (R215). -/
theorem writePhase_endsIn (hs : RunsLike s₀ s) (h : writePhaseP fuel s₀.regs s = some ((), t)) (p : Pos) :
    EndsIn .writeBlocks (afterWriteCommand .none (s.goes .writeBlocks p)) t := by
  rw [writePhaseP, Act.ite_apply] at h
  rw [afterWriteCommand, if_pos rfl, State.goes_regs, hs.singleBlock]
  by_cases hg : singleBlock s₀.regs = true
  · rw [if_pos hg] at h ⊢
    obtain ⟨c, u, hpacket, h⟩ := Act.bind_eq_some.mp h
    refine WriteForm.packet_endsIn (f := .single) (s := s) hs hpacket fun p hu => ?_
    rw [Act.ite_apply] at h
    rw [WriteForm.after]
    by_cases hc : c = .busyTimeout
    · rw [if_pos hc] at h
      cases h
      rw [afterSinglePacket, if_pos hc]
      exact .ended rfl
    · rw [if_neg hc, Act.setA_bind] at h
      obtain ⟨w, v, hwait, hend⟩ := Act.bind_eq_some.mp h
      cases hend
      exact afterSinglePacket_endsIn hc hu hwait p
  · rw [if_neg hg] at h ⊢
    obtain ⟨e, u, hstream, h⟩ := Act.bind_eq_some.mp h
    obtain ⟨c, v, hstop, hend⟩ := Act.bind_eq_some.mp h
    cases hend
    exact writeStream_endsIn (fun hu => stopWrite_endsIn hu hstop) hs (Nat.zero_add _) hstream p

/-- Settles O45: the data command, then the single packet and its final wait or the stream and its stop sequence, each run
whole as its events one after the other. -/
theorem writeBlocksRunsItsPseudocode : Obligations.WriteBlocksRunsItsPseudocode := by
  unfold Obligations.WriteBlocksRunsItsPseudocode
  intro fuel s t hs h
  obtain ⟨⟨_, v⟩, hrun, rfl⟩ := Option.map_eq_some_iff.mp h
  have hexec : exec .writeBlocks s = .next (writeBlocksStart (accept (encode .writeBlocks) s)) := exec_idle hs.1
  rw [pseudocode, writeBlocksP_eq, Act.getA_bind, Act.ite_apply, Act.ite_apply, Act.ite_apply] at hrun
  refine EndsIn.exists_runOp ?_ hexec
  unfold writeBlocksStart
  by_cases hwp : (accept (encode .writeBlocks) s).regs.wp = true
  · rw [if_pos hwp] at hrun ⊢
    cases hrun
    exact .ended rfl
  rw [if_neg hwp] at hrun ⊢
  by_cases hcount : (accept (encode .writeBlocks) s).regs.count = 0
  · rw [if_pos hcount] at hrun ⊢
    cases hrun
    exact .ended rfl
  rw [if_neg hcount] at hrun ⊢
  by_cases hover : addrOverflows (accept (encode .writeBlocks) s).regs = true
  · rw [if_pos hover] at hrun ⊢
    cases hrun
    exact .ended rfl
  rw [if_neg hover] at hrun ⊢
  obtain ⟨c, u, hcmd, hrun⟩ := Act.bind_eq_some.mp hrun
  refine writeCommand_endsIn (runsLike_accept _ s) hcmd fun p hu => ?_
  rw [Act.ite_apply] at hrun
  by_cases hc : c = .none
  · rw [if_pos hc] at hrun
    rw [hc]
    exact writePhase_endsIn hu hrun p
  · rw [if_neg hc] at hrun
    cases hrun
    rw [afterWriteCommand, if_neg hc]
    exact .ended rfl

end

end Sys2Proof.Machine
end

section
/-! A read packet fails only on its token, and once the token is seen it completes, whatever bytes the card returns
(42_data_tokens.md R170 to R174, 43_stream_sequencer.md R207). -/

namespace Sys2Proof.Machine

/-! ### The CMD12 of a read stream -/

@[simp] theorem startStop_regs_blkdone (e : Cause) (s : State) : (startStop e s).regs.blkdone = s.regs.blkdone := by
  rw [startStop, goto_regs]
  rfl
@[simp] theorem startStop_mem (e : Cause) (s : State) : (startStop e s).mem = s.mem := by
  rw [startStop, goto_mem]
  rfl
@[simp] theorem startStop_trace (e : Cause) (s : State) : (startStop e s).trace = s.trace := by
  rw [startStop, goto_trace]
  rfl

/-- CMD12 has no probe: it is framed at once (R205). -/
theorem startStop_at {s : State} {p : Pos} (e : Cause) (hat : s.At .readBlocks p) :
    ∃ f rest, (startStop e s).At .readBlocks (.readBlocks (.stop e (.frame f rest))) :=
  ⟨_, _, goto_seq _ _ _ _ hat⟩

/-- After `k` blocks of a stream comes the next packet, or CMD12 with no error (R205). -/
theorem nextReadBlock_spec {s : State} {p : Pos} (k : Nat) (hat : s.At .readBlocks p) :
    (nextReadBlock k s).regs.blkdone = s.regs.blkdone ∧
      if k < s.regs.count.toNat then (nextReadBlock k s).At .readBlocks (.readBlocks (.block k (.token .start)))
      else ∃ f rest, (nextReadBlock k s).At .readBlocks (.readBlocks (.stop .none (.frame f rest))) := by
  unfold nextReadBlock
  split
  · exact ⟨by rw [goto_regs], goto_seq _ _ _ _ hat⟩
  · exact ⟨startStop_regs_blkdone _ s, startStop_at _ hat⟩

/-! ### The token wait fails -/

/-- A failed token wait is the packet's failure, with no other event (R172, R174). -/
theorem ReadForm.exec_token_fails {f : ReadForm} {q : TokenPos} {c : Cause} {s t : State}
    (hfail : (waitTokenStep s.regs.tmoToken q s).1 = .ret c) (hc : c ≠ .none) (hat : s.At f.instr (f.pos (.token q)))
    (ht : exec f.instr s = .next t) :
    ∃ e n, (waitTokenStep s.regs.tmoToken q s).2 = s.after e n ∧ t = f.after c (s.after e n) := by
  obtain ⟨⟨e, n, hstate⟩, -⟩ := waitTokenStep_spec s.regs.tmoToken q s
  have hstep : f.packetStep (.token q) s = .next (.ret c, s.after e n) := by
    simp only [ReadForm.packetStep, readPacketStep_token, within, hfail, hstate, afterToken, if_neg hc]
  refine ⟨e, n, hstate, ?_⟩
  rw [ReadForm.exec_packet hat hstep] at ht
  cases ht
  rfl

/-- An operation that has ended READ_FAILED after an event that stores nothing: no further event follows (R17, R257). -/
theorem endOp_after_spec (c : Cause) (s : State) (e : Event) (n : Inputs) :
    (endOp .readFailed c (s.after e n)).Ended .readFailed c ∧ (endOp .readFailed c (s.after e n)).mem = s.mem ∧
      (endOp .readFailed c (s.after e n)).trace = (s.after e n).trace ∧
      blockStep (endOp .readFailed c (s.after e n)) = .next (endOp .readFailed c (s.after e n)) :=
  ⟨⟨rfl, rfl, rfl, rfl, rfl⟩, rfl, rfl, rfl⟩

/-! ### The token is seen -/

/-- An operation in a packet at point `q`, with the operands and parameters of `s₀`. -/
def ReadForm.StandsAt (f : ReadForm) (s₀ : State) (q : ReadPos) (s : State) : Prop :=
  s.At f.instr (f.pos q) ∧ RunsLike s₀ s

/-- A state with SEQ where it stands is the state itself. -/
theorem State.At.goes_eq {i : Instr} {p : Pos} {s : State} (h : s.At i p) : s.goes i p = s := by
  rw [State.At] at h
  rw [State.goes, ← h]

/-- A helper leaves SEQ where it stands. -/
theorem Steady.stays {π ρ : Type} {step : π → State → Out (Progress π ρ × State)} {q : π} {s : State}
    {d : Progress π ρ × State} {i : Instr} {p : Pos} (hsteady : Steady step) (h : step q s = .next d) (hat : s.At i p) :
    d.2.At i p := by
  have hgoes := hsteady.goes h i p
  rw [hat.goes_eq, h] at hgoes
  injection hgoes with hd
  rw [hd]
  exact State.goes_seq ..

section
variable {f : ReadForm} {s₀ s : State} {q : ReadPos}

/-- An event after which the packet goes on: one step (R21). -/
theorem ReadForm.StandsAt.step {q' : ReadPos} {u : State} (hs : f.StandsAt s₀ q s)
    (h : f.packetStep q s = .next (.more q', u)) : ∃ t, StepsTo f.instr 1 s t ∧ f.StandsAt s₀ q' t := by
  obtain ⟨hat, hrun⟩ := hs
  have hu : RunsLike s₀ u := (readPacketStep_steady _ _ _).keeps hrun h
  have hgoto : goto (f.pos q') u = u.goes f.instr (f.pos q') :=
    goto_of_run _ ((readPacketStep_steady _ _ _).stays h hat)
  exact ⟨_, .of_exec ((ReadForm.exec_more hat h).trans (congrArg _ hgoto)) hu.1.1, State.goes_seq .., hu⟩

/-- A payload byte is received and stored, whatever it is, where the memory admits it (R172). -/
theorem ReadForm.StandsAt.byte {j : Nat} (hs : f.StandsAt s₀ (.recv j) s)
    (ha : admits s₀.params (byteAddr (f.base s₀.regs) j) = true) :
    ∃ t, StepsTo f.instr 2 s t ∧ f.StandsAt s₀ (recvFrom (f.len s₀.regs) (j + 1)) t := by
  obtain ⟨v, hsv, hv⟩ := hs.step rfl
  obtain ⟨u, hstore⟩ : ∃ u, f.packetStep (.store j (xchg filler s).1) v =
      .next (.more (recvFrom (f.len s₀.regs) (j + 1)), u) :=
    ⟨_, by rw [f.packetStep_of_runs _ hv.2, readPacketStep, memWrite_of_admits _ (hv.2.2 ▸ ha), onNext_next]⟩
  obtain ⟨t, hvt, ht⟩ := hv.step hstore
  exact ⟨t, hsv.trans hvt, ht⟩

/-- The payload from byte `j` on (R172). -/
theorem ReadForm.StandsAt.payload (ha : ∀ j < f.len s₀.regs, admits s₀.params (byteAddr (f.base s₀.regs) j) = true) :
    ∀ {n j : Nat} {s : State}, j + n = f.len s₀.regs → f.StandsAt s₀ (recvFrom (f.len s₀.regs) j) s →
      ∃ t, StepsTo f.instr (2 * n) s t ∧ f.StandsAt s₀ .crc1 t
  | 0, j, s, hj, hs => by
    rw [recvFrom, if_neg (by omega)] at hs
    exact ⟨s, .refl _ s, hs⟩
  | n + 1, j, s, hj, hs => by
    rw [recvFrom, if_pos (by omega)] at hs
    obtain ⟨v, hsv, hv⟩ := hs.byte (ha j (by omega))
    obtain ⟨t, hvt, ht⟩ := ReadForm.StandsAt.payload ha (n := n) (by omega) hv
    rw [show 2 * (n + 1) = 2 + 2 * n by omega]
    exact ⟨t, hsv.trans hvt, ht⟩

/-- A packet whose token has been seen returns with success, whatever bytes the card returns (R174): the operation then does
what it does with that result, from a state `u` in which SEQ still stands at the last exchange. -/
theorem ReadForm.StandsAt.completes (hs : f.StandsAt s₀ (.recv 0) s) (hlen : 0 < f.len s₀.regs)
    (ha : ∀ j < f.len s₀.regs, admits s₀.params (byteAddr (f.base s₀.regs) j) = true) :
    ∃ u, runOp f.instr (2 * f.len s₀.regs + 2) s = .next (f.after .none u) ∧ f.StandsAt s₀ .crc2 u := by
  have hfirst : ReadPos.recv 0 = recvFrom (f.len s₀.regs) 0 := (if_pos hlen).symm
  rw [hfirst] at hs
  obtain ⟨v, hsv, hv⟩ := ReadForm.StandsAt.payload ha (Nat.zero_add _) hs
  obtain ⟨w, hvw, hw⟩ := hv.step rfl
  have hend : exec f.instr w = .next (f.after .none (xchg filler w).2) :=
    ReadForm.exec_packet hw.1 (d := (.ret .none, (xchg filler w).2)) rfl
  refine ⟨(xchg filler w).2, ?_, hw⟩
  rw [show 2 * f.len s₀.regs + 2 = 2 * f.len s₀.regs + 1 + 1 from rfl, hsv.trans hvw 1]
  simp [runOp, hend]

end

/-- Under the invariant an operation at a point of its packet stands there with its own operands. -/
theorem State.Inv.standsAt {f : ReadForm} {q : ReadPos} {s : State} (h : s.Inv) (hat : s.At f.instr (f.pos q)) :
    f.StandsAt s q s :=
  ⟨hat, ⟨(h.runs hat (decode_encode _)).busy, .of_eq rfl⟩, rfl⟩

/-- Settles O29: a failed token wait is the packet's result, without a store; past the token every event leads on, to the
packet's success. -/
theorem readPacketFailsOnlyOnItsToken : Obligations.ReadPacketFailsOnlyOnItsToken := by
  unfold Obligations.ReadPacketFailsOnlyOnItsToken
  intro s hs
  refine ⟨fun q t c hfail hc => ⟨fun hat ht => ?_, fun hat ht => ?_, fun k hat ht => ?_⟩, fun hat ha => ?_,
    fun hat ha => ?_, fun k hat ha => ?_⟩
  · obtain ⟨e, n, hstate, rfl⟩ := ReadForm.exec_token_fails (f := .data) hfail hc hat ht
    rw [hstate, ReadForm.after, endStream, if_neg hc]
    exact endOp_after_spec c s e n
  · obtain ⟨e, n, hstate, rfl⟩ := ReadForm.exec_token_fails (f := .single) hfail hc hat ht
    rw [hstate, ReadForm.after, if_neg hc]
    exact endOp_after_spec c s e n
  · obtain ⟨e, n, hstate, rfl⟩ := ReadForm.exec_token_fails (f := .block k) hfail hc hat ht
    rw [hstate, ReadForm.after, if_neg hc]
    exact ⟨startStop_at (s := s.after e n) c hat, startStop_mem .., startStop_trace .., startStop_regs_blkdone ..⟩
  · obtain ⟨-, hpos⟩ := hs.posOk hat
    obtain ⟨u, hrun, -⟩ := (hs.standsAt (f := .data) hat).completes hpos ha
    exact ⟨_, hrun, rfl, rfl, rfl, rfl, rfl⟩
  · obtain ⟨u, hrun, -⟩ := (hs.standsAt (f := .single) hat).completes (by decide : 0 < blockSize) ha
    exact ⟨_, hrun, ⟨rfl, rfl, rfl, rfl, rfl⟩, rfl⟩
  · obtain ⟨u, hrun, hat, hu⟩ := (hs.standsAt (f := .block k) hat).completes (by decide : 0 < blockSize) ha
    obtain ⟨hblk, hnext⟩ := nextReadBlock_spec (s := setBlkdone (k + 1) u) (k + 1) hat
    exact ⟨_, hrun, hblk, hu.count ▸ hnext⟩

end Sys2Proof.Machine
end

section
/-! Single steps of the data tokens: READ_DATA's length check, the start-token detector, the payload and the data response of a
write packet, and the stop sequence (42_data_tokens.md R170, R171, R177 to R180). -/

namespace Sys2Proof.Machine

/-! ### READ_DATA's length -/

/-- A length outside 1 to 512 is BAD_LENGTH (R180). -/
theorem badLength_eq_true {g : Regs} (h : ¬ (1 ≤ g.count.toNat ∧ g.count.toNat ≤ 512)) : badLength g = true := by
  simp only [badLength, Bool.or_eq_true, beq_iff_eq, decide_eq_true_eq]
  by_cases h0 : g.count.toNat = 0
  · exact .inl (BitVec.eq_of_toNat_eq h0)
  · exact .inr (by omega)

/-- Settles O27: the accepted operation ends at once, or SEQ stands before the token wait. -/
theorem readDataChecksItsLength : Obligations.ReadDataChecksItsLength := by
  unfold Obligations.ReadDataChecksItsLength
  intro s hs
  have hexec : exec .readData s = readDataAt .start (accept (encode .readData) s) := exec_idle hs.1
  by_cases h : 1 ≤ s.regs.count.toNat ∧ s.regs.count.toNat ≤ 512
  · have hlen : badLength (accept (encode .readData) s).regs = false := badLength_eq_false h.1 h.2
    simp only [hexec, readDataAt, hlen, if_pos h, Bool.false_eq_true, if_false]
    rfl
  · have hlen : badLength (accept (encode .readData) s).regs = true := badLength_eq_true h
    simp only [hexec, readDataAt, hlen, if_neg h, if_true]
    rfl

/-! ### The start-token detector -/

section
variable {T t0 u : Word} {b : Byte} {s : State} {card : List Byte} {clock : List Word}

/-- The detector's byte is classified: the start token, filler, or neither (R170). -/
theorem waitTokenStep_poll (h : s.inputs.card = b :: card) :
    waitTokenStep T (.poll t0) s =
      (if b = startToken then .ret .none else if b = filler then .more (.test t0) else .ret .badToken,
        s.took filler b card) := by
  simp only [waitTokenStep, xchg_of_card filler h]

/-- The detector's first reading is its `t0` (R170). -/
theorem waitTokenStep_start (h : s.inputs.clock = u :: clock) :
    waitTokenStep T .start s = (.more (.poll u), s.timed u clock) := by
  simp only [waitTokenStep, now_of_clock h]

/-- After a filler byte the deadline is tested (R170). -/
theorem waitTokenStep_test (h : s.inputs.clock = u :: clock) :
    waitTokenStep T (.test t0) s =
      (if T.toNat ≤ (u - t0).toNat then .ret .tokenTimeout else .more (.poll t0), s.timed u clock) := by
  simp only [waitTokenStep, now_of_clock h, deadlinePassed, BitVec.le_def, decide_eq_true_eq]

end

/-- Settles O28: 0xFE, 0xFF and 0x00 to 0xFD are the detector's three cases, and a deadline of 0 has always passed. -/
theorem startTokenIsClassified : Obligations.StartTokenIsClassified := by
  unfold Obligations.StartTokenIsClassified
  intro T t0 s b card hcard
  rw [waitTokenStep_poll hcard]
  refine ⟨fun hb => ?_, fun hb => ?_, fun hne hne' => ?_, fun u clock hclock => ?_⟩
  · rw [if_pos (show b = startToken from hb)]
    rfl
  · subst hb
    rfl
  · rw [if_neg (show b ≠ startToken from hne), if_neg (show b ≠ filler from hne')]
    rfl
  · refine ⟨waitTokenStep_start hclock, waitTokenStep_test hclock, ?_⟩
    rw [waitTokenStep_test hclock, if_pos (show (0 : Word).toNat ≤ _ from Nat.zero_le _)]

/-! ### The write packet -/

section
variable {f : WriteForm} {s : State} {d : Byte} {card : List Byte}

/-- WRITE_BLOCKS goes on with its packet (R177). -/
theorem WriteForm.exec_more {q q' : WritePos} {u : State} (hat : s.At .writeBlocks (f.pos q))
    (h : f.packetStep q s = .next (.more q', u)) : exec .writeBlocks s = .next (u.goes .writeBlocks (f.pos q')) := by
  have hu : u.At .writeBlocks (f.pos q) := (writePacketStep_steady _ _ _).stays h hat
  exact (WriteForm.exec_packet hat h).trans (congrArg _ (goto_of_run _ hu))

/-- The start token is sent (R177, R204). -/
theorem WriteForm.exec_token (hcard : s.inputs.card = d :: card) (hat : s.At .writeBlocks (f.pos .token)) :
    exec .writeBlocks s = .next ((s.took f.tok d card).goes .writeBlocks (f.pos (.fetch 0))) :=
  WriteForm.exec_more hat (by simp only [WriteForm.packetStep, writePacketStep, xchg_of_card f.tok hcard]; rfl)

/-- A payload byte is read from the buffer (R177). -/
theorem WriteForm.exec_fetch {j : Nat} {a : Word} (ha : a = byteAddr (f.base s.regs) j) (hadm : admits s.params a = true)
    (hat : s.At .writeBlocks (f.pos (.fetch j))) :
    exec .writeBlocks s = .next ((logEvent (.memRead a (Memory.read s.mem a.toNat)) s).goes .writeBlocks
      (f.pos (.send j (Memory.read s.mem a.toNat)))) := by
  subst ha
  exact WriteForm.exec_more hat
    (by simp only [WriteForm.packetStep, writePacketStep, memRead_of_admits hadm, onNext_next]; rfl)

/-- The next payload byte, or the CRC bytes after the last (R177). -/
theorem fetchFrom_succ {j : Nat} (h : j < 512) : fetchFrom (j + 1) = if j = 511 then .crc1 else .fetch (j + 1) := by
  unfold fetchFrom blockSize
  by_cases hlast : j = 511
  · rw [if_neg (by omega), if_pos hlast]
  · rw [if_pos (by omega), if_neg hlast]

/-- A payload byte is sent (R177). -/
theorem WriteForm.exec_send {j : Nat} {v : Byte} (hcard : s.inputs.card = d :: card) (hj : j < 512)
    (hat : s.At .writeBlocks (f.pos (.send j v))) :
    exec .writeBlocks s =
      .next ((s.took v d card).goes .writeBlocks (f.pos (if j = 511 then .crc1 else .fetch (j + 1)))) :=
  WriteForm.exec_more hat (by simp only [WriteForm.packetStep, writePacketStep, xchg_of_card v hcard, fetchFrom_succ hj])

/-- After the second CRC byte comes the data-response exchange (R177). -/
theorem WriteForm.exec_crc2 (hcard : s.inputs.card = d :: card) (hat : s.At .writeBlocks (f.pos .crc2)) :
    exec .writeBlocks s = .next ((s.took 0xFF d card).goes .writeBlocks (f.pos .resp)) :=
  WriteForm.exec_more hat (by simp only [WriteForm.packetStep, writePacketStep, xchg_of_card filler hcard]; rfl)

/-- A data-response token is accepted when its low five bits are 0b00101 (R178). -/
theorem dataAccepted_iff (d : Byte) : dataAccepted d = true ↔ d.toNat % 32 = 5 := by
  revert d
  decide +kernel

/-- The data-response token decides the packet's result (R178). -/
theorem WriteForm.exec_resp (hcard : s.inputs.card = d :: card) (hat : s.At .writeBlocks (f.pos .resp)) :
    exec .writeBlocks s =
      .next (f.after (if d.toNat % 32 = 5 then .none else .dataRejected) (s.took 0xFF d card)) := by
  refine WriteForm.exec_packet hat (d := (.ret _, s.took filler d card)) ?_
  simp only [WriteForm.packetStep, writePacketStep, xchg_of_card filler hcard, dataAccepted_iff]

/-- While blocks are left a write stream goes on with the next one (R215). -/
theorem nextWriteBlock_block {p : Pos} {k : Nat} (hat : s.At .writeBlocks p) (hk : k < s.regs.count.toNat) :
    nextWriteBlock k s = s.goes .writeBlocks (.writeBlocks (.block k (.ready .start))) :=
  (if_pos hk).trans (goto_of_run _ hat)

/-- After the last block comes the stop sequence (R215). -/
theorem nextWriteBlock_stop {p : Pos} {k : Nat} (hat : s.At .writeBlocks p) (hk : s.regs.count.toNat ≤ k) :
    nextWriteBlock k s = s.goes .writeBlocks (.writeBlocks (.stop .none (.ready1 .start))) :=
  (if_neg (Nat.not_lt.mpr hk)).trans (goto_of_run _ hat)

end

/-- Settles O38: the two forms differ in the packet's token and base alone. -/
theorem payloadIsReadAndSent : Obligations.PayloadIsReadAndSent := by
  unfold Obligations.PayloadIsReadAndSent
  intro s j v rx card hcard hj
  refine ⟨fun hat => ?_, fun k hat => ?_, fun a ha hadm hat => ?_, fun k a ha hadm hat => ?_, fun hat => ?_,
    fun k hat => ?_⟩
  · exact WriteForm.exec_token (f := .single) hcard hat
  · exact WriteForm.exec_token (f := .block k) hcard hat
  · exact WriteForm.exec_fetch (f := .single) ha hadm hat
  · exact WriteForm.exec_fetch (f := .block k) ha hadm hat
  · exact WriteForm.exec_send (f := .single) hcard hj hat
  · exact WriteForm.exec_send (f := .block k) hcard hj hat

/-- Settles O39: the token's low five bits give the packet's result, and the result what follows the packet. -/
theorem dataResponseDecidesThePacket : Obligations.DataResponseDecidesThePacket := by
  unfold Obligations.DataResponseDecidesThePacket
  intro s d card hcard
  refine ⟨fun hat => ?_, fun hat hd => ?_, fun hat hd => ?_, fun k hat => ?_, fun k hat hd hk => ?_,
    fun k hat hd hk => ?_, fun k hat hd => ?_⟩
  · exact WriteForm.exec_crc2 (f := .single) hcard hat
  · rw [WriteForm.exec_resp (f := .single) hcard hat, if_pos hd]
    exact congrArg _ (goto_of_run _ (s := setBlkdone 1 (s.took 0xFF d card)) hat)
  · rw [WriteForm.exec_resp (f := .single) hcard hat, if_neg hd]
    exact congrArg _ (goto_of_run _ (s := s.took 0xFF d card) hat)
  · exact WriteForm.exec_crc2 (f := .block k) hcard hat
  · rw [WriteForm.exec_resp (f := .block k) hcard hat, if_pos hd, WriteForm.after, if_pos rfl]
    exact congrArg _ (nextWriteBlock_block (s := setBlkdone (k + 1) (s.took 0xFF d card)) hat hk)
  · rw [WriteForm.exec_resp (f := .block k) hcard hat, if_pos hd, WriteForm.after, if_pos rfl]
    exact congrArg _ (nextWriteBlock_stop (s := setBlkdone (k + 1) (s.took 0xFF d card)) hat hk.ge)
  · rw [WriteForm.exec_resp (f := .block k) hcard hat, if_neg hd, WriteForm.after, if_neg (by decide)]
    exact congrArg _ (goto_of_run _ (s := s.took 0xFF d card) hat)

/-! ### The stop sequence -/

/-- The skip bytes still to send, or the second wait (R179). -/
theorem skipFrom_eq (w1 : Bool) (n : Nat) : skipFrom w1 n = if n = 0 then .ready2 w1 .start else .skip w1 (n - 1) := by
  cases n <;> rfl

/-- Settles O41: the stop sequence goes on after either result of its first wait, and its result is NONE after two that
ended ready. -/
theorem stopTokenIsSentWhateverTheWait : Obligations.StopTokenIsSentWhateverTheWait := by
  unfold Obligations.StopTokenIsSentWhateverTheWait
  intro T t0 s w1 rx card u clock hcard hclock
  refine ⟨fun hrx => ?_, fun hdead => ?_, ?_, fun m => ?_, fun hrx => ?_, fun hdead => ?_⟩
  · subst hrx
    rw [stopWriteStep_ready1, waitReadyStep_ready hcard]
    rfl
  · rw [stopWriteStep_ready1, waitReadyStep_expired hclock hdead]
    rfl
  · simp only [stopWriteStep, xchg_of_card stopToken hcard, skipFrom_eq]
    rfl
  · simp only [stopWriteStep, xchg_of_card filler hcard, skipFrom_eq]
    rfl
  · subst hrx
    rw [stopWriteStep_ready2, waitReadyStep_ready hcard]
    cases w1 <;> rfl
  · rw [stopWriteStep_ready2, waitReadyStep_expired hclock hdead]
    cases w1 <;> rfl

end Sys2Proof.Machine
end

section
/-! Single steps of the block stream sequencer: the checks before any event, the data command, the ends of a packet in
its single and multi-block forms, and the clean-up of a stream (43_stream_sequencer.md R201 to R209, R215 to R219). -/

namespace Sys2Proof.Machine

/-! ### Before any event -/

/-- The start of an operation does not touch memory. -/
theorem Moved.mem_of_start {i : Instr} {s t : State} (h : Moved i .start s t) : t.mem = s.mem := by
  obtain ⟨u, hu, hmem⟩ := h.mem
  rw [hmem, (hu.start rfl).2.2]

/-- On an idle block an operation records no event and does not touch memory (R240). -/
theorem exec_idle_quiet {i : Instr} {s t : State} (hs : s.Idle) (h : exec i s = .next t) :
    t.trace = s.trace ∧ t.mem = s.mem := by
  obtain ⟨-, hm⟩ | ⟨p, hp, -⟩ := exec_moved h
  · exact ⟨hm.trace_of_start, hm.mem_of_start⟩
  · rw [State.At, hs.1] at hp
    cases hp

/-- The end of an operation records its pair (R244). -/
theorem endOp_ended (e : Err) (c : Cause) (s : State) : (endOp e c s).Ended e c := ⟨rfl, rfl, rfl, rfl, rfl⟩

/-- The card address overflows in byte addressing alone, from block 2^23 on (R201). -/
theorem addrOverflows_iff (g : Regs) : addrOverflows g = true ↔ g.hc = false ∧ 2 ^ 23 ≤ g.arg.toNat := by
  simp [addrOverflows]

/-- No overflow in block addressing, or below block 2^23 (R201). -/
theorem not_addrOverflows {g : Regs} (h : g.hc = true ∨ g.arg.toNat < 2 ^ 23) : ¬ addrOverflows g = true := by
  rw [addrOverflows_iff]
  rintro ⟨hhc, harg⟩
  exact h.elim (Bool.eq_false_iff.mp hhc) harg.not_gt

section
variable {s : State} {p : Pos}

/-- COUNT = 0 reads nothing, with success (R204). -/
theorem readBlocksStart_zero (hcount : s.regs.count = 0) : (readBlocksStart s).Ended .none .none := by
  rw [readBlocksStart, if_pos hcount]
  exact endOp_ended ..

/-- A read whose card address overflows fails (R201). -/
theorem readBlocksStart_overflow (hcount : s.regs.count ≠ 0) (haddr : addrOverflows s.regs = true) :
    (readBlocksStart s).Ended .readFailed .addrOverflow := by
  rw [readBlocksStart, if_neg hcount, if_pos haddr]
  exact endOp_ended ..

/-- A read that passes its checks waits before its data command (R202, R205). -/
theorem readBlocksStart_checked (hat : s.At .readBlocks p) (hcount : s.regs.count ≠ 0)
    (haddr : ¬ addrOverflows s.regs = true) :
    (readBlocksStart s).At .readBlocks (.readBlocks (.cmd (.ready .start))) := by
  rw [readBlocksStart, if_neg hcount, if_neg haddr]
  exact goto_seq _ _ _ _ hat

/-- The write-protect gate comes first (R216). -/
theorem writeBlocksStart_protected (hwp : s.regs.wp = true) : (writeBlocksStart s).Ended .writeProtected .wpSet := by
  rw [writeBlocksStart, if_pos hwp]
  exact endOp_ended ..

/-- COUNT = 0 writes nothing, with success (R204). -/
theorem writeBlocksStart_zero (hwp : ¬ s.regs.wp = true) (hcount : s.regs.count = 0) :
    (writeBlocksStart s).Ended .none .none := by
  rw [writeBlocksStart, if_neg hwp, if_pos hcount]
  exact endOp_ended ..

/-- A write whose card address overflows fails (R201). -/
theorem writeBlocksStart_overflow (hwp : ¬ s.regs.wp = true) (hcount : s.regs.count ≠ 0)
    (haddr : addrOverflows s.regs = true) : (writeBlocksStart s).Ended .writeFailed .addrOverflow := by
  rw [writeBlocksStart, if_neg hwp, if_neg hcount, if_pos haddr]
  exact endOp_ended ..

/-- A write that passes its checks waits before its data command (R202, R215). -/
theorem writeBlocksStart_checked (hat : s.At .writeBlocks p) (hwp : ¬ s.regs.wp = true) (hcount : s.regs.count ≠ 0)
    (haddr : ¬ addrOverflows s.regs = true) :
    (writeBlocksStart s).At .writeBlocks (.writeBlocks (.cmd (.ready .start))) := by
  rw [writeBlocksStart, if_neg hwp, if_neg hcount, if_neg haddr]
  exact goto_seq _ _ _ _ hat

end

/-- Settles O31: the accept leaves the operands, and the checks come in the order of the statement. -/
theorem blockOperationsCheckBeforeAnyEvent : Obligations.BlockOperationsCheckBeforeAnyEvent := by
  unfold Obligations.BlockOperationsCheckBeforeAnyEvent
  intro s hs
  constructor
  · have hexec : exec .readBlocks s = .next (readBlocksStart (accept (encode .readBlocks) s)) := exec_idle hs.1
    obtain ⟨htrace, hmem⟩ := exec_idle_quiet hs hexec
    refine ⟨_, hexec, htrace, hmem, fun hcount => ?_, fun hcount hhc harg => ?_, fun hcount haddr => ?_⟩
    · exact readBlocksStart_zero hcount
    · exact readBlocksStart_overflow hcount ((addrOverflows_iff _).mpr ⟨hhc, harg⟩)
    · exact readBlocksStart_checked (accept_seq ..) hcount (not_addrOverflows haddr)
  · have hexec : exec .writeBlocks s = .next (writeBlocksStart (accept (encode .writeBlocks) s)) := exec_idle hs.1
    obtain ⟨htrace, hmem⟩ := exec_idle_quiet hs hexec
    refine ⟨_, hexec, htrace, hmem, fun hwp => ?_, fun hwp hcount => ?_, fun hwp hcount hhc harg => ?_,
      fun hwp hcount haddr => ?_⟩
    · exact writeBlocksStart_protected hwp
    · exact writeBlocksStart_zero (Bool.eq_false_iff.mp hwp) hcount
    · exact writeBlocksStart_overflow (Bool.eq_false_iff.mp hwp) hcount ((addrOverflows_iff _).mpr ⟨hhc, harg⟩)
    · exact writeBlocksStart_checked (accept_seq ..) (Bool.eq_false_iff.mp hwp) hcount (not_addrOverflows haddr)

/-! ### The data command -/

/-- A card address that fits 32 bits is the one the command carries (R201). -/
theorem eq_cardAddr {g : Regs} {a : Word}
    (h : a.toNat = if g.hc then g.arg.toNat else 512 * g.arg.toNat) : a = cardAddr g := by
  refine BitVec.eq_of_toNat_eq ?_
  have hfits := a.isLt
  unfold cardAddr
  by_cases hhc : g.hc = true
  · rw [if_pos hhc] at h ⊢
    exact h
  · rw [if_neg hhc] at h ⊢
    rw [BitVec.toNat_shiftLeft, Nat.shiftLeft_eq]
    omega

/-- COUNT = 1 is the single-block form (R204). -/
theorem singleBlock_iff (g : Regs) : singleBlock g = true ↔ g.count = 1 := beq_iff_eq

/-- COUNT ≥ 2 is the multi-block form (R204). -/
theorem singleBlock_ne_true {g : Regs} (h : 2 ≤ g.count.toNat) : singleBlock g ≠ true := by
  rw [Ne, singleBlock_iff]
  intro hcount
  simp [hcount] at h

/-- The index of a read's data command (R204, R205). -/
theorem readIdx_eq (g : Regs) : readIdx g = if g.count = 1 then 17 else 18 := by simp only [readIdx, singleBlock_iff]

/-- The index of a write's data command (R204, R215). -/
theorem writeIdx_eq (g : Regs) : writeIdx g = if g.count = 1 then 24 else 25 := by simp only [writeIdx, singleBlock_iff]

section
variable {idx : BitVec 6} {t0 u : Word} {r : Byte} {k : Nat} {s : State} {card : List Byte} {clock : List Word}

/-- Once the bus is ready the data command is framed, without a probe (R202). -/
theorem seqCommandStep_framed (h : s.inputs.card = 0xFF :: card) :
    seqCommandStep idx (.ready (.poll t0)) s =
      (.more (.cmd (.frame (frameHead idx) (frameTail idx (cardAddr s.regs)))),
        clearResp (buildFrame idx (cardAddr s.regs) (s.took 0xFF 0xFF card))) := by
  simp only [seqCommandStep, waitReadyStep_ready h]
  rfl

/-- When the wait expires nothing is framed (R202). -/
theorem seqCommandStep_notReady (h : s.inputs.clock = u :: clock) (ht : deadlinePassed s.regs.tmoBusy t0 u = true) :
    seqCommandStep idx (.ready (.test t0)) s = (.ret .notReady, s.timed u clock) := by
  simp only [seqCommandStep, waitReadyStep_expired h ht]

/-- The R1 of a data command is its result (R203). -/
theorem seqCommandStep_r1 (h : s.inputs.card = r :: card) (hr : isResponse r = true) :
    seqCommandStep idx (.cmd (.search k)) s =
      (.ret (if r = 0x00 then .none else .r1Error), putResp 0 r 0 (s.took 0xFF r card)) := by
  simp only [seqCommandStep, commandStep_search_found h hr]
  rfl

/-- An operation whose data command is framed goes on with its first frame byte (R202). -/
theorem landsAt_framed {i : Instr} {p : Pos} {pos : SeqCmdPos → Pos} {fin : Cause → State → State} (hat : s.At i p)
    (h : s.inputs.card = 0xFF :: card) :
    let t := landsAt pos fin (seqCommandStep idx (.ready (.poll t0)) s)
    t.trace = s.trace ++ [.xchg 0xFF 0xFF] ∧
      t.At i (pos (.cmd (.frame (frameHead idx) (frameTail idx (cardAddr s.regs))))) ∧
      t.regs.crc7 = frameCrc idx (cardAddr s.regs) := by
  rw [seqCommandStep_framed h]
  refine ⟨goto_trace .., goto_seq _ _ _ _ hat, ?_⟩
  rw [landsAt, goto_regs]
  rfl

end

/-- Settles O32: the two operations differ in the index of the command alone, and an address that fits 32 bits is the
command's. -/
theorem dataCommandCarriesTheCardAddress : Obligations.DataCommandCarriesTheCardAddress := by
  unfold Obligations.DataCommandCarriesTheCardAddress
  refine ⟨fun s t0 card a _ hcard ha => ?_, fun s t0 u clock hclock ht => ⟨fun hat => ?_, fun hat => ?_⟩⟩
  · obtain rfl := eq_cardAddr ha
    rw [← readIdx_eq, ← writeIdx_eq]
    exact ⟨fun hat => ⟨_, exec_readBlocks_cmd hat, landsAt_framed hat hcard⟩,
      fun hat => ⟨_, exec_writeBlocks_cmd hat, landsAt_framed hat hcard⟩⟩
  · rw [exec_readBlocks_cmd hat, seqCommandStep_notReady hclock ht]
    rfl
  · rw [exec_writeBlocks_cmd hat, seqCommandStep_notReady hclock ht]
    rfl

/-! ### The R1 of the data command -/

section
variable {s : State} {p : Pos} {k : Nat}

/-- While blocks are left a read stream goes on with the next one (R205). -/
theorem nextReadBlock_block (hat : s.At .readBlocks p) (hk : k < s.regs.count.toNat) :
    nextReadBlock k s = s.goes .readBlocks (.readBlocks (.block k (.token .start))) :=
  (if_pos hk).trans (goto_of_run _ hat)

/-- A read of one block goes on with its packet (R204, R205). -/
theorem afterReadCommand_single (hat : s.At .readBlocks p) (hcount : s.regs.count = 1) :
    afterReadCommand .none s = s.goes .readBlocks (.readBlocks (.single (.token .start))) := by
  rw [afterReadCommand, if_pos rfl, if_pos ((singleBlock_iff _).mpr hcount)]
  exact goto_of_run _ hat

/-- A read of more blocks goes on with the first packet of its stream (R204, R205). -/
theorem afterReadCommand_multi (hat : s.At .readBlocks p) (hcount : 2 ≤ s.regs.count.toNat) :
    afterReadCommand .none s = s.goes .readBlocks (.readBlocks (.block 0 (.token .start))) := by
  rw [afterReadCommand, if_pos rfl, if_neg (singleBlock_ne_true hcount)]
  exact nextReadBlock_block hat (by omega)

/-- A write of one block goes on with its packet (R204, R215). -/
theorem afterWriteCommand_single (hat : s.At .writeBlocks p) (hcount : s.regs.count = 1) :
    afterWriteCommand .none s = s.goes .writeBlocks (.writeBlocks (.single (.ready .start))) := by
  rw [afterWriteCommand, if_pos rfl, if_pos ((singleBlock_iff _).mpr hcount)]
  exact goto_of_run _ hat

/-- A write of more blocks goes on with the first packet of its stream (R204, R215). -/
theorem afterWriteCommand_multi (hat : s.At .writeBlocks p) (hcount : 2 ≤ s.regs.count.toNat) :
    afterWriteCommand .none s = s.goes .writeBlocks (.writeBlocks (.block 0 (.ready .start))) := by
  rw [afterWriteCommand, if_pos rfl, if_neg (singleBlock_ne_true hcount)]
  exact nextWriteBlock_block hat (by omega)

end

/-- Settles O33: the R1 is stored and gives the command's result, and the result what follows the command. -/
theorem dataCommandNeedsR1Zero : Obligations.DataCommandNeedsR1Zero := by
  unfold Obligations.DataCommandNeedsR1Zero
  intro s k r card hcard hr
  refine ⟨fun hat => ?_, fun hat => ?_⟩
  · rw [exec_readBlocks_cmd hat, seqCommandStep_r1 hcard hr]
    refine ⟨fun hne => ?_, fun hzero hcount => ?_, fun hzero hcount => ?_⟩
    · rw [if_neg hne]
      rfl
    · rw [if_pos hzero]
      exact congrArg _ (afterReadCommand_single (s := putResp 0 r 0 (s.took 0xFF r card)) hat hcount)
    · rw [if_pos hzero]
      exact congrArg _ (afterReadCommand_multi (s := putResp 0 r 0 (s.took 0xFF r card)) hat hcount)
  · rw [exec_writeBlocks_cmd hat, seqCommandStep_r1 hcard hr]
    refine ⟨fun hne => ?_, fun hzero hcount => ?_, fun hzero hcount => ?_⟩
    · rw [if_neg hne]
      rfl
    · rw [if_pos hzero]
      exact congrArg _ (afterWriteCommand_single (s := putResp 0 r 0 (s.took 0xFF r card)) hat hcount)
    · rw [if_pos hzero]
      exact congrArg _ (afterWriteCommand_multi (s := putResp 0 r 0 (s.took 0xFF r card)) hat hcount)

/-! ### The ends of a read packet -/

section
variable {f : ReadForm} {t0 u : Word} {b : Byte} {s : State} {card : List Byte} {clock : List Word}

/-- The second CRC byte ends the packet with success, whatever it is (R172, R173). -/
theorem ReadForm.exec_crc2 (h : s.inputs.card = b :: card) (hat : s.At f.instr (f.pos .crc2)) :
    exec f.instr s = .next (f.after .none (s.took 0xFF b card)) := by
  refine ReadForm.exec_packet hat (d := (.ret .none, s.took filler b card)) ?_
  simp only [ReadForm.packetStep, readPacketStep, xchg_of_card filler h]

/-- A byte that is neither the start token nor filler is the packet's failure (R170, R172). -/
theorem ReadForm.exec_badToken (h : s.inputs.card = b :: card) (hat : s.At f.instr (f.pos (.token (.poll t0))))
    (htok : b ≠ 0xFE) (hfill : b ≠ 0xFF) : exec f.instr s = .next (f.after .badToken (s.took 0xFF b card)) := by
  have hwait : waitTokenStep s.regs.tmoToken (.poll t0) s = (.ret .badToken, s.took filler b card) := by
    rw [waitTokenStep_poll h, if_neg (show b ≠ startToken from htok), if_neg (show b ≠ filler from hfill)]
  refine ReadForm.exec_packet hat (d := (.ret .badToken, s.took filler b card)) ?_
  rw [ReadForm.packetStep, readPacketStep_token, hwait]
  rfl

/-- A token wait that expires is the packet's failure (R170, R172). -/
theorem ReadForm.exec_tokenTimeout (h : s.inputs.clock = u :: clock) (hat : s.At f.instr (f.pos (.token (.test t0))))
    (ht : deadlinePassed s.regs.tmoToken t0 u = true) :
    exec f.instr s = .next (f.after .tokenTimeout (s.timed u clock)) := by
  have hwait : waitTokenStep s.regs.tmoToken (.test t0) s = (.ret .tokenTimeout, s.timed u clock) := by
    rw [waitTokenStep_test h, if_pos (by simpa [deadlinePassed, BitVec.le_def] using ht)]
  refine ReadForm.exec_packet hat (d := (.ret .tokenTimeout, s.timed u clock)) ?_
  rw [ReadForm.packetStep, readPacketStep_token, hwait]
  rfl

end

/-- Settles O35: the packet's result is the operation's. -/
theorem singleBlockReadCompletes : Obligations.SingleBlockReadCompletes := by
  unfold Obligations.SingleBlockReadCompletes
  intro s b card hcard
  exact ⟨fun hat => ReadForm.exec_crc2 (f := .single) hcard hat,
    fun _ hat htok hfill => ReadForm.exec_badToken (f := .single) hcard hat htok hfill,
    fun _ _ _ hat hclock ht => ReadForm.exec_tokenTimeout (f := .single) hclock hat ht⟩

/-! ### The multi-block read -/

/-- The frame of CMD12 (R81, R208). -/
theorem frame_cmd12 : frameHead 12 = 0x4C ∧ frameTail 12 0 = [0x00, 0x00, 0x00, 0x00, 0x61] := by decide +kernel

section
variable {s : State} {p : Pos} {k : Nat}

/-- CMD12 is framed with argument 0 and no probe, the first error recorded (R205, R208). -/
theorem startStop_eq (e : Cause) (hat : s.At .readBlocks p) :
    startStop e s = (clearResp (buildFrame 12 0 s)).goes .readBlocks
      (.readBlocks (.stop e (.frame 0x4C [0x00, 0x00, 0x00, 0x00, 0x61]))) := by
  have hseq : (clearResp (buildFrame 12 0 s)).seq = .run (encode .readBlocks) p := by
    rw [clearResp_seq, buildFrame_seq, hat]
  obtain ⟨hhead, htail⟩ := frame_cmd12
  rw [← hhead, ← htail]
  exact goto_of_run _ hseq

/-- After the last block of a read stream comes CMD12, with no error recorded (R205, R208). -/
theorem nextReadBlock_stop (hk : s.regs.count.toNat ≤ k) : nextReadBlock k s = startStop .none s :=
  if_neg (Nat.not_lt.mpr hk)

end

/-- Settles O36: the packet's result decides between the next packet and CMD12. -/
theorem multiBlockReadAlwaysSendsCmd12 : Obligations.MultiBlockReadAlwaysSendsCmd12 := by
  unfold Obligations.MultiBlockReadAlwaysSendsCmd12
  intro s k b card hcard _
  refine ⟨fun hat hk => ?_, fun hat hk => ?_, fun t0 hat htok hfill => ?_, fun t0 u clock hat hclock ht => ?_⟩
  · refine (ReadForm.exec_crc2 (f := .block k) hcard hat).trans (congrArg _ ?_)
    exact nextReadBlock_block (s := setBlkdone (k + 1) (s.took 0xFF b card)) hat hk
  · refine (ReadForm.exec_crc2 (f := .block k) hcard hat).trans (congrArg _ ?_)
    exact (nextReadBlock_stop (s := setBlkdone (k + 1) (s.took 0xFF b card)) hk.ge).trans
      (startStop_eq (s := setBlkdone (k + 1) (s.took 0xFF b card)) .none hat)
  · exact (ReadForm.exec_badToken (f := .block k) hcard hat htok hfill).trans (congrArg _ (startStop_eq .badToken hat))
  · exact (ReadForm.exec_tokenTimeout (f := .block k) hclock hat ht).trans
      (congrArg _ (startStop_eq .tokenTimeout hat))

/-! ### The single-block write -/

/-- A write packet whose wait expires ends before its token (R177). -/
theorem WriteForm.exec_busyTimeout {f : WriteForm} {t0 u : Word} {s : State} {clock : List Word}
    (h : s.inputs.clock = u :: clock) (ht : deadlinePassed s.regs.tmoBusy t0 u = true)
    (hat : s.At .writeBlocks (f.pos (.ready (.test t0)))) :
    exec .writeBlocks s = .next (f.after .busyTimeout (s.timed u clock)) := by
  refine WriteForm.exec_packet hat (d := (.ret .busyTimeout, s.timed u clock)) ?_
  rw [WriteForm.packetStep, writePacketStep_ready, waitReadyStep_expired h ht]
  rfl

/-- The final wait's result ends the single-block write (R215, R217). -/
theorem exec_writeBlocks_lastWait_ret {c : Cause} {q : WaitPos} {w : Bool} {s t : State}
    (hat : s.At .writeBlocks (.writeBlocks (.lastWait c q))) (h : waitReadyStep s.regs.tmoBusy q s = (.ret w, t)) :
    exec .writeBlocks s = .next (endSingleWrite c w t) := by
  rw [exec_writeBlocks_lastWait hat, h]
  rfl

/-- Settles O40: the wait before the packet and the one after it, each ready or expired. -/
theorem singleBlockWriteCompletes : Obligations.SingleBlockWriteCompletes := by
  unfold Obligations.SingleBlockWriteCompletes
  intro s t0
  refine ⟨fun u clock hclock ht hat => ?_, fun card hcard => ?_, fun u clock hclock ht => ?_⟩
  · exact WriteForm.exec_busyTimeout (f := .single) hclock ht hat
  · exact ⟨fun hat => exec_writeBlocks_lastWait_ret hat (waitReadyStep_ready hcard),
      fun hat => exec_writeBlocks_lastWait_ret hat (waitReadyStep_ready hcard)⟩
  · exact ⟨fun hat => exec_writeBlocks_lastWait_ret hat (waitReadyStep_expired hclock ht),
      fun hat => exec_writeBlocks_lastWait_ret hat (waitReadyStep_expired hclock ht)⟩

/-! ### The clean-up of a stream -/

/-- A busy block whose operation ends in a step is done with its helper's result in that step (R12, R21). -/
theorem landsAt_ended {π ρ : Type} {pos : π → Pos} {fin : ρ → State → State} {d : Progress π ρ × State}
    (hbusy : d.2.regs.status.busy = true) (hend : (landsAt pos fin d).regs.status.busy = false) :
    ∃ r, d.1 = .ret r ∧ landsAt pos fin d = fin r d.2 := by
  obtain ⟨q | r, u⟩ := d
  · rw [landsAt, goto_regs, hbusy] at hend
    cases hend
  · exact ⟨r, rfl, rfl⟩

/-- An event from `s` to `u` leaves what a stream's clean-up must not touch: STATUS, BLKDONE and memory (R209, R219). -/
structure CleansUp (s u : State) : Prop where
  status : u.regs.status = s.regs.status
  blkdone : u.regs.blkdone = s.regs.blkdone
  mem : u.mem = s.mem

/-- Every event of a command leaves them. -/
theorem cleansUp_command (c : CmdCall) (q : CmdPos) (s : State) : CleansUp s (commandStep c q s).2 := by
  obtain ⟨e, n, h | ⟨r, x, h⟩⟩ := commandStep_state c q s <;> rw [h] <;> exact ⟨rfl, rfl, rfl⟩

/-- Every event of the stop sequence leaves them. -/
theorem cleansUp_stopWrite (T : Word) (q : StopPos) (s : State) : CleansUp s (stopWriteStep T q s).2 := by
  obtain ⟨e, n, h⟩ := stopWriteStep_state T q s
  rw [h]
  exact ⟨rfl, rfl, rfl⟩

/-- The end of a stream reports its cause, or success (R244). -/
theorem endStream_ended (err : Err) (e : Cause) (s : State) :
    (endStream err e s).Ended (if e = .none then .none else err) e := by
  by_cases he : e = .none
  · rw [endStream, if_pos he, if_pos he, he]
    exact endOp_ended ..
  · rw [endStream, if_neg he, if_neg he]
    exact endOp_ended ..

@[simp] theorem endStream_blkdone (err : Err) (e : Cause) (s : State) :
    (endStream err e s).regs.blkdone = s.regs.blkdone := by unfold endStream; split <;> rfl
@[simp] theorem endStream_mem (err : Err) (e : Cause) (s : State) : (endStream err e s).mem = s.mem := by
  unfold endStream; split <;> rfl

/-- A stream with `e` recorded has gone from `s` to its end `t` with the first error; `c` is its clean-up's result. -/
def ReportsFirst (err : Err) (e c : Cause) (s t : State) : Prop :=
  t.regs.blkdone = s.regs.blkdone ∧ t.mem = s.mem ∧
    (e ≠ .none → t.Ended err e ∧ t.regs.blkdone.toNat < s.regs.count.toNat) ∧
    (e = .none → t.regs.blkdone = s.regs.count ∧ t.Ended (if c = .none then .none else err) c)

/-- The end of a stream after its clean-up reports the first error (R209, R219). -/
theorem endStream_reportsFirst {err : Err} {e c : Cause} {s u : State} (hu : CleansUp s u)
    (hblocks : stoppedAt s.regs e) : ReportsFirst err e c s (endStream err (firstError e c) u) := by
  rw [stoppedAt] at hblocks
  refine ⟨by rw [endStream_blkdone, hu.blkdone], by rw [endStream_mem, hu.mem], fun he => ?_, fun he => ?_⟩
  · rw [if_neg he] at hblocks
    have hended := endStream_ended err e u
    rw [if_neg he] at hended
    rw [firstError, if_neg he, endStream_blkdone, hu.blkdone]
    exact ⟨hended, hblocks⟩
  · rw [if_pos he] at hblocks
    rw [firstError, if_pos he, endStream_blkdone, hu.blkdone]
    exact ⟨hblocks, endStream_ended err c u⟩

/-- Settles O37: the step that ends the clean-up is the one in which CMD12 or the stop sequence returns. -/
theorem firstErrorWinsInAStream : Obligations.FirstErrorWinsInAStream := by
  unfold Obligations.FirstErrorWinsInAStream
  refine ⟨fun s t e q hs hat ht hend => ?_, fun s t e q hs hat ht hend => ?_⟩
  · obtain ⟨-, -, -, hblocks, hq⟩ := hs.posOk hat
    have hu := cleansUp_command (stopCall s.params s.regs) q s
    rw [exec_readBlocks_stop hat] at ht
    cases ht
    obtain ⟨c, hret, hland⟩ := landsAt_ended (hu.status ▸ (hs.runs hat (decode_encode _)).busy) hend
    obtain ⟨hblk, hmem, herr, hok⟩ := endStream_reportsFirst (err := .readFailed) (c := c) hu hblocks
    rw [hland]
    refine ⟨hblk, hmem, herr, fun he => ⟨(hok he).1, ?_⟩⟩
    have hended := (hok he).2
    obtain rfl | rfl | ⟨-, hchk⟩ | ⟨rfl, -⟩ := commandStep_cause hq hret
    · exact .inl hended
    · exact .inr (.inl hended)
    · cases hchk
    · exact .inr (.inr hended)
  · obtain ⟨-, -, -, -, hblocks, hq⟩ := hs.posOk hat
    have hu := cleansUp_stopWrite s.regs.tmoBusy q s
    rw [exec_writeBlocks_stop hat] at ht
    cases ht
    obtain ⟨c, hret, hland⟩ := landsAt_ended (hu.status ▸ (hs.runs hat (decode_encode _)).busy) hend
    obtain ⟨hblk, hmem, herr, hok⟩ := endStream_reportsFirst (err := .writeFailed) (c := c) hu hblocks
    rw [hland]
    refine ⟨hblk, hmem, herr, fun he => ⟨(hok he).1, ?_⟩⟩
    have hended := (hok he).2
    obtain ⟨-, hcause⟩ := stopWriteStep_spec (T := s.regs.tmoBusy) hq
    rw [hret] at hcause
    obtain rfl | rfl : c = .none ∨ c = .busyTimeout := by simpa using hcause
    · exact .inl hended
    · exact .inr hended

end Sys2Proof.Machine
end

section
/-! The accept and the end of an operation: what an OP write does in its step, illegal words, how an operation ends and with
which pairs, and which buffer bytes it writes (60_exceptions.md R240 to R247). -/

namespace Sys2Proof.Machine

/-! ### The bytes an operation writes -/

/-- A byte of block `k` of a stream is a byte of the stream (R66, R204). -/
theorem byteAddr_blockBase (buf : Word) (k j : Nat) :
    byteAddr (blockBase buf k) j = buf + BitVec.ofNat 32 (blockSize * k + j) := by
  rw [byteAddr, blockBase, BitVec.add_assoc, ← BitVec.ofNat_add]

/-- An operation stores at an address of the range it names (R180, R204, R243). -/
theorem storeAddr_in_range {i : Instr} {p : Pos} {s : State} {a : Word} (h : s.Inv) (hat : s.At i p)
    (hst : storeAddr s = some a) :
    ∃ j, a = s.regs.bufaddr + BitVec.ofNat 32 j ∧
      ((i = .readData ∧ j < s.regs.count.toNat) ∨ (i = .readBlocks ∧ j < 512 * s.regs.count.toNat)) := by
  have hpos {w : Word} {q : Pos} (hq : s.seq = .run w q) : PosOk i s q :=
    (Seq.run.inj (hat.symm.trans hq)).2 ▸ h.posOk hat
  obtain ⟨w, j, b, hq, rfl⟩ | ⟨w, j, b, hq, rfl⟩ | ⟨w, k, j, b, hq, rfl⟩ := storeAddr_cases hst
  · have hp := hpos hq
    obtain rfl := hp.eq_readData
    obtain ⟨-, hj⟩ := hp
    exact ⟨j, rfl, .inl ⟨rfl, hj⟩⟩
  · have hp := hpos hq
    obtain rfl := hp.eq_readBlocks
    obtain ⟨-, hcount, -, hj⟩ := hp
    have hj : j < 512 := hj
    exact ⟨j, rfl, .inr ⟨rfl, by simpa [hcount] using hj⟩⟩
  · have hp := hpos hq
    obtain rfl := hp.eq_readBlocks
    obtain ⟨-, -, hk, -, hj⟩ := hp
    have hj : j < 512 := hj
    exact ⟨blockSize * k + j, byteAddr_blockBase _ k j, .inr ⟨rfl, by unfold blockSize; omega⟩⟩

/-- Settles O48: the one byte a step stores has an address of the range. -/
theorem bufferIsWrittenOnlyInTheNamedRange : Obligations.BufferIsWrittenOnlyInTheNamedRange := by
  unfold Obligations.BufferIsWrittenOnlyInTheNamedRange
  intro i s t x hs ht hx
  obtain ⟨-, hmoved⟩ | ⟨p, hat, hmoved⟩ := exec_moved ht
  · exact absurd (by rw [hmoved.mem_of_start, accept_mem]) hx
  · cases hst : storeAddr s with
    | none => exact absurd (by rw [hmoved.mem_of_no_store hst]) hx
    | some a =>
      have hxa : x = a.toNat := by_contra fun hne => hx (hmoved.read_other hst hne)
      obtain ⟨j, rfl, hrange⟩ := storeAddr_in_range hs hat hst
      exact ⟨j, hxa, hrange⟩

/-! ### Illegal words -/

/-- A word with a reserved bit set is illegal (R94). -/
theorem decode_of_reserved {w : Word} (h : w &&& reservedMask ≠ 0) : decode w = .illegal .reservedBit := by
  rw [decode, if_pos h]

/-- A word that is legal under a condition alone is illegal without it. -/
theorem ite_illegal_iff (c : Prop) [Decidable c] (i : Instr) (r : Illegal) :
    (∃ why, (if c then Decoded.op i else .illegal r) = .illegal why) ↔ ¬ c := by
  by_cases h : c
  · simp [h]
  · simp [h]

section
variable {w : Word} (hres : w &&& reservedMask = 0)
include hres

/-- A SEND_CMD word is illegal when its class code names no class (R92, R94). -/
theorem sendCmd_illegal_iff (hopc : (opcOf w).toNat = 1) : (∃ why, decode w = .illegal why) ↔ 5 ≤ (rtOf w).toNat := by
  have hcode : ∀ c : BitVec 3, RespType.ofCode c.toNat = none ↔ 5 ≤ c.toNat := by decide
  rw [← hcode]
  simp only [decode, hres, hopc]
  cases RespType.ofCode (rtOf w).toNat <;> simp

/-- A CRC7 word is illegal when it sets RT or NOCHK (R93, R94). -/
theorem crc7_illegal_iff (hopc : (opcOf w).toNat = 2) :
    (∃ why, decode w = .illegal why) ↔ rtOf w ≠ 0 ∨ nochkOf w = true := by
  have hd : decode w = if rtOf w = 0 ∧ nochkOf w = false then .op (.crc7 (idxOf w)) else .illegal .unusedField := by
    simp [decode, hres, hopc]
  rw [hd, ite_illegal_iff, not_and_or, Bool.not_eq_false]

/-- A word of any other operation is illegal when it sets a field (R93, R94). -/
theorem plainOp_illegal_iff (hlo : 3 ≤ (opcOf w).toNat) (hhi : (opcOf w).toNat ≤ 7) :
    (∃ why, decode w = .illegal why) ↔ idxOf w ≠ 0 ∨ rtOf w ≠ 0 ∨ nochkOf w = true := by
  obtain ⟨i, hi⟩ : ∃ i, decode w = plainOp w i := by
    simp only [decode, hres]
    generalize (opcOf w).toNat = n at hlo hhi
    interval_cases n <;> exact ⟨_, rfl⟩
  rw [hi, plainOp, ite_illegal_iff, not_and_or, not_and_or, Bool.not_eq_false]

/-- A word of opcode 0 or above 7 is illegal (R94). -/
theorem decode_of_unassigned (hopc : (opcOf w).toNat = 0 ∨ 8 ≤ (opcOf w).toNat) :
    decode w = .illegal .unassignedOpcode := by
  rw [decode, if_neg (not_not.mpr hres)]
  split
  case h_8 => rfl
  all_goals omega

end

/-- R247's list of the illegal words. -/
theorem illegal_iff (w : Word) : (∃ why, decode w = .illegal why) ↔
    (opcOf w = 0 ∨ 8 ≤ (opcOf w).toNat) ∨ w &&& reservedMask ≠ 0 ∨ (opcOf w = 1 ∧ 5 ≤ (rtOf w).toNat) ∨
      (opcOf w = 2 ∧ (rtOf w ≠ 0 ∨ nochkOf w = true)) ∨
      (3 ≤ (opcOf w).toNat ∧ (opcOf w).toNat ≤ 7 ∧ (idxOf w ≠ 0 ∨ rtOf w ≠ 0 ∨ nochkOf w = true)) := by
  by_cases hres : w &&& reservedMask = 0
  case neg => exact iff_of_true ⟨_, decode_of_reserved hres⟩ (.inr (.inl hres))
  have hopc (k : BitVec 4) : opcOf w = k ↔ (opcOf w).toNat = k.toNat := BitVec.toNat_eq
  have hn : ((opcOf w).toNat = 0 ∨ 8 ≤ (opcOf w).toNat) ∨ (opcOf w).toNat = 1 ∨ (opcOf w).toNat = 2 ∨
    (3 ≤ (opcOf w).toNat ∧ (opcOf w).toNat ≤ 7) := by omega
  obtain hn | hn | hn | ⟨hlo, hhi⟩ := hn
  · exact iff_of_true ⟨_, decode_of_unassigned hres hn⟩ (.inl (by rwa [hopc]))
  · rw [sendCmd_illegal_iff hres hn]
    simp [hopc, hn, hres]
  · rw [crc7_illegal_iff hres hn]
    simp [hopc, hn, hres]
  · rw [plainOp_illegal_iff hres hlo hhi]
    have h0 : (opcOf w).toNat ≠ 0 := by omega
    have h1 : (opcOf w).toNat ≠ 1 := by omega
    have h2 : (opcOf w).toNat ≠ 2 := by omega
    have h8 : ¬ 8 ≤ (opcOf w).toNat := by omega
    simp [hopc, hres, h0, h1, h2, h8, hlo, hhi]

/-- Settles O4: the list of illegal words, then the accept followed by the end with ILLEGAL_OP / BAD_OP_WORD. -/
theorem illegalWordEndsAtOnce : Obligations.IllegalWordEndsAtOnce := by
  unfold Obligations.IllegalWordEndsAtOnce
  exact fun w => ⟨illegal_iff w, fun ⟨_, hwhy⟩ s hs => hostWrite_op_of_illegal hwhy hs.2, by decide⟩

/-! ### The accept -/

/-- Operation `i` at its start in `s` has gone to `t`: it has ended if it is one of R240's list, and otherwise SEQ stands at
its first event. -/
def Starts (i : Instr) (s t : State) : Prop :=
  ∃ u, Went i .start s u ∧ u.regs.blkdone = s.regs.blkdone ∧
    if endsAtAccept (.op i) s.regs then ∃ e c, t = endOp e c u else ∃ p, t = goto p u

/-- It ends. -/
theorem Starts.ends {i : Instr} {s u : State} (e : Err) (c : Cause) (hu : Went i .start s u)
    (hb : u.regs.blkdone = s.regs.blkdone) (hend : endsAtAccept (.op i) s.regs = true) : Starts i s (endOp e c u) :=
  ⟨u, hu, hb, by rw [if_pos hend]; exact ⟨e, c, rfl⟩⟩

/-- It goes on to its first event. -/
theorem Starts.goes {i : Instr} {s u : State} (p : Pos) (hu : Went i .start s u)
    (hb : u.regs.blkdone = s.regs.blkdone) (hend : endsAtAccept (.op i) s.regs = false) : Starts i s (goto p u) :=
  ⟨u, hu, hb, by rw [hend]; exact ⟨p, rfl⟩⟩

section
variable {s t : State} (hst : storeAddr s = none)
include hst

/-- SEND_CMD builds its frame and clears its response, and goes on (R134, R140). -/
theorem sendCmdAt_starts {rt : RespType} {idx : BitVec 6} {nochk : Bool}
    (h : sendCmdAt rt idx nochk .start s = .next t) : Starts (sendInstr rt idx nochk) s t := by
  have hi := sendInstr_frames rt idx nochk
  cases h
  have hw := ((went_start _ s hst).buildFrame idx s.regs.arg fun hf => hi (.inl hf)).clearResp hi
  exact .goes _ hw rfl (by cases rt <;> rfl)

/-- FILL ends when COUNT = 0 (R155). -/
theorem fillFrom_starts : Starts .fill s (fillFrom s.regs.count.toNat s) := by
  have hw := went_start .fill s hst
  cases hn : s.regs.count.toNat with
  | zero => exact .ends _ _ hw rfl (beq_iff_eq.mpr (BitVec.eq_of_toNat_eq hn))
  | succ m => exact .goes _ hw rfl (beq_eq_false_iff_ne.mpr fun h0 => by simp [h0] at hn)

/-- READ_BLOCKS ends when COUNT = 0 or the card address overflows (R205). -/
theorem readBlocksStart_starts : Starts .readBlocks s (readBlocksStart s) := by
  have hw := went_start .readBlocks s hst
  unfold readBlocksStart
  split_ifs with hcount haddr
  · exact .ends _ _ hw rfl (by simp [endsAtAccept, hcount])
  · exact .ends _ _ hw rfl (by simp [endsAtAccept, haddr])
  · exact .goes _ hw rfl (by simpa [endsAtAccept, haddr] using hcount)

/-- WRITE_BLOCKS ends when the card is write-protected, COUNT = 0 or the card address overflows (R215). -/
theorem writeBlocksStart_starts : Starts .writeBlocks s (writeBlocksStart s) := by
  have hw := went_start .writeBlocks s hst
  unfold writeBlocksStart
  split_ifs with hwp hcount haddr
  · exact .ends _ _ hw rfl (by simp [endsAtAccept, hwp])
  · exact .ends _ _ hw rfl (by simp [endsAtAccept, hcount])
  · exact .ends _ _ hw rfl (by simp [endsAtAccept, haddr])
  · exact .goes _ hw rfl (by simpa [endsAtAccept, hwp, haddr] using hcount)

/-- The start of every operation (R240). -/
theorem codeOf_starts {i : Instr} (h : codeOf i .start s = .next t) : Starts i s t := by
  cases i with
  | sendCmdR1 idx nochk => exact sendCmdAt_starts (rt := .r1) hst h
  | sendCmdR1b idx nochk => exact sendCmdAt_starts (rt := .r1b) hst h
  | sendCmdR2 idx nochk => exact sendCmdAt_starts (rt := .r2) hst h
  | sendCmdR3 idx nochk => exact sendCmdAt_starts (rt := .r3) hst h
  | sendCmdR7 idx nochk => exact sendCmdAt_starts (rt := .r7) hst h
  | crc7 idx =>
    cases h
    exact .ends _ _ ((went_start _ s hst).buildFrame idx s.regs.arg (by simp [framesNothing])) rfl rfl
  | waitReady =>
    cases h
    exact .goes _ (went_start _ s hst) rfl rfl
  | fill =>
    cases h
    exact fillFrom_starts hst
  | readData =>
    cases h
    split_ifs with hlen
    · exact .ends _ _ (went_start _ s hst) rfl hlen
    · exact .goes _ (went_start _ s hst) rfl (Bool.eq_false_iff.mpr hlen)
  | readBlocks =>
    cases h
    exact readBlocksStart_starts hst
  | writeBlocks =>
    cases h
    exact writeBlocksStart_starts hst

end

/-- R240's list of the operations that end in the accept rests on the operands alone. -/
theorem endsAtAccept_accept (i : Instr) (w : Word) (s : State) :
    endsAtAccept (.op i) (accept w s).regs = endsAtAccept (.op i) s.regs := by cases i <;> rfl

/-- The write of word `w` to OP in `s` has led to `t`: the word is accepted, and the operation has ended or runs (R240). -/
def Accepted (w : Word) (s t : State) : Prop :=
  t.regs.op = w ∧ t.regs.blkdone = 0 ∧ t.regs.status.ovr = false ∧ t.trace = s.trace ∧ t.mem = s.mem ∧ t.inputs = s.inputs ∧
    (if endsAtAccept (decode w) s.regs then
      t.seq = .idle ∧ t.regs.status.busy = false ∧ t.regs.status.done = true
     else
      (∃ p, t.seq = .run w p) ∧ t.regs.status.busy = true ∧ t.regs.status.done = false ∧
        t.regs.status.err = .none ∧ t.regs.status.cause = .none)

/-- An illegal word is accepted and ends (R247). -/
theorem accepted_illegal {w : Word} {why : Illegal} (hi : decode w = .illegal why) (s : State) :
    Accepted w s (endOp .illegalOp .badOpWord (accept w s)) := by
  refine ⟨rfl, rfl, rfl, rfl, rfl, rfl, ?_⟩
  rw [hi]
  exact ⟨rfl, rfl, rfl⟩

/-- The start of an operation from the accepted state is the accept of its word. -/
theorem Starts.accepted {w : Word} {i : Instr} {s t : State} (hi : decode w = .op i) (h : Starts i (accept w s) t) :
    Accepted w s t := by
  obtain ⟨u, hu, hblk, ht⟩ := h
  obtain ⟨htrace, hinputs, hmem⟩ := hu.start rfl
  have hstatus : u.regs.status = { busy := true, done := false, ovr := false, err := .none, cause := .none } := hu.status
  rw [endsAtAccept_accept] at ht
  unfold Accepted
  rw [hi]
  split_ifs at ht ⊢ with hend
  · obtain ⟨e, c, rfl⟩ := ht
    exact ⟨hu.op, hblk, congrArg Status.ovr hstatus, htrace, hmem, hinputs, rfl, rfl, rfl⟩
  · obtain ⟨p, rfl⟩ := ht
    simp only [goto_regs, goto_trace, goto_mem, goto_inputs, hstatus]
    exact ⟨hu.op, hblk, trivial, htrace, hmem, hinputs, ⟨p, goto_seq _ _ _ _ hu.seq⟩, by simp⟩

/-- An OP write on an idle block is accepted, whatever the word (R240). -/
theorem hostWrite_op_accepted (w : Word) {s : State} (hb : s.regs.status.busy = false) :
    ∃ t, hostWrite .op w s = .next t ∧ Accepted w s t := by
  cases hd : decode w with
  | illegal why => exact ⟨_, hostWrite_op_of_illegal hd hb, accepted_illegal hd s⟩
  | op i =>
    obtain ⟨t, ht⟩ := codeOf_start_answers i (accept w s)
    have hat : (accept w s).At i .start := by rw [State.At, encode_of_decode hd, accept_seq]
    exact ⟨t, by rw [hostWrite_op_of_idle hd hb, exec_at hat, ht], (codeOf_starts rfl ht).accepted hd⟩

/-- Settles O10: the accept leads to R240's end or to the first event, and past it every step is one event. -/
theorem opWriteIsAccepted : Obligations.OpWriteIsAccepted := by
  unfold Obligations.OpWriteIsAccepted
  refine ⟨fun w s hs => hostWrite_op_accepted w hs.2, fun s t hs hb ht => ?_⟩
  obtain ⟨w, p, i, hseq, hdec, hp⟩ := hs.run_of_busy hb
  rw [blockStep_of_run hseq hdec] at ht
  exact exec_trace_of_run hseq hp ht

/-! ### The end -/

/-- A step of a busy block after which it is idle has ended the operation (R244). -/
theorem Moved.ends_of_idle {i : Instr} {p : Pos} {s t : State} (h : Moved i p s t) (hb : s.regs.status.busy = true)
    (ht : t.regs.status.busy = false) : ∃ e c u, t = endOp e c u := by
  obtain ⟨u, hu, ⟨q, rfl⟩ | ⟨e, c, rfl⟩⟩ := h
  · rw [goto_regs, hu.status, hb] at ht
    cases ht
  · exact ⟨e, c, u, rfl⟩

section
variable {i : Instr} {s t : State} (hs : s.Inv) (ht : exec i s = .next t)
include hs ht

/-- A step of an operation after which the block is idle has ended it, in its accept or later (R244). -/
theorem exec_ends_of_idle (hb : t.regs.status.busy = false) : ∃ e c u, t = endOp e c u := by
  obtain ⟨-, hmoved⟩ | ⟨p, hat, hmoved⟩ := exec_moved ht
  · exact hmoved.ends_of_idle rfl hb
  · exact hmoved.ends_of_idle (hs.runs hat (decode_encode i)).busy hb

/-- A step of an operation keeps the invariant, on an idle block and on one that runs it. -/
theorem exec_inv : t.Inv := by
  obtain ⟨hidle, -⟩ | ⟨p, hat, -⟩ := exec_next ht
  · exact (hs.runs_accept (decode_encode i)).step_inv ((exec_accept hidle).symm.trans ht)
  · exact (hs.runs hat (decode_encode i)).step_inv ht

/-- OP holds the operation's word after a step of it (R23, R240). -/
theorem exec_op : t.regs.op = encode i := by
  obtain ⟨-, hmoved⟩ | ⟨p, hat, hmoved⟩ := exec_moved ht
  · exact hmoved.frame.op
  · rw [hmoved.frame.op]
    exact ((seqOk_run hat).mp hs.seq_ok).1

/-- An operation that has ended has recorded a pair of its row (R241). -/
theorem exec_outcome (hb : t.regs.status.busy = false) :
    (t.regs.status.err, t.regs.status.cause) ∈ outcomes (.op i) := by
  have hdone : t.regs.status.done = true := by
    obtain ⟨e, c, u, rfl⟩ := exec_ends_of_idle hs ht hb
    rfl
  have hpair := ((exec_inv hs ht).status_ok.2.1 hdone).2
  rwa [exec_op hs ht, decode_encode] at hpair

end

/-- Settles O11: the step that leaves the block idle is the end, after which the sequencer has no event. -/
theorem endOfOperationIsPrecise : Obligations.EndOfOperationIsPrecise := by
  unfold Obligations.EndOfOperationIsPrecise
  intro i s t hs ht hb
  obtain ⟨-, -, -, -, -, hovr, -⟩ := operationsKeepTheirOperands i s t ht
  obtain ⟨e, c, u, rfl⟩ := exec_ends_of_idle hs ht hb
  exact ⟨rfl, rfl, hovr, rfl⟩

/-! ### The outcomes -/

/-- Every pair of a SEND_CMD's row has an error class exactly when it has a cause (R241). -/
theorem sendOutcomes_none_iff (rt : RespType) (nochk : Bool) :
    ∀ o ∈ sendOutcomes rt nochk, o.1 = .none ↔ o.2 = .none := by
  cases rt <;> cases nochk <;> decide

/-- Every pair of an operation's row has an error class exactly when it has a cause (R241). -/
theorem outcomes_none_iff (i : Instr) : ∀ o ∈ outcomes (.op i), o.1 = .none ↔ o.2 = .none := by
  cases i with
  | sendCmdR1 idx nochk => exact sendOutcomes_none_iff .r1 nochk
  | sendCmdR1b idx nochk => exact sendOutcomes_none_iff .r1b nochk
  | sendCmdR2 idx nochk => exact sendOutcomes_none_iff .r2 nochk
  | sendCmdR3 idx nochk => exact sendOutcomes_none_iff .r3 nochk
  | sendCmdR7 idx nochk => exact sendOutcomes_none_iff .r7 nochk
  | _ => simp [outcomes]

/-- Settles O12: an operation that ends keeps the invariant, whose STATUS holds a pair of OP's row; an illegal word has one
pair. -/
theorem operationRecordsOnlyItsOutcomes : Obligations.OperationRecordsOnlyItsOutcomes := by
  unfold Obligations.OperationRecordsOnlyItsOutcomes
  refine ⟨fun i s t hs ht hb => ?_, fun w why s t hw ht => ?_⟩
  · have hpair := exec_outcome hs ht hb
    exact ⟨hpair, outcomes_none_iff i _ hpair⟩
  · simp only [startOp, hw] at ht
    cases ht
    exact ⟨rfl, by simp [outcomes]⟩

end Sys2Proof.Machine
end

section
/-! A reset turn: what its step does, and that the block stays idle after it (70_reset_and_hazards.md R270, R271). -/

namespace Sys2Proof.Machine

/-- Where reset is next on the schedule, the step resets the block and takes that turn off (R270, log entry 2). -/
theorem step_of_reset {s : State} {ts : List Turn} (h : s.turns = .reset :: ts) :
    step s = .next (resetBlock { s with turns := ts }) := by simp only [step, h, turnStep]

/-- An idle sequencer performs no event (R257). -/
theorem blockStep_of_idle {s : State} (h : s.seq = .idle) : blockStep s = .next s := by simp only [blockStep, h]

/-- STATUS reads 0 after reset (R270). -/
theorem statusWord_resetBlock (s : State) : statusWord (resetBlock s).regs.status = 0 := regWord_reset .status

/-- Settles O55: the step answers the reset block, whose fields are each a reset value or the field from before, and whose
sequencer is idle. -/
theorem resetAbortsAndRestores : Obligations.ResetAbortsAndRestores := by
  unfold Obligations.ResetAbortsAndRestores
  intro s ts hts
  have hstatus := statusWord_resetBlock { s with turns := ts }
  have hidle := blockStep_of_idle (resetBlock_seq { s with turns := ts })
  exact ⟨_, step_of_reset hts, rfl, rfl, rfl, hstatus, rfl, rfl, rfl, rfl, rfl, hidle⟩

end Sys2Proof.Machine
end

section
/-! The reset state meets the machine's invariant (10_state.md R43). -/

namespace Sys2Proof.Machine

/-- A reset of the machine right after reset changes nothing (R43, R270). -/
theorem resetBlock_reset : resetBlock State.reset = State.reset := rfl

/-- Settles O56: a reset establishes the invariant on any state with canonical memory, and the reset state, whose memory
lists nothing, is its own reset. -/
theorem resetMeetsTheInvariant : Obligations.ResetMeetsTheInvariant := by
  unfold Obligations.ResetMeetsTheInvariant
  rw [← resetBlock_reset]
  exact resetBlock_inv State.reset_mem_wf

end Sys2Proof.Machine
end
